-- ==== Sys2Proof/Word.lean ====
section
/-!
DEFINITION. The plain words of the wire and the one shape in which sparse data is held.
A byte string (spec 00_scope.md R12) is a list of bytes, the first on the wire first.
-/

namespace Sys2Proof

/-- One byte, a u8 (R11). -/
abbrev Byte := BitVec 8

/-- A 16-bit field, a u16 (R11); the only multi-byte width of the wire (R62). -/
abbrev U16 := BitVec 16

/-- A byte string (R12): index 0 is the first byte on the wire. -/
abbrev Bytes := List Byte

/-- Sparse data by key, held as a list of (key, value) pairs. -/
abbrev Table (α : Type) := List (Nat × α)

end Sys2Proof
end

