-- ==== Sys2Proof/Machine/Flags.lean ====
section
/-!
DEFINITION. The block has no status flags and no condition codes (spec 10_state.md R33). Its one flag-like bit is bit 7
of a PDU's function-code byte, which marks an exception reply and lives in the PDU.
-/

namespace Sys2Proof.Machine

/-- EXC_BIT, bit 7 of the function-code byte (R9, R106). -/
def exceptionBit : Byte := 0x80

/-- The test of the response parsers, `(f & 0x80) != 0` (R291). -/
def hasExceptionBit (fc : Byte) : Bool := (fc &&& exceptionBit) != 0

/-- The first byte of an exception PDU, `fc | 0x80` (R108, R160). -/
def setExceptionBit (fc : Byte) : Byte := fc ||| exceptionBit

end Sys2Proof.Machine
end

