-- ==== Sys2Proof/Config.lean ====
section
/-!
DEFINITION. What is fixed when the block is constructed (spec 00_scope.md R10, 10_state.md R32).
The parameters are plain data that the state carries, so that a statement about every state is a statement
about every configuration (log entry 2).
-/

namespace Sys2Proof

/-- WSC_OTHER (R10, R221): what the server does with a WriteSingleCoil value other than 0xFF00 and 0x0000. -/
inductive WscOther where
  | reject03
  | asTrue
  | asFalse
  deriving DecidableEq, Repr, Inhabited

/-- The construction parameters (R10), less the initial contents. N_AGENTS `none` is "unbounded". -/
structure Params where
  sizeCoils : Nat
  sizeDi    : Nat
  sizeHr    : Nat
  sizeIr    : Nat
  wscOther  : WscOther
  nAgents   : Option Nat
  deriving DecidableEq, Repr

/-- The legal ranges of R10: sizes in [0, 65536], N_AGENTS at least 1. -/
abbrev Params.Legal (p : Params) : Prop :=
  p.sizeCoils ≤ 65536 ∧ p.sizeDi ≤ 65536 ∧ p.sizeHr ≤ 65536 ∧ p.sizeIr ≤ 65536 ∧ ∀ n ∈ p.nAgents, 1 ≤ n

/-- The machine's WSC_OTHER where nobody names one. The spec gives no default (D11), so this constant has no body
and nothing can be proved of its value (log entry 2). -/
opaque Config.wscOther : WscOther

/-- The defaults of R10: 65536 entries in each space and no bound on the number of agents. -/
def Config.params : Params where
  sizeCoils := 65536
  sizeDi    := 65536
  sizeHr    := 65536
  sizeIr    := 65536
  wscOther  := Config.wscOther
  nAgents   := none

/-- What an unlisted entry of COILS and DI reads as. A register file's list names its other entries, so this fixes a
representation and no contents: `State.construct` lists whatever INIT gives (log entry 1). -/
abbrev Config.unlistedBit : Bool := false

/-- What an unlisted entry of HR and IR reads as; see `Config.unlistedBit`. -/
abbrev Config.unlistedReg : U16 := 0

end Sys2Proof
end

