-- ==== Sys2Proof/Syntax.lean ====
section
/-!
DEFINITION. The instructions (the 17 rows of spec/opcode_table.json), the other things that travel on the wire or
between the block and its callers, and the typed errors of spec 60_exceptions.md.
-/

namespace Sys2Proof

/-- The eight function codes (R2, R107). No other code has a meaning in a request. -/
inductive FunctionCode where
  | readCoils
  | readDiscreteInputs
  | readHoldingRegisters
  | readInputRegisters
  | writeSingleCoil
  | writeSingleRegister
  | writeMultipleCoils
  | writeMultipleRegisters
  deriving DecidableEq, Repr

/-- Which way a PDU travels. The table's `.req` and `.rsp` rows of one function share their first byte, and the
direction tells them apart (R106, log entry 5). -/
inductive Direction where
  | request
  | response
  deriving DecidableEq, Repr

/-- One constructor per row of the opcode table. `bc` is the byte-count field and `data` the bytes after it: both are
kept, because the meanings compare them (R236, R301). -/
inductive Instr where
  /-- fc 0x01, layout R111. -/
  | readCoilsReq (addr qty : U16)
  /-- fc 0x02, layout R111. -/
  | readDiscreteInputsReq (addr qty : U16)
  /-- fc 0x03, layout R111. -/
  | readHoldingRegistersReq (addr qty : U16)
  /-- fc 0x04, layout R111. -/
  | readInputRegistersReq (addr qty : U16)
  /-- fc 0x05, layout R112. -/
  | writeSingleCoilReq (addr value : U16)
  /-- fc 0x06, layout R113. -/
  | writeSingleRegisterReq (addr value : U16)
  /-- fc 0x0F, layout R114. -/
  | writeMultipleCoilsReq (addr qty : U16) (bc : Byte) (data : Bytes)
  /-- fc 0x10, layout R115. -/
  | writeMultipleRegistersReq (addr qty : U16) (bc : Byte) (data : Bytes)
  /-- fc 0x01, layout R116. -/
  | readCoilsRsp (bc : Byte) (data : Bytes)
  /-- fc 0x02, layout R116. -/
  | readDiscreteInputsRsp (bc : Byte) (data : Bytes)
  /-- fc 0x03, layout R117. -/
  | readHoldingRegistersRsp (bc : Byte) (data : Bytes)
  /-- fc 0x04, layout R117. -/
  | readInputRegistersRsp (bc : Byte) (data : Bytes)
  /-- fc 0x05, layout R118. -/
  | writeSingleCoilRsp (addr value : U16)
  /-- fc 0x06, layout R118. -/
  | writeSingleRegisterRsp (addr value : U16)
  /-- fc 0x0F, layout R119. -/
  | writeMultipleCoilsRsp (addr qty : U16)
  /-- fc 0x10, layout R119. -/
  | writeMultipleRegistersRsp (addr qty : U16)
  /-- bit 7 of the first byte set, layout R108; `function` is bits 6:0 (R106). -/
  | exceptionRsp (function : BitVec 7) (code : Byte)
  deriving DecidableEq, Repr

/-- The direction an instruction's row belongs to. -/
def Instr.direction : Instr → Direction
  | .readCoilsReq _ _ => .request
  | .readDiscreteInputsReq _ _ => .request
  | .readHoldingRegistersReq _ _ => .request
  | .readInputRegistersReq _ _ => .request
  | .writeSingleCoilReq _ _ => .request
  | .writeSingleRegisterReq _ _ => .request
  | .writeMultipleCoilsReq _ _ _ _ => .request
  | .writeMultipleRegistersReq _ _ _ _ => .request
  | .readCoilsRsp _ _ => .response
  | .readDiscreteInputsRsp _ _ => .response
  | .readHoldingRegistersRsp _ _ => .response
  | .readInputRegistersRsp _ _ => .response
  | .writeSingleCoilRsp _ _ => .response
  | .writeSingleRegisterRsp _ _ => .response
  | .writeMultipleCoilsRsp _ _ => .response
  | .writeMultipleRegistersRsp _ _ => .response
  | .exceptionRsp _ _ => .response

/-- The four address spaces (R68). -/
inductive Space where
  | coils
  | di
  | hr
  | ir
  deriving DecidableEq, Repr

/-- The spaces whose entries are Bools (R34, R35). -/
inductive BitSpace where
  | coils
  | di
  deriving DecidableEq, Repr

/-- The spaces whose entries are u16s (R36, R37). -/
inductive RegSpace where
  | hr
  | ir
  deriving DecidableEq, Repr

def BitSpace.space : BitSpace → Space
  | .coils => .coils
  | .di => .di

def RegSpace.space : RegSpace → Space
  | .hr => .hr
  | .ir => .ir

/-- A decoded MBAP header (R101). -/
structure Header where
  tid : U16
  pid : U16
  len : U16
  uid : Byte
  deriving DecidableEq, Repr

/-- The causes of a FrameDecodeError (R323). -/
inductive DecodeCause where
  | short
  | pduSize
  | headerSize
  | truncated
  | emptyPdu
  | fcMismatch
  | exceptionSize
  | byteCount
  deriving DecidableEq, Repr

/-- The causes of a MalformedHeader (R321). -/
inductive HeaderCause where
  | badProtocolId
  | badLength
  deriving DecidableEq, Repr

/-- The causes of a ValidationError (R260). -/
inductive ValidationCause where
  | address
  | count
  | span
  deriving DecidableEq, Repr

/-- The causes of a NetworkReceiveError (R320). -/
inductive NetworkCause where
  | tidMismatch
  | uidMismatch
  | echoMismatch
  deriving DecidableEq, Repr

/-- The error kinds of R320, each with its info. They are outcomes of one operation and stop nothing (R340). -/
inductive CodecError where
  | frameEncode (value : Int) (width : Nat)
  | frameDecode (cause : DecodeCause)
  | malformedHeader (cause : HeaderCause)
  | addressError (space : Space) (addr count : Int)
  | validation (cause : ValidationCause)
  | modbusException (code : Byte)
  | networkReceive (cause : NetworkCause)
  deriving DecidableEq, Repr

/-- What a response parser is told of the request that was sent (R291): its function code, address, quantity, and the
wire value of a single write (R303). -/
structure SentRequest where
  fc        : FunctionCode
  addr      : U16
  qty       : U16
  wireValue : U16
  deriving DecidableEq, Repr

/-- The value argument of BuildWriteSingleCoil: "either a Bool or an integer" (R265). -/
inductive CoilArg where
  | bool (b : Bool)
  | int (v : Int)
  deriving DecidableEq, Repr

/-- The calls of the eight request builders (R262 to R268); integers are unbounded (D2). -/
inductive BuildCall where
  | readCoils (addr qty : Int)
  | readDiscreteInputs (addr qty : Int)
  | readHoldingRegisters (addr qty : Int)
  | readInputRegisters (addr qty : Int)
  | writeSingleCoil (addr : Int) (value : CoilArg)
  | writeSingleRegister (addr value : Int)
  | writeMultipleCoils (addr : Int) (bits : List Bool)
  | writeMultipleRegisters (addr : Int) (values : List Int)
  deriving DecidableEq, Repr

/-- The direct calls of the frame codec (R150 to R160). -/
inductive CodecCall where
  | encodeMBAP (tid pid len uid : Int)
  | decodeMBAP (b : Bytes)
  | encodeFrame (tid uid : Int) (pdu : Bytes)
  | decodeFrame (s : Bytes)
  | buildException (fc exc : Int)
  deriving DecidableEq, Repr

end Sys2Proof
end

