-- ==== Sys2Proof/WellFormed.lean ====
section
/-!
DEFINITION. An instruction is well formed when its PDU fits a frame that a decoder accepts: at most 255 bytes
(spec 30_encoding.md R103). Only the rows with a data part can break that; their other fields fill their widths.
-/

namespace Sys2Proof

/-- The data bytes that fit after the 6 fixed bytes of a 0x0F or 0x10 request (R103, R114, R115). -/
abbrev multiDataFits (data : Bytes) : Prop := data.length ≤ 249

/-- The data bytes that fit after the 2 fixed bytes of a read response (R103, R116, R117). -/
abbrev readDataFits (data : Bytes) : Prop := data.length ≤ 253

/-- The check, one line per row. -/
def Instr.wellFormed : Instr → Bool
  | .readCoilsReq _ _ => true
  | .readDiscreteInputsReq _ _ => true
  | .readHoldingRegistersReq _ _ => true
  | .readInputRegistersReq _ _ => true
  | .writeSingleCoilReq _ _ => true
  | .writeSingleRegisterReq _ _ => true
  | .writeMultipleCoilsReq _ _ _ data => decide (multiDataFits data)
  | .writeMultipleRegistersReq _ _ _ data => decide (multiDataFits data)
  | .readCoilsRsp _ data => decide (readDataFits data)
  | .readDiscreteInputsRsp _ data => decide (readDataFits data)
  | .readHoldingRegistersRsp _ data => decide (readDataFits data)
  | .readInputRegistersRsp _ data => decide (readDataFits data)
  | .writeSingleCoilRsp _ _ => true
  | .writeSingleRegisterRsp _ _ => true
  | .writeMultipleCoilsRsp _ _ => true
  | .writeMultipleRegistersRsp _ _ => true
  | .exceptionRsp _ _ => true

/-- An instruction whose PDU fits a frame. -/
abbrev Instr.WellFormed (i : Instr) : Prop := i.wellFormed = true

end Sys2Proof
end

