-- ==== Sys2Proof/Decode.lean ====
section
/-!
DEFINITION. From bytes to instructions and back (spec 30_encoding.md). A decoder is total on any bytes: what is no row
of the table for its direction is rejected by name. The encoder is written from the same layouts.
-/

namespace Sys2Proof

open Sys2Proof.Machine

/-- The high byte of a u16, first on the wire (R60, R62). -/
def hiByte (v : U16) : Byte := v.extractLsb' 8 8

/-- The low byte of a u16. -/
def loByte (v : U16) : Byte := v.extractLsb' 0 8

/-- A u16 as it goes on the wire, most significant byte first (R60, R62). -/
def be16 (v : U16) : Bytes := [hiByte v, loByte v]

/-- The u16 whose two wire bytes are `hi` and `lo`: `hi*256 + lo`, unsigned (R13, R142). -/
def word16 (hi lo : Byte) : U16 := hi ++ lo

/-- The function-code byte (R107). -/
def FunctionCode.code : FunctionCode → Byte
  | .readCoils => 0x01
  | .readDiscreteInputs => 0x02
  | .readHoldingRegisters => 0x03
  | .readInputRegisters => 0x04
  | .writeSingleCoil => 0x05
  | .writeSingleRegister => 0x06
  | .writeMultipleCoils => 0x0F
  | .writeMultipleRegisters => 0x10

/-- The function a byte names, if it is one of the eight codes (R107, R109). -/
def functionOfByte (b : Byte) : Option FunctionCode :=
  if b = 0x01 then some .readCoils
  else if b = 0x02 then some .readDiscreteInputs
  else if b = 0x03 then some .readHoldingRegisters
  else if b = 0x04 then some .readInputRegisters
  else if b = 0x05 then some .writeSingleCoil
  else if b = 0x06 then some .writeSingleRegister
  else if b = 0x0F then some .writeMultipleCoils
  else if b = 0x10 then some .writeMultipleRegisters
  else none

/-- Why a PDU is no instruction: a function code outside the table (R172), or a frame error (R178, R296). -/
inductive DecodeReject where
  | unknownFunction (fc : Byte)
  | frame (cause : DecodeCause)
  deriving DecidableEq, Repr

/-- A payload of exactly two u16 fields (`Parse(pdu, 1, [u16, u16])`, R143): any other size is a PduSize error. -/
def decodePair (k : U16 → U16 → Instr) : Bytes → Except DecodeReject Instr
  | [a1, a0, b1, b0] => .ok (k (word16 a1 a0) (word16 b1 b0))
  | _ => .error (.frame .pduSize)

/-- The payload of a 0x0F or 0x10 request (R114, R115): the fixed part must be there (R230, R240). -/
def decodeMulti (k : U16 → U16 → Byte → Bytes → Instr) : Bytes → Except DecodeReject Instr
  | a1 :: a0 :: q1 :: q0 :: bc :: data => .ok (k (word16 a1 a0) (word16 q1 q0) bc data)
  | _ => .error (.frame .pduSize)

/-- The payload of a read response (R116, R117): the byte count must be there (R301, R302). -/
def decodeCounted (k : Byte → Bytes → Instr) : Bytes → Except DecodeReject Instr
  | bc :: data => .ok (k bc data)
  | [] => .error (.frame .pduSize)

/-- The payload of a request of a known function (R111 to R115). -/
def decodeRequestPayload (fc : FunctionCode) (payload : Bytes) : Except DecodeReject Instr :=
  match fc with
  | .readCoils => decodePair .readCoilsReq payload
  | .readDiscreteInputs => decodePair .readDiscreteInputsReq payload
  | .readHoldingRegisters => decodePair .readHoldingRegistersReq payload
  | .readInputRegisters => decodePair .readInputRegistersReq payload
  | .writeSingleCoil => decodePair .writeSingleCoilReq payload
  | .writeSingleRegister => decodePair .writeSingleRegisterReq payload
  | .writeMultipleCoils => decodeMulti .writeMultipleCoilsReq payload
  | .writeMultipleRegisters => decodeMulti .writeMultipleRegistersReq payload

/-- A request PDU (R170): empty, then unknown code whatever the payload (R172), then the size (R174). -/
def decodeRequest : Bytes → Except DecodeReject Instr
  | [] => .error (.frame .emptyPdu)
  | b :: payload =>
    match functionOfByte b with
    | none => .error (.unknownFunction b)
    | some fc => decodeRequestPayload fc payload

/-- The payload of a normal response of a known function (R116 to R119). -/
def decodeResponsePayload (fc : FunctionCode) (payload : Bytes) : Except DecodeReject Instr :=
  match fc with
  | .readCoils => decodeCounted .readCoilsRsp payload
  | .readDiscreteInputs => decodeCounted .readDiscreteInputsRsp payload
  | .readHoldingRegisters => decodeCounted .readHoldingRegistersRsp payload
  | .readInputRegisters => decodeCounted .readInputRegistersRsp payload
  | .writeSingleCoil => decodePair .writeSingleCoilRsp payload
  | .writeSingleRegister => decodePair .writeSingleRegisterRsp payload
  | .writeMultipleCoils => decodePair .writeMultipleCoilsRsp payload
  | .writeMultipleRegisters => decodePair .writeMultipleRegistersRsp payload

/-- The payload of an exception response: exactly the code (R108, R296). -/
def decodeException (b : Byte) : Bytes → Except DecodeReject Instr
  | [code] => .ok (.exceptionRsp (b.extractLsb' 0 7) code)
  | _ => .error (.frame .exceptionSize)

/-- A response PDU (R291, R296): empty, then the exception bit, then the function and its size. -/
def decodeResponse : Bytes → Except DecodeReject Instr
  | [] => .error (.frame .emptyPdu)
  | b :: payload =>
    if hasExceptionBit b then decodeException b payload
    else
      match functionOfByte b with
      | none => .error (.unknownFunction b)
      | some fc => decodeResponsePayload fc payload

/-- The decoder of each direction (log entry 5). -/
def decode : Direction → Bytes → Except DecodeReject Instr
  | .request => decodeRequest
  | .response => decodeResponse

/-- The first byte of an exception response: bit 7, then the function in bits 6:0 (R106, R108). -/
def exceptionByte (function : BitVec 7) : Byte := 1#1 ++ function

/-- The PDU of an instruction, from the layouts R108 and R111 to R119. -/
def encode : Instr → Bytes
  | .readCoilsReq addr qty => 0x01 :: (be16 addr ++ be16 qty)
  | .readDiscreteInputsReq addr qty => 0x02 :: (be16 addr ++ be16 qty)
  | .readHoldingRegistersReq addr qty => 0x03 :: (be16 addr ++ be16 qty)
  | .readInputRegistersReq addr qty => 0x04 :: (be16 addr ++ be16 qty)
  | .writeSingleCoilReq addr value => 0x05 :: (be16 addr ++ be16 value)
  | .writeSingleRegisterReq addr value => 0x06 :: (be16 addr ++ be16 value)
  | .writeMultipleCoilsReq addr qty bc data => 0x0F :: (be16 addr ++ be16 qty ++ bc :: data)
  | .writeMultipleRegistersReq addr qty bc data => 0x10 :: (be16 addr ++ be16 qty ++ bc :: data)
  | .readCoilsRsp bc data => 0x01 :: bc :: data
  | .readDiscreteInputsRsp bc data => 0x02 :: bc :: data
  | .readHoldingRegistersRsp bc data => 0x03 :: bc :: data
  | .readInputRegistersRsp bc data => 0x04 :: bc :: data
  | .writeSingleCoilRsp addr value => 0x05 :: (be16 addr ++ be16 value)
  | .writeSingleRegisterRsp addr value => 0x06 :: (be16 addr ++ be16 value)
  | .writeMultipleCoilsRsp addr qty => 0x0F :: (be16 addr ++ be16 qty)
  | .writeMultipleRegistersRsp addr qty => 0x10 :: (be16 addr ++ be16 qty)
  | .exceptionRsp function code => [exceptionByte function, code]

/-- The bytes that a table word gives, first byte in the lowest bits. -/
def tableWordBytes (nbits w : Nat) : Bytes :=
  (List.range ((nbits + 7) / 8)).map fun i => BitVec.ofNat 8 (w / 256 ^ i)

/-- Zero bytes added up to `n` bytes. -/
def padTo (n : Nat) (b : Bytes) : Bytes := b ++ List.replicate (n - b.length) 0

/-- The whole PDU of a table word: the bits above `nbits` are zero, up to the size its row gives it (R108, R111 to
R115; the data part of 0x0F and 0x10 is as long as the byte count says). -/
def tableWordPdu (nbits w : Nat) : Bytes :=
  match tableWordBytes nbits w with
  | [] => []
  | b :: payload =>
    if hasExceptionBit b then padTo 2 (b :: payload)
    else if b = 0x0F ∨ b = 0x10 then
      let fixed := padTo 6 (b :: payload)
      padTo (6 + (fixed.getD 5 0).toNat) fixed
    else padTo 5 (b :: payload)

/-- What the decoder reads from a word of the opcode table. The table's `.req` and `.rsp` rows of one function are the
same word: it is read as a request; a word with bit 7 set is an exception response (log entry 5). -/
def decodeTableWord (nbits w : Nat) : Option Instr :=
  let pdu := tableWordPdu nbits w
  let dir := if hasExceptionBit (pdu.headD 0) then Direction.response else Direction.request
  (decode dir pdu).toOption

end Sys2Proof
end

