-- ==== Sys2Proof/Machine/Limits.lean ====
section
/-!
DEFINITION. The numbers the spec fixes (00_scope.md R9) and the exception codes the handler produces (60_exceptions.md
R326).
-/

namespace Sys2Proof.Machine

/-- MBAP_SIZE. -/
abbrev mbapSize : Nat := 7
/-- LEN_MIN, the smallest length field a decoder accepts (R103). -/
abbrev lenMin : Nat := 3
/-- LEN_MAX, the largest length field a decoder accepts (R103, C1). -/
abbrev lenMax : Nat := 256
/-- MAX_READ_BITS. -/
abbrev maxReadBits : Nat := 2000
/-- MAX_READ_REGS. -/
abbrev maxReadRegs : Nat := 125
/-- MAX_WRITE_BITS. -/
abbrev maxWriteBits : Nat := 1968
/-- MAX_WRITE_REGS. -/
abbrev maxWriteRegs : Nat := 123
/-- COIL_ON. -/
abbrev coilOn : U16 := 0xFF00
/-- COIL_OFF. -/
abbrev coilOff : U16 := 0x0000
/-- ADDR_MAX_CLIENT. -/
abbrev addrMaxClient : Int := 65535
/-- SPAN_MAX_CLIENT. -/
abbrev spanMaxClient : Int := 65536

/-- IllegalFunction (R326). -/
abbrev illegalFunction : Byte := 0x01
/-- IllegalDataAddress (R326). -/
abbrev illegalDataAddress : Byte := 0x02
/-- IllegalDataValue (R326). -/
abbrev illegalDataValue : Byte := 0x03

end Sys2Proof.Machine
end

