-- ==== Sys2Proof/Machine/Operands.lean ====
section
/-!
DEFINITION. The operand forms: the packing and unpacking primitives over unbounded integers and byte strings (spec
40_frame_codec.md R140 to R143), bit packing and register packing (20_memory.md R64 to R66), and the values a coil write
carries (43_write_functions.md R221).
-/

namespace Sys2Proof.Machine

open Sys2Proof

/-- `P8(v)` (R140). -/
def p8 (v : Int) : Except CodecError Bytes :=
  if v < 0 ∨ 255 < v then .error (.frameEncode v 8) else .ok [BitVec.ofNat 8 v.toNat]

/-- `P16(v)` (R141). -/
def p16 (v : Int) : Except CodecError Bytes :=
  if v < 0 ∨ 65535 < v then .error (.frameEncode v 16) else .ok (be16 (BitVec.ofNat 16 v.toNat))

/-- `P16` of each value in turn; the first out of width names the error (R268). -/
def p16All : List Int → Except CodecError Bytes
  | [] => .ok []
  | v :: vs =>
    match p16 v with
    | .error e => .error e
    | .ok b =>
      match p16All vs with
      | .error e => .error e
      | .ok bs => .ok (b ++ bs)

/-- `U8(b, i)` (R142). -/
def u8At (b : Bytes) (i : Nat) : Except CodecError Byte :=
  match b[i]? with
  | some x => .ok x
  | none => .error (.frameDecode .short)

/-- `U16(b, i)` (R142). -/
def u16At (b : Bytes) (i : Nat) : Except CodecError U16 :=
  match b[i]?, b[i + 1]? with
  | some x, some y => .ok (word16 x y)
  | _, _ => .error (.frameDecode .short)

/-- A field width of a declared format (R143). -/
inductive FieldWidth where
  | u8
  | u16
  deriving DecidableEq, Repr

/-- The bytes of one field. -/
def fieldSize : FieldWidth → Nat
  | .u8 => 1
  | .u16 => 2

/-- `size(fmt)` (R143). -/
def formatSize : List FieldWidth → Nat
  | [] => 0
  | f :: fs => fieldSize f + formatSize fs

/-- The fields of a format in order, from offset `lo` on, each as a number. -/
def unpackFields (b : Bytes) (lo : Nat) : List FieldWidth → Except CodecError (List Nat)
  | [] => .ok []
  | .u8 :: fs =>
    match u8At b lo, unpackFields b (lo + 1) fs with
    | .ok v, .ok vs => .ok (v.toNat :: vs)
    | .error e, _ => .error e
    | _, .error e => .error e
  | .u16 :: fs =>
    match u16At b lo, unpackFields b (lo + 2) fs with
    | .ok v, .ok vs => .ok (v.toNat :: vs)
    | .error e, _ => .error e
    | _, .error e => .error e

/-- `Parse(b, lo, fmt)` (R143): the bytes from `lo` to the end are exactly the format's size. -/
def parseFormat (b : Bytes) (lo : Nat) (fmt : List FieldWidth) : Except CodecError (List Nat) :=
  if (b.length : Int) - lo ≠ formatSize fmt then .error (.frameDecode .pduSize) else unpackFields b lo fmt

/-- `ceil(n / 8)`. -/
def packedSize (n : Nat) : Nat := (n + 7) / 8

/-- The byte whose bit k is `f k` (R65). -/
def byteOfBits (f : Nat → Bool) : Byte := BitVec.ofBoolListLE [f 0, f 1, f 2, f 3, f 4, f 5, f 6, f 7]

/-- `PackBits(vals)` (R65): bit k of byte j is entry 8j + k, and 0 past the end. -/
def packBits (vals : List Bool) : Bytes :=
  (List.range (packedSize vals.length)).map fun j => byteOfBits fun k => vals.getD (8 * j + k) false

/-- `UnpackBits(b, n)` (R66), for `|b| = ceil(n/8)`, which every caller checks first. -/
def unpackBits (b : Bytes) (n : Nat) : List Bool :=
  (List.range n).map fun i => (b.getD (i / 8) 0).getLsbD (i % 8)

/-- Register values on the wire, in order, each big-endian (R64). -/
def packRegs : List U16 → Bytes
  | [] => []
  | v :: vs => be16 v ++ packRegs vs

/-- `UnpackRegs(b, n)` (R64), for `|b| = 2n`, which every caller checks first. -/
def unpackRegs (b : Bytes) (n : Nat) : List U16 :=
  (List.range n).map fun i => word16 (b.getD (2 * i) 0) (b.getD (2 * i + 1) 0)

/-- `CoilValue(value)` (R221): `none` is the exception under REJECT_03. -/
def coilValue (other : WscOther) (value : U16) : Option Bool :=
  if value = coilOn then some true
  else if value = coilOff then some false
  else
    match other with
    | .reject03 => none
    | .asTrue => some true
    | .asFalse => some false

/-- The wire value of BuildWriteSingleCoil's argument (R265, R122): an integer is passed through unchanged. -/
def coilWireValue : CoilArg → Int
  | .bool true => 0xFF00
  | .bool false => 0x0000
  | .int v => v

end Sys2Proof.Machine
end

