-- ==== Sys2Proof/Machine/Codec.lean ====
section
/-!
DEFINITION. The frame codec (spec 40_frame_codec.md): MBAP headers, frames and the exception builder, as pure functions
of their arguments (10_state.md R42).
-/

namespace Sys2Proof.Machine

open Sys2Proof

/-- The checks of decodeMBAP on a header's fields: the protocol ID first (D33), then the length (R150). -/
def checkHeader (h : Header) : Except CodecError Header :=
  if h.pid ≠ 0 then .error (.malformedHeader .badProtocolId)
  else if h.len.toNat < lenMin ∨ lenMax < h.len.toNat then .error (.malformedHeader .badLength)
  else .ok h

/-- `decodeMBAP(b)` (R150), layout R101. -/
def decodeMBAP : Bytes → Except CodecError Header
  | [t1, t0, p1, p0, l1, l0, u] => checkHeader ⟨word16 t1 t0, word16 p1 p0, word16 l1 l0, u⟩
  | _ => .error (.frameDecode .headerSize)

/-- `encodeMBAP(tid, pid, len, uid)` (R151): widths only (R152), the first field out of width names the error. -/
def encodeMBAP (tid pid len uid : Int) : Except CodecError Bytes := do
  let t ← p16 tid
  let p ← p16 pid
  let l ← p16 len
  let u ← p8 uid
  return t ++ p ++ l ++ u

/-- `encodeFrame(tid, uid, pdu)` (R154): the length field is |PDU| + 1 (R102). -/
def encodeFrame (tid uid : Int) (pdu : Bytes) : Except CodecError Bytes := do
  let header ← encodeMBAP tid 0 (pdu.length + 1) uid
  return header ++ pdu

/-- `decodeFrame(s)` (R155): header, PDU and rest. -/
def decodeFrame (s : Bytes) : Except CodecError (Header × Bytes × Bytes) :=
  if s.length < mbapSize then .error (.frameDecode .truncated)
  else
    match decodeMBAP (s.take mbapSize) with
    | .error e => .error e
    | .ok h =>
      let body := s.drop mbapSize
      let n := h.len.toNat - 1
      if body.length < n then .error (.frameDecode .truncated) else .ok (h, body.take n, body.drop n)

/-- The byte 0x80 OR-ed into a function code given as an integer of [0, 255]. -/
def withExceptionBit (fc : Int) : Int := ((fc.toNat ||| 0x80 : Nat) : Int)

/-- `buildException(fc, exc)` (R160, D24). -/
def buildException (fc exc : Int) : Except CodecError Bytes :=
  if fc < 0 ∨ 255 < fc then .error (.frameEncode fc 8)
  else do
    let f ← p8 (withExceptionBit fc)
    let e ← p8 exc
    return f ++ e

end Sys2Proof.Machine
end

