-- ==== Sys2Proof/Machine/Builders.lean ====
section
/-!
DEFINITION. The request serializers (spec 44_request_builders.md): validate, then pack. No builder reads or writes a
register file.
-/

namespace Sys2Proof.Machine

open Sys2Proof

/-- `CheckRange(addr, n, nmax)` (R260): address, then count, then span (R332). -/
def checkRange (addr n nmax : Int) : Except CodecError Unit :=
  if addr < 0 ∨ addrMaxClient < addr then .error (.validation .address)
  else if n < 1 ∨ nmax < n then .error (.validation .count)
  else if spanMaxClient < addr + n then .error (.validation .span)
  else .ok ()

/-- fc and two u16 fields, packed in wire order. -/
def packPair (fc : FunctionCode) (first second : Int) : Except CodecError Bytes := do
  let f ← p8 fc.code.toNat
  let a ← p16 first
  let b ← p16 second
  return f ++ a ++ b

/-- BuildReadCoils (R262). -/
def buildReadCoils (addr qty : Int) : Except CodecError Bytes := do
  checkRange addr qty maxReadBits
  packPair .readCoils addr qty

/-- BuildReadDiscreteInputs (R263). -/
def buildReadDiscreteInputs (addr qty : Int) : Except CodecError Bytes := do
  checkRange addr qty maxReadBits
  packPair .readDiscreteInputs addr qty

/-- BuildReadHoldingRegisters (R264). -/
def buildReadHoldingRegisters (addr qty : Int) : Except CodecError Bytes := do
  checkRange addr qty maxReadRegs
  packPair .readHoldingRegisters addr qty

/-- BuildReadInputRegisters (R264). -/
def buildReadInputRegisters (addr qty : Int) : Except CodecError Bytes := do
  checkRange addr qty maxReadRegs
  packPair .readInputRegisters addr qty

/-- BuildWriteSingleCoil (R265). -/
def buildWriteSingleCoil (addr : Int) (value : CoilArg) : Except CodecError Bytes := do
  checkRange addr 1 1
  packPair .writeSingleCoil addr (coilWireValue value)

/-- BuildWriteSingleRegister (R266). -/
def buildWriteSingleRegister (addr value : Int) : Except CodecError Bytes := do
  checkRange addr 1 1
  packPair .writeSingleRegister addr value

/-- BuildWriteMultipleCoils (R267). -/
def buildWriteMultipleCoils (addr : Int) (bits : List Bool) : Except CodecError Bytes := do
  checkRange addr bits.length maxWriteBits
  let head ← packPair .writeMultipleCoils addr bits.length
  let bc ← p8 (packedSize bits.length)
  return head ++ bc ++ packBits bits

/-- BuildWriteMultipleRegisters (R268). -/
def buildWriteMultipleRegisters (addr : Int) (values : List Int) : Except CodecError Bytes := do
  checkRange addr values.length maxWriteRegs
  let head ← packPair .writeMultipleRegisters addr values.length
  let bc ← p8 (2 * values.length)
  let data ← p16All values
  return head ++ bc ++ data

/-- The builder of each call. -/
def buildRequest : BuildCall → Except CodecError Bytes
  | .readCoils addr qty => buildReadCoils addr qty
  | .readDiscreteInputs addr qty => buildReadDiscreteInputs addr qty
  | .readHoldingRegisters addr qty => buildReadHoldingRegisters addr qty
  | .readInputRegisters addr qty => buildReadInputRegisters addr qty
  | .writeSingleCoil addr value => buildWriteSingleCoil addr value
  | .writeSingleRegister addr value => buildWriteSingleRegister addr value
  | .writeMultipleCoils addr bits => buildWriteMultipleCoils addr bits
  | .writeMultipleRegisters addr values => buildWriteMultipleRegisters addr values

/-- What the caller of a builder later tells the response parser of the request it sent (R291, R303). The wire value of
a request other than a single write, and the quantity of a single write, are compared with nothing. -/
def sentRequest : BuildCall → SentRequest
  | .readCoils addr qty => ⟨.readCoils, BitVec.ofInt 16 addr, BitVec.ofInt 16 qty, 0⟩
  | .readDiscreteInputs addr qty => ⟨.readDiscreteInputs, BitVec.ofInt 16 addr, BitVec.ofInt 16 qty, 0⟩
  | .readHoldingRegisters addr qty => ⟨.readHoldingRegisters, BitVec.ofInt 16 addr, BitVec.ofInt 16 qty, 0⟩
  | .readInputRegisters addr qty => ⟨.readInputRegisters, BitVec.ofInt 16 addr, BitVec.ofInt 16 qty, 0⟩
  | .writeSingleCoil addr value => ⟨.writeSingleCoil, BitVec.ofInt 16 addr, 1, BitVec.ofInt 16 (coilWireValue value)⟩
  | .writeSingleRegister addr value => ⟨.writeSingleRegister, BitVec.ofInt 16 addr, 1, BitVec.ofInt 16 value⟩
  | .writeMultipleCoils addr bits => ⟨.writeMultipleCoils, BitVec.ofInt 16 addr, BitVec.ofNat 16 bits.length, 0⟩
  | .writeMultipleRegisters addr values =>
    ⟨.writeMultipleRegisters, BitVec.ofInt 16 addr, BitVec.ofNat 16 values.length, 0⟩

/-- BuildRequestFrame (R269). -/
def buildRequestFrame (tid uid : Int) (pdu : Bytes) : Except CodecError Bytes := encodeFrame tid uid pdu

end Sys2Proof.Machine
end

