-- ==== Sys2Proof/Machine/State.lean ====
section
/-!
DEFINITION. The state of MBCODEC (spec 10_state.md), the actions its agents take (60_exceptions.md R350, R352), what an
operation hands back, and the reasons for which a step has no meaning.
-/

namespace Sys2Proof.Machine

open Sys2Proof

/-- What one agent or the host does in one atomic step (R7, R8, R352). -/
inductive Action where
  /-- A connection is accepted: its request agent starts (R362). -/
  | accept (c : Nat)
  /-- A connection closes: its request agent ends and leaves no state (R362). -/
  | close (c : Nat)
  /-- Bytes arrive on a connection, in any chunking (R352). -/
  | deliver (c : Nat) (bytes : Bytes)
  /-- The request agent of a connection runs one ServerStep on the bytes received so far (R175). -/
  | serve (c : Nat)
  /-- The same ServerStep with its response held until `handBack`, so that change callbacks and other agents write between
  its MemWrite and its response (R366, log entry 10). -/
  | serveHeld (c : Nat)
  /-- A direct call of HandleRequest (R170). -/
  | handleRequest (pdu : Bytes)
  /-- The same direct call with its response held until `handBack` (R366, log entry 10). -/
  | handleRequestHeld (pdu : Bytes)
  /-- The held response at this place of the list is handed back: the callbacks of its write have returned (R366). -/
  | handBack (k : Nat)
  /-- The device side reads COILS or DI (R38, R70). -/
  | readBits (sp : BitSpace) (addr count : Int)
  /-- The device side reads HR or IR. -/
  | readRegs (sp : RegSpace) (addr count : Int)
  /-- The device side writes COILS or DI (R38, R80). -/
  | writeBits (sp : BitSpace) (addr : Int) (vals : List Bool)
  /-- The device side writes HR or IR. -/
  | writeRegs (sp : RegSpace) (addr : Int) (vals : List U16)
  /-- A client-side call of a request builder (R262 to R268). -/
  | build (call : BuildCall)
  /-- BuildRequestFrame (R269). -/
  | buildFrame (tid uid : Int) (pdu : Bytes)
  /-- ReceiveResponse (R290). -/
  | receive (bytes : Bytes) (sentTid : U16) (cfgUid : Byte)
  /-- ParseResponse (R291) with the request that was sent. -/
  | parse (req : SentRequest) (pdu : Bytes)
  /-- A direct call of the frame codec (R150 to R160). -/
  | codec (call : CodecCall)
  deriving DecidableEq, Repr

/-- A response that is computed and not handed back yet, while the change callbacks of its write run (R246, R366). -/
inductive Held where
  /-- The response frame of a ServerStep on a connection. -/
  | response (c : Nat) (frame : Bytes)
  /-- The response PDU of a direct HandleRequest. -/
  | pdu (p : Bytes)
  deriving DecidableEq, Repr

/-- What the operation just taken handed back to its caller (R15, R352). -/
inductive Output where
  /-- Nothing. -/
  | none
  /-- `respond(frame)` of a ServerStep on a connection (R175). -/
  | response (c : Nat) (frame : Bytes)
  /-- `fatal(E)` of a ServerStep on a connection, which is closed with it (R176). -/
  | fatal (c : Nat) (e : CodecError)
  /-- `fatal(E)` of HandleRequest, before it is known to which connection it belongs (R170, R178). -/
  | fatalCall (e : CodecError)
  /-- A PDU: the response of HandleRequest (R170), or a builder's request (R262 to R268). -/
  | pdu (p : Bytes)
  /-- `raise E` (R15). -/
  | error (e : CodecError)
  /-- The Bools of MemRead or ParseReadBits. -/
  | bits (vals : List Bool)
  /-- The u16s of MemRead or ParseReadRegs. -/
  | regs (vals : List U16)
  /-- The two fields ParseWriteSingle or ParseWriteMultiple returns (R303, R304). -/
  | fields (first second : U16)
  /-- `ok` of MemWrite (R80). -/
  | ok
  /-- The bytes of an encoder. -/
  | bytes (b : Bytes)
  /-- The header of decodeMBAP (R150). -/
  | header (h : Header)
  /-- The header, PDU and rest of decodeFrame (R155). -/
  | frame (h : Header) (pdu rest : Bytes)
  /-- The PDU and rest of ReceiveResponse (R290). -/
  | received (pdu rest : Bytes)
  deriving DecidableEq, Repr

/-- Reasons to stop with a fault: there are none. Every error of MBCODEC is the outcome of one operation, after which
the block goes on (R340, R351), so no constructor exists and no step can raise one (log entry 13). -/
inductive Fault where
  deriving DecidableEq, Repr

/-- Reasons for which a step has no meaning (`refuse`, R15). -/
inductive Refusal where
  /-- Raised by a refused arm of `exec` only. Safe: the run stops. No arm raises it: every instruction has a meaning. -/
  | notModelled (mnemonic : String)
  /-- Raised by MemRead and MemWrite with a count below 1, from the device side only (R70, R80, D15). Safe: the spec
  itself refuses it. -/
  | emptyAccess
  /-- Raised by the meaning of a normal response when no sent request is held to parse it against (R291 takes the request as an
  argument). Safe: `parse` always supplies one. -/
  | noSentRequest
  /-- Raised by `accept` for the id of a connection that is already open. Safe: ids only tell connections apart. -/
  | connectionInUse
  /-- Raised by `accept` when N_AGENTS request agents exist (R10, R350). Safe: there is no further agent to serve it. -/
  | agentLimit
  deriving DecidableEq, Repr

/-- Everything MBCODEC holds between steps: the four register files (R34 to R37), the parameters fixed at construction
(R32), the open connections with the bytes not yet consumed (R350, R362), the responses held while change callbacks
run (R366), the actions still to be taken, the request a response is parsed against (R45; `none` between steps), and the
last operation's result. -/
structure State where
  params : Params
  coils  : Table Bool
  di     : Table Bool
  hr     : Table U16
  ir     : Table U16
  conns  : Table Bytes
  held   : List Held
  inbox  : List Action
  sent   : Option SentRequest
  out    : Output
  deriving DecidableEq, Repr

/-- The outcome of a step of this machine. -/
abbrev StepResult := Host.Outcome State Fault Refusal

/-- Right after construction with the defaults of R10 (R46, R360): no connection, no request in progress. The spec gives no
INIT: here every entry is false or 0 (log entry 1); `State.construct` takes any INIT. -/
def State.reset : State where
  params := Config.params
  coils  := []
  di     := []
  hr     := []
  ir     := []
  conns  := []
  held   := []
  inbox  := []
  sent   := none
  out    := .none

end Sys2Proof.Machine
end

