-- ==== Sys2Proof/Machine/Table.lean ====
section
/-!
DEFINITION. Reading and updating sparse data held as a list of (key, value) pairs in one canonical form, so that equal
contents are equal lists.
-/

namespace Sys2Proof

/-- The value listed for a key. -/
def Table.get? {α : Type} : Table α → Nat → Option α
  | [], _ => none
  | (b, w) :: t, a => if a = b then some w else Table.get? t a

/-- List a value for a key, in its place. -/
def Table.insert {α : Type} : Table α → Nat → α → Table α
  | [], a, v => [(a, v)]
  | (b, w) :: t, a, v =>
    if a < b then (a, v) :: (b, w) :: t
    else if a = b then (a, v) :: t
    else (b, w) :: Table.insert t a v

/-- List nothing for a key. -/
def Table.erase {α : Type} (t : Table α) (a : Nat) : Table α := t.filter fun p => p.1 != a

/-- Keys strictly rising. -/
abbrev Table.Sorted {α : Type} (t : Table α) : Prop := t.Pairwise fun p q => p.1 < q.1

/-- The canonical form of a register file: keys strictly rising and below the size, and no entry equal to what an unlisted
one reads as. -/
abbrev Table.Canonical {α : Type} (unlisted : α) (size : Nat) (t : Table α) : Prop :=
  Table.Sorted t ∧ ∀ p ∈ t, p.1 < size ∧ p.2 ≠ unlisted

end Sys2Proof
end

