-- ==== Sys2Proof/Machine/Ops.lean ====
section
/-!
DEFINITION. The named operations over the state: the address decoder, the read multiplexer and the store write port (spec
20_memory.md), construction (70_reset_and_hazards.md), answering an exception (41_dispatch.md R173), and the connections.
-/

namespace Sys2Proof.Machine

open Sys2Proof

/-! ### Register files -/

/-- `InBounds(s, a, n)` over unbounded integers (R69). -/
abbrev InBounds (size : Nat) (a n : Int) : Prop := 0 ≤ a ∧ 1 ≤ n ∧ a + n ≤ size

/-- The entry at an address. -/
def fileRead {α : Type} (unlisted : α) (t : Table α) (a : Nat) : α := (Table.get? t a).getD unlisted

/-- One entry written; the canonical form is kept. -/
def fileWrite {α : Type} [DecidableEq α] (unlisted : α) (t : Table α) (a : Nat) (v : α) : Table α :=
  if v = unlisted then Table.erase t a else Table.insert t a v

/-- `RF[a+k] <- vals[k]` for every k (R80). -/
def fileWriteAll {α : Type} [DecidableEq α] (unlisted : α) (t : Table α) (a : Nat) : List α → Table α
  | [] => t
  | v :: vs => fileWriteAll unlisted (fileWrite unlisted t a v) (a + 1) vs

/-- `RF[a], ..., RF[a+n-1]`. -/
def fileReadAll {α : Type} (unlisted : α) (t : Table α) (a n : Nat) : List α :=
  (List.range n).map fun k => fileRead unlisted t (a + k)

/-- How MemRead and MemWrite end: done, AddressError with the access, or refused (R70, R80, D15). -/
inductive Access (β : Type) where
  | done (b : β)
  | addressError (space : Space) (addr count : Int)
  | refuse
  deriving Repr

/-- `MemRead(s, a, n)` on one register file (R70). -/
def memRead {α : Type} (unlisted : α) (space : Space) (size : Nat) (t : Table α) (a n : Int) : Access (List α) :=
  if n < 1 then .refuse
  else if InBounds size a n then .done (fileReadAll unlisted t a.toNat n.toNat)
  else .addressError space a n

/-- `MemWrite(s, a, vals)` on one register file (R80). -/
def memWrite {α : Type} [DecidableEq α] (unlisted : α) (space : Space) (size : Nat) (t : Table α) (a : Int)
    (vals : List α) : Access (Table α) :=
  if (vals.length : Int) < 1 then .refuse
  else if InBounds size a vals.length then .done (fileWriteAll unlisted t a.toNat vals)
  else .addressError space a vals.length

/-- SIZE_s of a bit space. -/
def bitSize (p : Params) : BitSpace → Nat
  | .coils => p.sizeCoils
  | .di => p.sizeDi

/-- SIZE_s of a register space. -/
def regSize (p : Params) : RegSpace → Nat
  | .hr => p.sizeHr
  | .ir => p.sizeIr

/-- The register file of a bit space. -/
def State.bitFile (s : State) : BitSpace → Table Bool
  | .coils => s.coils
  | .di => s.di

/-- The register file of a register space. -/
def State.regFile (s : State) : RegSpace → Table U16
  | .hr => s.hr
  | .ir => s.ir

/-- Replace the register file of a bit space. -/
def State.setBitFile (s : State) (sp : BitSpace) (t : Table Bool) : State :=
  match sp with
  | .coils => { s with coils := t }
  | .di => { s with di := t }

/-- Replace the register file of a register space. -/
def State.setRegFile (s : State) (sp : RegSpace) (t : Table U16) : State :=
  match sp with
  | .hr => { s with hr := t }
  | .ir => { s with ir := t }

/-- `RF_s[a]` of a bit space (R14). -/
def State.bitAt (s : State) (sp : BitSpace) (a : Nat) : Bool := fileRead Config.unlistedBit (s.bitFile sp) a

/-- `RF_s[a]` of a register space (R14). -/
def State.regAt (s : State) (sp : RegSpace) (a : Nat) : U16 := fileRead Config.unlistedReg (s.regFile sp) a

/-- MemRead on COILS or DI. -/
def State.memReadBits (s : State) (sp : BitSpace) (a n : Int) : Access (List Bool) :=
  memRead Config.unlistedBit sp.space (bitSize s.params sp) (s.bitFile sp) a n

/-- MemRead on HR or IR. -/
def State.memReadRegs (s : State) (sp : RegSpace) (a n : Int) : Access (List U16) :=
  memRead Config.unlistedReg sp.space (regSize s.params sp) (s.regFile sp) a n

/-- MemWrite on COILS or DI: the new state, all or nothing (R73). -/
def State.memWriteBits (s : State) (sp : BitSpace) (a : Int) (vals : List Bool) : Access State :=
  match memWrite Config.unlistedBit sp.space (bitSize s.params sp) (s.bitFile sp) a vals with
  | .done t => .done (s.setBitFile sp t)
  | .addressError space addr count => .addressError space addr count
  | .refuse => .refuse

/-- MemWrite on HR or IR: the new state, all or nothing (R73). -/
def State.memWriteRegs (s : State) (sp : RegSpace) (a : Int) (vals : List U16) : Access State :=
  match memWrite Config.unlistedReg sp.space (regSize s.params sp) (s.regFile sp) a vals with
  | .done t => .done (s.setRegFile sp t)
  | .addressError space addr count => .addressError space addr count
  | .refuse => .refuse

/-! ### Results -/

/-- Hand a result to the caller. -/
def State.give (s : State) (o : Output) : State := { s with out := o }

/-- A value or an error, handed to the caller (R15). -/
def outputOf {β : Type} (f : β → Output) : Except CodecError β → Output
  | .ok b => f b
  | .error e => .error e

/-- The exception PDU of a function-code byte (R108); `buildException` of two bytes (R160). -/
def exceptionPdu (fc code : Byte) : Bytes := [setExceptionBit fc, code]

/-- Taking an exception, the one shared operation: the request is answered with an exception PDU, and nothing else
changes. No state is saved, no mode changes, control goes nowhere (R173, R340), and there is no return from it (R341). -/
def State.answerException (s : State) (fc code : Byte) : State := s.give (.pdu (exceptionPdu fc code))

/-- HandleRequest's fatal ending: an error, no response PDU, nothing written (R176, R178). -/
def State.fatalCall (s : State) (cause : DecodeCause) : State := s.give (.fatalCall (.frameDecode cause))

/-! ### Held responses -/

/-- The connection whose agent waits with a held response. -/
def Held.conn? : Held → Option Nat
  | .response c _ => some c
  | .pdu _ => none

/-- The result that a held response becomes when it is handed back. -/
def Held.output : Held → Output
  | .response c frame => .response c frame
  | .pdu p => .pdu p

/-- The response in a result, if it is one. -/
def heldOf : Output → Option Held
  | .response c f => some (.response c f)
  | .pdu p => some (.pdu p)
  | .none => none
  | .fatal _ _ => none
  | .fatalCall _ => none
  | .error _ => none
  | .bits _ => none
  | .regs _ => none
  | .fields _ _ => none
  | .ok => none
  | .bytes _ => none
  | .header _ => none
  | .frame _ _ _ => none
  | .received _ _ => none

/-- The connections whose agents wait with a held response, oldest first. -/
def State.awaiting (s : State) : List Nat := s.held.filterMap Held.conn?

/-- The response just computed is not handed back yet: it is held, and other agents may step (R366). -/
def State.hold (s : State) : State :=
  match heldOf s.out with
  | none => s
  | some h => { s with held := s.held ++ [h], out := .none }

/-- Hand back the held response at a place of the list, as it was computed. -/
def State.handBack (s : State) (k : Nat) : State :=
  match s.held[k]? with
  | none => s.give .none
  | some h => { s with held := s.held.eraseIdx k, out := h.output }

/-! ### Connections -/

/-- The connection ends: its agent leaves no state (R362), a response it still holds among it. -/
def State.dropConn (s : State) (c : Nat) : State :=
  { s with conns := Table.erase s.conns c, held := s.held.filter fun h => h.conn? != some c }

/-- The bytes received and not yet consumed on a connection. -/
def State.setReceived (s : State) (c : Nat) (bytes : Bytes) : State := { s with conns := Table.insert s.conns c bytes }

/-- A ServerStep's fatal ending: no response, the connection is closed, no register changes (R176, R341). -/
def State.fatalOn (s : State) (c : Nat) (e : CodecError) : State := (s.dropConn c).give (.fatal c e)

/-! ### Construction -/

/-- The listed entries of INIT over addresses `a` to `a + n - 1`. -/
def fileInit {α : Type} [DecidableEq α] (unlisted : α) (init : Nat → α) (a : Nat) : Nat → Table α
  | 0 => []
  | n + 1 => if init a = unlisted then fileInit unlisted init (a + 1) n else (a, init a) :: fileInit unlisted init (a + 1) n

/-- INIT_COILS, INIT_DI, INIT_HR and INIT_IR (R10). An argument of the construction, no part of the state. -/
structure Init where
  coils : Nat → Bool
  di    : Nat → Bool
  hr    : Nat → U16
  ir    : Nat → U16

/-- Construction, the one reset (R46, R360, R361): the host fixes the parameters and the initial contents. -/
def State.construct (p : Params) (init : Init) : State :=
  { State.reset with
    params := p
    coils := fileInit Config.unlistedBit init.coils 0 p.sizeCoils
    di := fileInit Config.unlistedBit init.di 0 p.sizeDi
    hr := fileInit Config.unlistedReg init.hr 0 p.sizeHr
    ir := fileInit Config.unlistedReg init.ir 0 p.sizeIr }

end Sys2Proof.Machine
end

