-- ==== Sys2Proof/Machine/ReadFunctions.lean ====
section
/-!
DEFINITION. The read functions 0x01 to 0x04 (spec 42_read_functions.md). The size of the PDU was checked by the decoder
(R174 step 1).
-/

namespace Sys2Proof.Machine

open Sys2Proof

/-- A quantity outside [1, limit] (R190, R235). -/
abbrev QtyIllegal (limit : Nat) (qty : U16) : Prop := qty.toNat < 1 ∨ limit < qty.toNat

/-- HandleRead for COILS and DI (R190): quantity, then address, then the read, then the response of R116. -/
def handleReadBits (fc : FunctionCode) (sp : BitSpace) (addr qty : U16) (s : State) : StepResult :=
  if QtyIllegal maxReadBits qty then .next (s.answerException fc.code illegalDataValue)
  else
    match s.memReadBits sp addr.toNat qty.toNat with
    | .done vals => .next (s.give (.pdu (fc.code :: BitVec.ofNat 8 (packedSize qty.toNat) :: packBits vals)))
    | .addressError _ _ _ => .next (s.answerException fc.code illegalDataAddress)
    | .refuse => .refused .emptyAccess

/-- HandleRead for HR and IR (R190), with the response of R117. -/
def handleReadRegs (fc : FunctionCode) (sp : RegSpace) (addr qty : U16) (s : State) : StepResult :=
  if QtyIllegal maxReadRegs qty then .next (s.answerException fc.code illegalDataValue)
  else
    match s.memReadRegs sp addr.toNat qty.toNat with
    | .done vals => .next (s.give (.pdu (fc.code :: BitVec.ofNat 8 (2 * qty.toNat) :: packRegs vals)))
    | .addressError _ _ _ => .next (s.answerException fc.code illegalDataAddress)
    | .refuse => .refused .emptyAccess

/-- ReadCoils (R191). -/
def execReadCoilsReq (addr qty : U16) (s : State) : StepResult := handleReadBits .readCoils .coils addr qty s

/-- ReadDiscreteInputs (R192). -/
def execReadDiscreteInputsReq (addr qty : U16) (s : State) : StepResult :=
  handleReadBits .readDiscreteInputs .di addr qty s

/-- ReadHoldingRegisters (R193). -/
def execReadHoldingRegistersReq (addr qty : U16) (s : State) : StepResult :=
  handleReadRegs .readHoldingRegisters .hr addr qty s

/-- ReadInputRegisters (R194). -/
def execReadInputRegistersReq (addr qty : U16) (s : State) : StepResult :=
  handleReadRegs .readInputRegisters .ir addr qty s

end Sys2Proof.Machine
end

