-- ==== Sys2Proof/Machine/Responses.lean ====
section
/-!
DEFINITION. The response deserializers (spec 45_response_parsers.md R291 to R304). A parser reads and writes no register
file; its result goes to the caller. The sent request is the parser's argument, held in `State.sent` for the step.
-/

namespace Sys2Proof.Machine

open Sys2Proof

/-- A normal response is parsed against the sent request; its function code must be the request's (R291). -/
def parseAgainst (fc : FunctionCode) (parse : SentRequest → Output) (s : State) : StepResult :=
  match s.sent with
  | none => .refused .noSentRequest
  | some req => .next (s.give (if fc = req.fc then parse req else .error (.frameDecode .fcMismatch)))

/-- ParseReadBits and ParseReadRegs after the fixed part (R301, R302): size, then byte count, then the values. -/
def parseCounted (bc : Byte) (data : Bytes) (expected : Nat) (values : Output) : Output :=
  if data.length ≠ bc.toNat then .error (.frameDecode .pduSize)
  else if bc.toNat ≠ expected then .error (.frameDecode .byteCount)
  else values

/-- ParseReadBits (R301). -/
def parseReadBits (bc : Byte) (data : Bytes) (req : SentRequest) : Output :=
  parseCounted bc data (packedSize req.qty.toNat) (.bits (unpackBits data req.qty.toNat))

/-- ParseReadRegs (R302). -/
def parseReadRegs (bc : Byte) (data : Bytes) (req : SentRequest) : Output :=
  parseCounted bc data (2 * req.qty.toNat) (.regs (unpackRegs data req.qty.toNat))

/-- The echo check of R303 and R304: both fields as they were sent, or a network error. -/
def parseEcho (first second sentFirst sentSecond : U16) : Output :=
  if first ≠ sentFirst ∨ second ≠ sentSecond then .error (.networkReceive .echoMismatch) else .fields first second

/-- ParseWriteSingle (R303). -/
def parseWriteSingle (addr value : U16) (req : SentRequest) : Output := parseEcho addr value req.addr req.wireValue

/-- ParseWriteMultiple (R304). -/
def parseWriteMultiple (addr qty : U16) (req : SentRequest) : Output := parseEcho addr qty req.addr req.qty

/-- The response of ReadCoils (R301). -/
def execReadCoilsRsp (bc : Byte) (data : Bytes) (s : State) : StepResult :=
  parseAgainst .readCoils (parseReadBits bc data) s

/-- The response of ReadDiscreteInputs (R301). -/
def execReadDiscreteInputsRsp (bc : Byte) (data : Bytes) (s : State) : StepResult :=
  parseAgainst .readDiscreteInputs (parseReadBits bc data) s

/-- The response of ReadHoldingRegisters (R302). -/
def execReadHoldingRegistersRsp (bc : Byte) (data : Bytes) (s : State) : StepResult :=
  parseAgainst .readHoldingRegisters (parseReadRegs bc data) s

/-- The response of ReadInputRegisters (R302). -/
def execReadInputRegistersRsp (bc : Byte) (data : Bytes) (s : State) : StepResult :=
  parseAgainst .readInputRegisters (parseReadRegs bc data) s

/-- The response of WriteSingleCoil (R303). -/
def execWriteSingleCoilRsp (addr value : U16) (s : State) : StepResult :=
  parseAgainst .writeSingleCoil (parseWriteSingle addr value) s

/-- The response of WriteSingleRegister (R303). -/
def execWriteSingleRegisterRsp (addr value : U16) (s : State) : StepResult :=
  parseAgainst .writeSingleRegister (parseWriteSingle addr value) s

/-- The response of WriteMultipleCoils (R304). -/
def execWriteMultipleCoilsRsp (addr qty : U16) (s : State) : StepResult :=
  parseAgainst .writeMultipleCoils (parseWriteMultiple addr qty) s

/-- The response of WriteMultipleRegisters (R304). -/
def execWriteMultipleRegistersRsp (addr qty : U16) (s : State) : StepResult :=
  parseAgainst .writeMultipleRegisters (parseWriteMultiple addr qty) s

/-- ParseException (R296): the code as received, whatever it is; the low seven bits are not compared (D17). -/
def execExceptionRsp (_function : BitVec 7) (code : Byte) (s : State) : StepResult :=
  .next (s.give (.error (.modbusException code)))

end Sys2Proof.Machine
end

