-- ==== Sys2Proof/Machine/WriteFunctions.lean ====
section
/-!
DEFINITION. The write functions 0x05, 0x06, 0x0F and 0x10 (spec 43_write_functions.md): values, then address, then one
atomic write, then the response (R174). The store's update is folded into the step (R8, R75).
-/

namespace Sys2Proof.Machine

open Sys2Proof

/-- A write function's ending: the response after a completed MemWrite, exception 02 where the address decoder refuses. -/
def finishWrite (fc : FunctionCode) (response : Bytes) (s : State) : Access State → StepResult
  | .done t => .next (t.give (.pdu response))
  | .addressError _ _ _ => .next (s.answerException fc.code illegalDataAddress)
  | .refuse => .refused .emptyAccess

/-- The fc and two u16 fields: the echo of a single write (R118) and the response of a multiple write (R119). -/
def pairPdu (fc : FunctionCode) (first second : U16) : Bytes := fc.code :: (be16 first ++ be16 second)

/-- The byte-count checks of 0x0F and 0x10 (R236): against the quantity, then against the data. -/
abbrev ByteCountIllegal (expected : Nat) (bc : Byte) (data : Bytes) : Prop :=
  bc.toNat ≠ expected ∨ data.length ≠ bc.toNat

/-- WriteSingleCoil (R220, R221). -/
def execWriteSingleCoilReq (addr value : U16) (s : State) : StepResult :=
  match coilValue s.params.wscOther value with
  | none => .next (s.answerException FunctionCode.writeSingleCoil.code illegalDataValue)
  | some b =>
    finishWrite .writeSingleCoil (pairPdu .writeSingleCoil addr value) s (s.memWriteBits .coils addr.toNat [b])

/-- WriteSingleRegister (R225). -/
def execWriteSingleRegisterReq (addr value : U16) (s : State) : StepResult :=
  finishWrite .writeSingleRegister (pairPdu .writeSingleRegister addr value) s (s.memWriteRegs .hr addr.toNat [value])

/-- WriteMultipleCoils (R230). -/
def execWriteMultipleCoilsReq (addr qty : U16) (bc : Byte) (data : Bytes) (s : State) : StepResult :=
  if QtyIllegal maxWriteBits qty ∨ ByteCountIllegal (packedSize qty.toNat) bc data then
    .next (s.answerException FunctionCode.writeMultipleCoils.code illegalDataValue)
  else
    finishWrite .writeMultipleCoils (pairPdu .writeMultipleCoils addr qty) s
      (s.memWriteBits .coils addr.toNat (unpackBits data qty.toNat))

/-- WriteMultipleRegisters (R240). -/
def execWriteMultipleRegistersReq (addr qty : U16) (bc : Byte) (data : Bytes) (s : State) : StepResult :=
  if QtyIllegal maxWriteRegs qty ∨ ByteCountIllegal (2 * qty.toNat) bc data then
    .next (s.answerException FunctionCode.writeMultipleRegisters.code illegalDataValue)
  else
    finishWrite .writeMultipleRegisters (pairPdu .writeMultipleRegisters addr qty) s
      (s.memWriteRegs .hr addr.toNat (unpackRegs data qty.toNat))

end Sys2Proof.Machine
end

