-- ==== Sys2Proof/Machine/Dispatch.lean ====
section
/-!
DEFINITION. The meaning of every instruction, one arm each.
-/

namespace Sys2Proof.Machine

open Sys2Proof

def exec (i : Instr) (s : State) : Host.Outcome State Fault Refusal :=
  match i with
  | .readCoilsReq addr qty => Sys2Proof.Machine.execReadCoilsReq addr qty s
  | .readDiscreteInputsReq addr qty => Sys2Proof.Machine.execReadDiscreteInputsReq addr qty s
  | .readHoldingRegistersReq addr qty => Sys2Proof.Machine.execReadHoldingRegistersReq addr qty s
  | .readInputRegistersReq addr qty => Sys2Proof.Machine.execReadInputRegistersReq addr qty s
  | .writeSingleCoilReq addr value => Sys2Proof.Machine.execWriteSingleCoilReq addr value s
  | .writeSingleRegisterReq addr value => Sys2Proof.Machine.execWriteSingleRegisterReq addr value s
  | .writeMultipleCoilsReq addr qty bc data => Sys2Proof.Machine.execWriteMultipleCoilsReq addr qty bc data s
  | .writeMultipleRegistersReq addr qty bc data => Sys2Proof.Machine.execWriteMultipleRegistersReq addr qty bc data s
  | .readCoilsRsp bc data => Sys2Proof.Machine.execReadCoilsRsp bc data s
  | .readDiscreteInputsRsp bc data => Sys2Proof.Machine.execReadDiscreteInputsRsp bc data s
  | .readHoldingRegistersRsp bc data => Sys2Proof.Machine.execReadHoldingRegistersRsp bc data s
  | .readInputRegistersRsp bc data => Sys2Proof.Machine.execReadInputRegistersRsp bc data s
  | .writeSingleCoilRsp addr value => Sys2Proof.Machine.execWriteSingleCoilRsp addr value s
  | .writeSingleRegisterRsp addr value => Sys2Proof.Machine.execWriteSingleRegisterRsp addr value s
  | .writeMultipleCoilsRsp addr qty => Sys2Proof.Machine.execWriteMultipleCoilsRsp addr qty s
  | .writeMultipleRegistersRsp addr qty => Sys2Proof.Machine.execWriteMultipleRegistersRsp addr qty s
  | .exceptionRsp function code => Sys2Proof.Machine.execExceptionRsp function code s

end Sys2Proof.Machine
end

