-- ==== Sys2Proof/Machine/Server.lean ====
section
/-!
DEFINITION. The request handler (spec 41_dispatch.md): HandleRequest and ServerStep.
-/

namespace Sys2Proof.Machine

open Sys2Proof

/-- `HandleRequest(pdu)` (R170): a decoded request runs its meaning; an unknown function code takes the exception
IllegalFunction (R172); a frame error is fatal (R178). -/
def handleRequest (pdu : Bytes) (s : State) : StepResult :=
  match decodeRequest pdu with
  | .ok i => exec i s
  | .error (.unknownFunction fc) => .next (s.answerException fc illegalFunction)
  | .error (.frame cause) => .next (s.fatalCall cause)

/-- The end of a ServerStep (R175, R157): HandleRequest's PDU becomes the response frame, its fatal error closes the
connection. `encodeFrame` cannot fail here (R175). -/
def concludeServe (c : Nat) (h : Header) (t : State) : State :=
  match t.out with
  | .pdu r =>
    match encodeFrame h.tid.toNat h.uid.toNat r with
    | .ok frame => t.give (.response c frame)
    | .error e => t.fatalOn c e
  | .fatalCall e => t.fatalOn c e
  | _ => t

/-- Apply a function to the next state of an outcome. -/
def mapNext (f : State → State) : StepResult → StepResult
  | .next t => .next (f t)
  | .fault r => .fault r
  | .refused r => .refused r

/-- `ServerStep` (R175) on the bytes received on connection `c`. A connection that is not open (closed after a fatal
error, or never accepted) is not served (R341, log entry 11). -/
def serverStep (c : Nat) (s : State) : StepResult :=
  match Table.get? s.conns c with
  | none => .next (s.give .none)
  | some received =>
    match decodeFrame received with
    | .error e => .next (s.fatalOn c e)
    | .ok (h, pdu, rest) => mapNext (concludeServe c h) (handleRequest pdu (s.setReceived c rest))

/-- The response of an operation is held; every other outcome stands (R366). -/
def holdResponse (r : StepResult) : StepResult := mapNext State.hold r

/-- A request agent's turn: ServerStep, unless the agent still holds a response. A response comes before the next request
on its connection is read (R365), so that turn passes (log entry 19). -/
def serveConn (c : Nat) (s : State) : StepResult :=
  if c ∈ s.awaiting then .next (s.give .none) else serverStep c s

end Sys2Proof.Machine
end

