-- ==== Sys2Proof/Machine/Client.lean ====
section
/-!
DEFINITION. The client side of the codec as the host calls it: ReceiveResponse and ParseResponse (spec
45_response_parsers.md), and the direct calls of the pure operations.
-/

namespace Sys2Proof.Machine

open Sys2Proof

/-- `ReceiveResponse(s, sentTid, cfgUid)` (R290): the frame, then the tid, then the uid (D37). -/
def receiveResponse (bytes : Bytes) (sentTid : U16) (cfgUid : Byte) : Except CodecError (Bytes × Bytes) :=
  match decodeFrame bytes with
  | .error e => .error e
  | .ok (h, pdu, rest) =>
    if h.tid ≠ sentTid then .error (.networkReceive .tidMismatch)
    else if h.uid ≠ cfgUid then .error (.networkReceive .uidMismatch)
    else .ok (pdu, rest)

/-- The error of a response PDU that is no row of the table: a normal response of another function than the request's is
an FcMismatch whatever its size (R291, R331). -/
def responseReject (req : SentRequest) (pdu : Bytes) : DecodeReject → DecodeCause
  | .unknownFunction _ => .fcMismatch
  | .frame cause =>
    match pdu with
    | [] => cause
    | f :: _ => if hasExceptionBit f ∨ f = req.fc.code then cause else .fcMismatch

/-- The sent request is held for this one step only (R45). -/
def State.forgetSent (s : State) : State := { s with sent := none }

/-- `ParseResponse(req, pdu)` (R291): the decoded response runs its meaning against the sent request. -/
def parseResponse (req : SentRequest) (pdu : Bytes) (s : State) : StepResult :=
  match decodeResponse pdu with
  | .ok i => mapNext State.forgetSent (exec i { s with sent := some req })
  | .error r => .next (s.give (.error (.frameDecode (responseReject req pdu r))))

/-- The direct calls of the frame codec. -/
def codecOutput : CodecCall → Output
  | .encodeMBAP tid pid len uid => outputOf .bytes (encodeMBAP tid pid len uid)
  | .decodeMBAP b => outputOf .header (decodeMBAP b)
  | .encodeFrame tid uid pdu => outputOf .bytes (encodeFrame tid uid pdu)
  | .decodeFrame s => outputOf (fun r => .frame r.1 r.2.1 r.2.2) (decodeFrame s)
  | .buildException fc exc => outputOf .bytes (buildException fc exc)

end Sys2Proof.Machine
end

