-- ==== Sys2Proof/Machine/Actions.lean ====
section
/-!
DEFINITION. What each action of the host and the agents does in one atomic step (spec 60_exceptions.md R350, R352;
10_state.md R38).
-/

namespace Sys2Proof.Machine

open Sys2Proof

/-- A further request agent may exist (R10, R350). -/
abbrev AgentFree (s : State) : Prop := ∀ n ∈ s.params.nAgents, s.conns.length < n

/-- A connection is accepted: its agent starts with no bytes (R362; its two bounds are log entry 7). -/
def acceptConn (c : Nat) (s : State) : StepResult :=
  if (Table.get? s.conns c).isSome then .refused .connectionInUse
  else if AgentFree s then .next ((s.setReceived c []).give .none)
  else .refused .agentLimit

/-- Bytes arrive (R352). Bytes for a connection that is not open are not processed (R341, log entry 11). -/
def deliverBytes (c : Nat) (bytes : Bytes) (s : State) : State :=
  match Table.get? s.conns c with
  | none => s.give .none
  | some received => (s.setReceived c (received ++ bytes)).give .none

/-- A connection closes (R362). To close an id that is not open is passed over: the spec does not say what it does, and
after a fatal ServerStep the host's own close finds the connection gone (R352, log entry 11). -/
def closeConn (c : Nat) (s : State) : State := (s.dropConn c).give .none

/-- The end of a device-side read: the values, or AddressError raised to the caller (R70). -/
def finishRead {β : Type} (f : β → Output) (s : State) : Access β → StepResult
  | .done vals => .next (s.give (f vals))
  | .addressError space addr count => .next (s.give (.error (.addressError space addr count)))
  | .refuse => .refused .emptyAccess

/-- The end of a device-side write (R80). -/
def finishStore (s : State) : Access State → StepResult
  | .done t => .next (t.give .ok)
  | .addressError space addr count => .next (s.give (.error (.addressError space addr count)))
  | .refuse => .refused .emptyAccess

/-- One action. -/
def perform (a : Action) (s : State) : StepResult :=
  match a with
  | .accept c => acceptConn c s
  | .close c => .next (closeConn c s)
  | .deliver c bytes => .next (deliverBytes c bytes s)
  | .serve c => serveConn c s
  | .serveHeld c => holdResponse (serveConn c s)
  | .handleRequest pdu => handleRequest pdu s
  | .handleRequestHeld pdu => holdResponse (handleRequest pdu s)
  | .handBack k => .next (s.handBack k)
  | .readBits sp addr count => finishRead .bits s (s.memReadBits sp addr count)
  | .readRegs sp addr count => finishRead .regs s (s.memReadRegs sp addr count)
  | .writeBits sp addr vals => finishStore s (s.memWriteBits sp addr vals)
  | .writeRegs sp addr vals => finishStore s (s.memWriteRegs sp addr vals)
  | .build call => .next (s.give (outputOf .pdu (buildRequest call)))
  | .buildFrame tid uid pdu => .next (s.give (outputOf .bytes (buildRequestFrame tid uid pdu)))
  | .receive bytes sentTid cfgUid =>
    .next (s.give (outputOf (fun r => .received r.1 r.2) (receiveResponse bytes sentTid cfgUid)))
  | .parse req pdu => parseResponse req pdu s
  | .codec call => .next (s.give (codecOutput call))

/-- Take the next action off the inbox; with none there, nothing happens (log entry 12). -/
def stepInbox (s : State) : StepResult :=
  match s.inbox with
  | [] => .next s
  | a :: rest => perform a { s with inbox := rest }

/-- The request a table word's response is parsed against: the same function, at address 0 for one entry. -/
def tableSentRequest (b : Byte) : SentRequest :=
  ⟨(functionOfByte (b &&& 0x7F)).getD .readCoils, 0, 1, 0⟩

/-- The frame of a PDU with transaction ID 0 and unit ID 0. -/
def tableFrame (pdu : Bytes) : Bytes := [0, 0, 0, 0] ++ be16 (BitVec.ofNat 16 (pdu.length + 1)) ++ [0] ++ pdu

/-- Put a table word's PDU where the next step takes it: a request as a frame at the front of connection 0, which is open and
holds no response, with its ServerStep next; an exception response as the next ParseResponse. -/
def placeTableWord (s : State) (pdu : Bytes) : State :=
  let b := pdu.headD 0
  if hasExceptionBit b then { s with inbox := .parse (tableSentRequest b) pdu :: s.inbox }
  else
    let received := (Table.get? s.conns 0).getD []
    { s with
      conns := Table.insert s.conns 0 (tableFrame pdu ++ received)
      held := s.held.filter fun h => h.conn? != some 0
      inbox := .serve 0 :: s.inbox }

end Sys2Proof.Machine
end

