-- ==== Sys2Proof/Machine/Step.lean ====
section
/-!
DEFINITION. One step: the first action of the inbox is taken. With no action waiting the block does nothing, since its
"instructions" arrive from outside (spec 10_state.md R31).
-/

namespace Sys2Proof.Machine

open Sys2Proof

/-- One step of the machine. -/
def step (s : State) : Host.Outcome State Fault Refusal := stepInbox s

/-- The state with a table word's instruction where the next step runs it (log entry 6). -/
def State.withFetchWord (s : State) (nbits w : Nat) : State := placeTableWord s (tableWordPdu nbits w)

end Sys2Proof.Machine
end

