-- ==== Sys2Proof/Safety.lean ====
section
/-!
DEFINITION. What every state of a run has: the configuration is legal, each register file is in its canonical form within
its bounds, connections are told apart and no more than N_AGENTS are open, an open connection holds at most one response and no other
holds any, and no sent request outlives its step.
-/

namespace Sys2Proof.Machine

open Sys2Proof

/-- The four register files are canonical: addresses strictly rising and in bounds, no unlisted value listed. -/
abbrev Memory.wf (s : State) : Prop :=
  Table.Canonical Config.unlistedBit s.params.sizeCoils s.coils ∧
  Table.Canonical Config.unlistedBit s.params.sizeDi s.di ∧
  Table.Canonical Config.unlistedReg s.params.sizeHr s.hr ∧
  Table.Canonical Config.unlistedReg s.params.sizeIr s.ir

/-- Connection ids strictly rising, and no more agents than N_AGENTS (R350). -/
abbrev ConnsLegal (s : State) : Prop :=
  Table.Sorted s.conns ∧ ∀ n ∈ s.params.nAgents, s.conns.length ≤ n

/-- A held response belongs to an open connection or to a direct call, and a connection holds at most one: its agent reads
no further request before it has responded (R365, R366). -/
abbrev HeldLegal (s : State) : Prop :=
  s.awaiting.Nodup ∧ ∀ c ∈ s.awaiting, Table.get? s.conns c ≠ none

/-- The invariant of the machine. -/
abbrev State.Inv (s : State) : Prop :=
  s.params.Legal ∧ Memory.wf s ∧ ConnsLegal s ∧ HeldLegal s ∧ s.sent = none

/-- The next state of an outcome, if it is one. -/
def nextState : StepResult → Option State
  | .next t => some t
  | .fault _ => none
  | .refused _ => none

end Sys2Proof.Machine
end

