-- ==== Sys2Proof/Certificates/Slice0/Obligations.lean ====
section
/-!
DEFINITION. The statements for the provers. Each docstring names the rule of spec/ it formalises.
-/

open Sys2Proof Sys2Proof.Machine

/-! ### Packing and unpacking (20_memory.md, 40_frame_codec.md) -/

/-- R140, R141: a value that fits its width is packed, most significant byte first; another raises FrameEncodeError. -/
def Obligations.PackersCheckTheWidth : Prop :=
  ∀ v : Int,
    (0 ≤ v ∧ v ≤ 255 → p8 v = .ok [BitVec.ofInt 8 v]) ∧
    (v < 0 ∨ 255 < v → p8 v = .error (.frameEncode v 8)) ∧
    (0 ≤ v ∧ v ≤ 65535 → p16 v = .ok [BitVec.ofInt 8 (v / 256), BitVec.ofInt 8 (v % 256)]) ∧
    (v < 0 ∨ 65535 < v → p16 v = .error (.frameEncode v 16))

/-- R142: one field of a byte string, unsigned and big-endian; past the end it is a Short error. -/
def Obligations.FieldsAreUnsignedBigEndian : Prop :=
  ∀ (b : Bytes) (i : Nat),
    (∀ h : i < b.length, u8At b i = .ok b[i]) ∧
    (b.length < i + 1 → u8At b i = .error (.frameDecode .short)) ∧
    (∀ h : i + 1 < b.length, ∃ v : U16, u16At b i = .ok v ∧ v.toNat = b[i].toNat * 256 + b[i + 1].toNat) ∧
    (b.length < i + 2 → u16At b i = .error (.frameDecode .short))

/-- R143: a declared format takes exactly the bytes from `lo` to the end, and gives its fields in order. -/
def Obligations.ParseTakesExactlyTheFormat : Prop :=
  ∀ (b : Bytes) (lo : Nat) (fmt : List FieldWidth),
    (b.length ≠ lo + formatSize fmt → parseFormat b lo fmt = .error (.frameDecode .pduSize)) ∧
    (b.length = lo + formatSize fmt →
      ∃ vs : List Nat, parseFormat b lo fmt = .ok vs ∧ vs.length = fmt.length ∧
        ∀ i, i < fmt.length →
          (fmt[i]? = some .u8 → ∃ v : Byte, u8At b (lo + formatSize (fmt.take i)) = .ok v ∧ vs[i]? = some v.toNat) ∧
          (fmt[i]? = some .u16 → ∃ v : U16, u16At b (lo + formatSize (fmt.take i)) = .ok v ∧ vs[i]? = some v.toNat))

/-- R143 with R190, R220, R225, R303, R304: the decoder of a two-field PDU is `Parse(pdu, 1, [u16, u16])`. -/
def Obligations.TwoFieldPdusAreParsedByFormat : Prop :=
  ∀ (k : U16 → U16 → Instr) (b : Byte) (payload : Bytes),
    (∀ first second : Nat, parseFormat (b :: payload) 1 [.u16, .u16] = .ok [first, second] →
      decodePair k payload = .ok (k (BitVec.ofNat 16 first) (BitVec.ofNat 16 second))) ∧
    (∀ e, parseFormat (b :: payload) 1 [.u16, .u16] = .error e →
      e = .frameDecode .pduSize ∧ decodePair k payload = .error (.frame .pduSize))

/-- R65: the bytes of PackBits, bit for bit, with zero padding. -/
def Obligations.PackBitsIsLsbFirstZeroPadded : Prop :=
  ∀ vals : List Bool,
    (packBits vals).length = (vals.length + 7) / 8 ∧
    ∀ j k, j < (packBits vals).length → k < 8 →
      ((packBits vals).getD j 0).getLsbD k = if h : 8 * j + k < vals.length then vals[8 * j + k] else false

/-- R66: the values of UnpackBits; the padding bits of the last byte have no effect. -/
def Obligations.UnpackBitsIgnoresPadding : Prop :=
  ∀ (b : Bytes) (n : Nat), b.length = (n + 7) / 8 →
    (unpackBits b n).length = n ∧
    (∀ i, i < n → (unpackBits b n)[i]? = some (((b.getD (i / 8) 0 >>> (i % 8)) &&& 1#8) == 1#8)) ∧
    ∀ b' : Bytes, b'.length = b.length →
      (∀ i, i < n → (b'.getD (i / 8) 0).getLsbD (i % 8) = (b.getD (i / 8) 0).getLsbD (i % 8)) →
      unpackBits b' n = unpackBits b n

/-- R67: unpacking undoes packing; packing undoes unpacking exactly when the padding bits are zero. -/
def Obligations.BitPackingRoundTrip : Prop :=
  (∀ vals : List Bool, 1 ≤ vals.length → unpackBits (packBits vals) vals.length = vals) ∧
  ∀ (b : Bytes) (n : Nat), b.length = (n + 7) / 8 →
    (packBits (unpackBits b n) = b ↔
      ∀ i, n ≤ i → i < 8 * b.length → (b.getD (i / 8) 0).getLsbD (i % 8) = false)

/-- R64: registers on the wire, two bytes each in address order, and the inverse. -/
def Obligations.RegisterPackingRoundTrip : Prop :=
  (∀ vals : List U16, (packRegs vals).length = 2 * vals.length ∧
    (∀ k, ∀ h : k < vals.length, (packRegs vals)[2 * k]? = some (hiByte vals[k]) ∧
      (packRegs vals)[2 * k + 1]? = some (loByte vals[k])) ∧
    unpackRegs (packRegs vals) vals.length = vals) ∧
  ∀ (b : Bytes) (n : Nat), b.length = 2 * n → packRegs (unpackRegs b n) = b

/-! ### Encodings (30_encoding.md) -/

/-- R111 to R119 and R108: words written out from the layouts, one or more for each family (a sanity statement). -/
def Obligations.SampleWordsDecode : Prop :=
  decode .request [0x01, 0x00, 0x0A, 0x00, 0x01] = .ok (.readCoilsReq 10 1) ∧
  decode .request [0x02, 0x00, 0x00, 0x00, 0x10] = .ok (.readDiscreteInputsReq 0 16) ∧
  decode .request [0x03, 0xFF, 0xFF, 0x00, 0x7E] = .ok (.readHoldingRegistersReq 65535 126) ∧
  decode .request [0x04, 0x00, 0x05, 0x00, 0x01] = .ok (.readInputRegistersReq 5 1) ∧
  decode .request [0x05, 0x00, 0x0A, 0xFF, 0x00] = .ok (.writeSingleCoilReq 10 0xFF00) ∧
  decode .request [0x06, 0x00, 0x01, 0x00, 0x03] = .ok (.writeSingleRegisterReq 1 3) ∧
  decode .request [0x0F, 0x00, 0x13, 0x00, 0x0A, 0x02, 0xCD, 0x01] = .ok (.writeMultipleCoilsReq 19 10 2 [0xCD, 0x01]) ∧
  decode .request [0x10, 0x00, 0x01, 0x00, 0x02, 0x04, 0x00, 0x0A, 0x01, 0x02] =
    .ok (.writeMultipleRegistersReq 1 2 4 [0x00, 0x0A, 0x01, 0x02]) ∧
  decode .response [0x01, 0x02, 0x0D, 0x03] = .ok (.readCoilsRsp 2 [0x0D, 0x03]) ∧
  decode .response [0x04, 0x02, 0x12, 0x34] = .ok (.readInputRegistersRsp 2 [0x12, 0x34]) ∧
  decode .response [0x10, 0x00, 0x01, 0x00, 0x02] = .ok (.writeMultipleRegistersRsp 1 2) ∧
  decode .response [0x83, 0x02] = .ok (.exceptionRsp 3 2)

/-- R103, R105 to R119: decoding an encoded instruction gives it back, every operand at every value, and a well-formed
instruction's PDU has a size the frame decoder accepts. -/
def Obligations.DecodeEncodeRoundTrip : Prop :=
  ∀ i : Instr, i.WellFormed →
    decode i.direction (encode i) = .ok i ∧ 2 ≤ (encode i).length ∧ (encode i).length ≤ 255

/-- The other direction: a PDU that decodes is the encoding of what it decodes to, so no two PDUs of one direction mean
the same and none is read as a row of the other direction. -/
def Obligations.EncodeDecodeRoundTrip : Prop :=
  ∀ (d : Direction) (pdu : Bytes) (i : Instr), decode d pdu = .ok i → encode i = pdu ∧ i.direction = d

/-- R172: an unknown function code is answered IllegalFunction whatever follows it; nothing else changes. -/
def Obligations.UnknownFunctionIsIllegal : Prop :=
  ∀ (b : Byte) (payload : Bytes) (s : State),
    b ∉ [0x01, 0x02, 0x03, 0x04, 0x05, 0x06, 0x0F, 0x10] →
    handleRequest (b :: payload) s = .next { s with out := .pdu [b ||| 0x80, 0x01] } ∧
    (b.getLsbD 7 = true → b ||| 0x80 = b) ∧
    (b = 0x00 → handleRequest (b :: payload) s = .next { s with out := .pdu [0x80, 0x01] })

/-! ### Read functions (42_read_functions.md) -/

/-- R191: ReadCoils, its response, its two exceptions and its one size. -/
def Obligations.ReadCoilsAnswers : Prop :=
  ∀ (addr qty : U16) (s : State),
    (1 ≤ qty.toNat → qty.toNat ≤ 2000 → addr.toNat + qty.toNat ≤ s.params.sizeCoils →
      exec (.readCoilsReq addr qty) s = .next { s with out := .pdu (0x01 :: BitVec.ofNat 8 ((qty.toNat + 7) / 8) ::
        packBits ((List.range qty.toNat).map fun k => s.bitAt .coils (addr.toNat + k))) }) ∧
    (qty.toNat < 1 ∨ 2000 < qty.toNat → exec (.readCoilsReq addr qty) s = .next { s with out := .pdu [0x81, 0x03] }) ∧
    (1 ≤ qty.toNat → qty.toNat ≤ 2000 → s.params.sizeCoils < addr.toNat + qty.toNat →
      exec (.readCoilsReq addr qty) s = .next { s with out := .pdu [0x81, 0x02] }) ∧
    handleRequest (0x01 :: (be16 addr ++ be16 qty)) s = exec (.readCoilsReq addr qty) s ∧
    ∀ payload : Bytes, (0x01 :: payload).length ≠ 5 →
      handleRequest (0x01 :: payload) s = .next { s with out := .fatalCall (.frameDecode .pduSize) }

/-- R192: ReadDiscreteInputs. -/
def Obligations.ReadDiscreteInputsAnswers : Prop :=
  ∀ (addr qty : U16) (s : State),
    (1 ≤ qty.toNat → qty.toNat ≤ 2000 → addr.toNat + qty.toNat ≤ s.params.sizeDi →
      exec (.readDiscreteInputsReq addr qty) s = .next { s with out := .pdu (0x02 ::
        BitVec.ofNat 8 ((qty.toNat + 7) / 8) ::
        packBits ((List.range qty.toNat).map fun k => s.bitAt .di (addr.toNat + k))) }) ∧
    (qty.toNat < 1 ∨ 2000 < qty.toNat →
      exec (.readDiscreteInputsReq addr qty) s = .next { s with out := .pdu [0x82, 0x03] }) ∧
    (1 ≤ qty.toNat → qty.toNat ≤ 2000 → s.params.sizeDi < addr.toNat + qty.toNat →
      exec (.readDiscreteInputsReq addr qty) s = .next { s with out := .pdu [0x82, 0x02] }) ∧
    handleRequest (0x02 :: (be16 addr ++ be16 qty)) s = exec (.readDiscreteInputsReq addr qty) s ∧
    ∀ payload : Bytes, (0x02 :: payload).length ≠ 5 →
      handleRequest (0x02 :: payload) s = .next { s with out := .fatalCall (.frameDecode .pduSize) }

/-- R193: ReadHoldingRegisters. -/
def Obligations.ReadHoldingRegistersAnswers : Prop :=
  ∀ (addr qty : U16) (s : State),
    (1 ≤ qty.toNat → qty.toNat ≤ 125 → addr.toNat + qty.toNat ≤ s.params.sizeHr →
      exec (.readHoldingRegistersReq addr qty) s = .next { s with out := .pdu (0x03 :: BitVec.ofNat 8 (2 * qty.toNat) ::
        packRegs ((List.range qty.toNat).map fun k => s.regAt .hr (addr.toNat + k))) }) ∧
    (qty.toNat < 1 ∨ 125 < qty.toNat →
      exec (.readHoldingRegistersReq addr qty) s = .next { s with out := .pdu [0x83, 0x03] }) ∧
    (1 ≤ qty.toNat → qty.toNat ≤ 125 → s.params.sizeHr < addr.toNat + qty.toNat →
      exec (.readHoldingRegistersReq addr qty) s = .next { s with out := .pdu [0x83, 0x02] }) ∧
    handleRequest (0x03 :: (be16 addr ++ be16 qty)) s = exec (.readHoldingRegistersReq addr qty) s ∧
    ∀ payload : Bytes, (0x03 :: payload).length ≠ 5 →
      handleRequest (0x03 :: payload) s = .next { s with out := .fatalCall (.frameDecode .pduSize) }

/-- R194: ReadInputRegisters. -/
def Obligations.ReadInputRegistersAnswers : Prop :=
  ∀ (addr qty : U16) (s : State),
    (1 ≤ qty.toNat → qty.toNat ≤ 125 → addr.toNat + qty.toNat ≤ s.params.sizeIr →
      exec (.readInputRegistersReq addr qty) s = .next { s with out := .pdu (0x04 :: BitVec.ofNat 8 (2 * qty.toNat) ::
        packRegs ((List.range qty.toNat).map fun k => s.regAt .ir (addr.toNat + k))) }) ∧
    (qty.toNat < 1 ∨ 125 < qty.toNat →
      exec (.readInputRegistersReq addr qty) s = .next { s with out := .pdu [0x84, 0x03] }) ∧
    (1 ≤ qty.toNat → qty.toNat ≤ 125 → s.params.sizeIr < addr.toNat + qty.toNat →
      exec (.readInputRegistersReq addr qty) s = .next { s with out := .pdu [0x84, 0x02] }) ∧
    handleRequest (0x04 :: (be16 addr ++ be16 qty)) s = exec (.readInputRegistersReq addr qty) s ∧
    ∀ payload : Bytes, (0x04 :: payload).length ≠ 5 →
      handleRequest (0x04 :: payload) s = .next { s with out := .fatalCall (.frameDecode .pduSize) }

/-! ### Write functions (43_write_functions.md) -/

/-- R221: the Bool of a WriteSingleCoil's wire value, for each of the three values of WSC_OTHER. -/
def Obligations.CoilValueMapsWireValues : Prop :=
  ∀ (other : WscOther) (value : U16),
    (value = 0xFF00 → coilValue other value = some true) ∧
    (value = 0x0000 → coilValue other value = some false) ∧
    (value ≠ 0xFF00 → value ≠ 0x0000 → other = .reject03 → coilValue other value = none) ∧
    (value ≠ 0xFF00 → value ≠ 0x0000 → other = .asTrue → coilValue other value = some true) ∧
    (value ≠ 0xFF00 → value ≠ 0x0000 → other = .asFalse → coilValue other value = some false)

/-- R220: WriteSingleCoil writes the one coil, echoes the request byte for byte, and changes nothing else. -/
def Obligations.WriteSingleCoilWritesAndEchoes : Prop :=
  ∀ (addr value : U16) (s : State),
    (∀ b, coilValue s.params.wscOther value = some b → addr.toNat < s.params.sizeCoils →
      ∃ t, exec (.writeSingleCoilReq addr value) s = .next t ∧
        t.out = .pdu (encode (.writeSingleCoilReq addr value)) ∧
        t.bitAt .coils addr.toNat = b ∧
        (∀ a, a ≠ addr.toNat → t.bitAt .coils a = s.bitAt .coils a) ∧
        t = { s with coils := t.coils, out := t.out }) ∧
    (coilValue s.params.wscOther value = none →
      exec (.writeSingleCoilReq addr value) s = .next { s with out := .pdu [0x85, 0x03] }) ∧
    (coilValue s.params.wscOther value ≠ none → s.params.sizeCoils ≤ addr.toNat →
      exec (.writeSingleCoilReq addr value) s = .next { s with out := .pdu [0x85, 0x02] }) ∧
    handleRequest (0x05 :: (be16 addr ++ be16 value)) s = exec (.writeSingleCoilReq addr value) s ∧
    ∀ payload : Bytes, (0x05 :: payload).length ≠ 5 →
      handleRequest (0x05 :: payload) s = .next { s with out := .fatalCall (.frameDecode .pduSize) }

/-- R225: WriteSingleRegister writes the one register, echoes the request byte for byte, and changes nothing else. -/
def Obligations.WriteSingleRegisterWritesAndEchoes : Prop :=
  ∀ (addr value : U16) (s : State),
    (addr.toNat < s.params.sizeHr →
      ∃ t, exec (.writeSingleRegisterReq addr value) s = .next t ∧
        t.out = .pdu (encode (.writeSingleRegisterReq addr value)) ∧
        t.regAt .hr addr.toNat = value ∧
        (∀ a, a ≠ addr.toNat → t.regAt .hr a = s.regAt .hr a) ∧
        t = { s with hr := t.hr, out := t.out }) ∧
    (s.params.sizeHr ≤ addr.toNat →
      exec (.writeSingleRegisterReq addr value) s = .next { s with out := .pdu [0x86, 0x02] }) ∧
    handleRequest (0x06 :: (be16 addr ++ be16 value)) s = exec (.writeSingleRegisterReq addr value) s ∧
    ∀ payload : Bytes, (0x06 :: payload).length ≠ 5 →
      handleRequest (0x06 :: payload) s = .next { s with out := .fatalCall (.frameDecode .pduSize) }

/-- R230: WriteMultipleCoils writes the addressed coils from the packed data, all at once, and changes nothing else. -/
def Obligations.WriteMultipleCoilsWritesTheRange : Prop :=
  ∀ (addr qty : U16) (bc : Byte) (data : Bytes) (s : State),
    (1 ≤ qty.toNat → qty.toNat ≤ 1968 → bc.toNat = (qty.toNat + 7) / 8 → data.length = bc.toNat →
      addr.toNat + qty.toNat ≤ s.params.sizeCoils →
      ∃ t, exec (.writeMultipleCoilsReq addr qty bc data) s = .next t ∧
        t.out = .pdu (0x0F :: (be16 addr ++ be16 qty)) ∧
        (∀ k, k < qty.toNat → t.bitAt .coils (addr.toNat + k) = (data.getD (k / 8) 0).getLsbD (k % 8)) ∧
        (∀ a, a < addr.toNat ∨ addr.toNat + qty.toNat ≤ a → t.bitAt .coils a = s.bitAt .coils a) ∧
        t = { s with coils := t.coils, out := t.out }) ∧
    (qty.toNat < 1 ∨ 1968 < qty.toNat ∨ bc.toNat ≠ (qty.toNat + 7) / 8 ∨ data.length ≠ bc.toNat →
      exec (.writeMultipleCoilsReq addr qty bc data) s = .next { s with out := .pdu [0x8F, 0x03] }) ∧
    (1 ≤ qty.toNat → qty.toNat ≤ 1968 → bc.toNat = (qty.toNat + 7) / 8 → data.length = bc.toNat →
      s.params.sizeCoils < addr.toNat + qty.toNat →
      exec (.writeMultipleCoilsReq addr qty bc data) s = .next { s with out := .pdu [0x8F, 0x02] }) ∧
    handleRequest (0x0F :: (be16 addr ++ be16 qty ++ bc :: data)) s = exec (.writeMultipleCoilsReq addr qty bc data) s ∧
    ∀ payload : Bytes, (0x0F :: payload).length < 6 →
      handleRequest (0x0F :: payload) s = .next { s with out := .fatalCall (.frameDecode .pduSize) }

/-- R240: WriteMultipleRegisters writes the addressed registers, all at once, and changes nothing else. -/
def Obligations.WriteMultipleRegistersWritesTheRange : Prop :=
  ∀ (addr qty : U16) (bc : Byte) (data : Bytes) (s : State),
    (1 ≤ qty.toNat → qty.toNat ≤ 123 → bc.toNat = 2 * qty.toNat → data.length = bc.toNat →
      addr.toNat + qty.toNat ≤ s.params.sizeHr →
      ∃ t, exec (.writeMultipleRegistersReq addr qty bc data) s = .next t ∧
        t.out = .pdu (0x10 :: (be16 addr ++ be16 qty)) ∧
        (∀ k, k < qty.toNat →
          (t.regAt .hr (addr.toNat + k)).toNat = (data.getD (2 * k) 0).toNat * 256 + (data.getD (2 * k + 1) 0).toNat) ∧
        (∀ a, a < addr.toNat ∨ addr.toNat + qty.toNat ≤ a → t.regAt .hr a = s.regAt .hr a) ∧
        t = { s with hr := t.hr, out := t.out }) ∧
    (qty.toNat < 1 ∨ 123 < qty.toNat ∨ bc.toNat ≠ 2 * qty.toNat ∨ data.length ≠ bc.toNat →
      exec (.writeMultipleRegistersReq addr qty bc data) s = .next { s with out := .pdu [0x90, 0x03] }) ∧
    (1 ≤ qty.toNat → qty.toNat ≤ 123 → bc.toNat = 2 * qty.toNat → data.length = bc.toNat →
      s.params.sizeHr < addr.toNat + qty.toNat →
      exec (.writeMultipleRegistersReq addr qty bc data) s = .next { s with out := .pdu [0x90, 0x02] }) ∧
    handleRequest (0x10 :: (be16 addr ++ be16 qty ++ bc :: data)) s =
      exec (.writeMultipleRegistersReq addr qty bc data) s ∧
    ∀ payload : Bytes, (0x10 :: payload).length < 6 →
      handleRequest (0x10 :: payload) s = .next { s with out := .fatalCall (.frameDecode .pduSize) }

/-- R247: a read function over the range a write function has just written returns the written values. -/
def Obligations.WriteThenReadReturnsTheWrittenValues : Prop :=
  ∀ (addr : U16) (s : State),
    (∀ value b, coilValue s.params.wscOther value = some b → addr.toNat < s.params.sizeCoils →
      ∃ t u, exec (.writeSingleCoilReq addr value) s = .next t ∧ exec (.readCoilsReq addr 1) t = .next u ∧
        u.out = .pdu [0x01, 0x01, if b then 0x01 else 0x00]) ∧
    (∀ value : U16, addr.toNat < s.params.sizeHr →
      ∃ t u, exec (.writeSingleRegisterReq addr value) s = .next t ∧
        exec (.readHoldingRegistersReq addr 1) t = .next u ∧ u.out = .pdu (0x03 :: 0x02 :: be16 value)) ∧
    (∀ (qty : U16) (bc : Byte) (data : Bytes), 1 ≤ qty.toNat → qty.toNat ≤ 1968 → bc.toNat = (qty.toNat + 7) / 8 →
      data.length = bc.toNat → addr.toNat + qty.toNat ≤ s.params.sizeCoils →
      ∃ t u, exec (.writeMultipleCoilsReq addr qty bc data) s = .next t ∧ exec (.readCoilsReq addr qty) t = .next u ∧
        u.out = .pdu (0x01 :: bc :: packBits (unpackBits data qty.toNat))) ∧
    ∀ (qty : U16) (bc : Byte) (data : Bytes), 1 ≤ qty.toNat → qty.toNat ≤ 123 → bc.toNat = 2 * qty.toNat →
      data.length = bc.toNat → addr.toNat + qty.toNat ≤ s.params.sizeHr →
      ∃ t u, exec (.writeMultipleRegistersReq addr qty bc data) s = .next t ∧
        exec (.readHoldingRegistersReq addr qty) t = .next u ∧ u.out = .pdu (0x03 :: bc :: data)

/-! ### Response parsers (45_response_parsers.md) -/

/-- R301: ParseReadBits for the two bit reads. -/
def Obligations.ParseReadBitsReturnsTheValues : Prop :=
  ∀ (bc : Byte) (data : Bytes) (req : SentRequest) (i : Instr) (s : State),
    (i = .readCoilsRsp bc data ∧ req.fc = .readCoils) ∨
      (i = .readDiscreteInputsRsp bc data ∧ req.fc = .readDiscreteInputs) →
    s.sent = some req →
    (data.length = bc.toNat → bc.toNat = (req.qty.toNat + 7) / 8 →
      exec i s = .next { s with out := .bits ((List.range req.qty.toNat).map fun k =>
        (data.getD (k / 8) 0).getLsbD (k % 8)) }) ∧
    (data.length ≠ bc.toNat → exec i s = .next { s with out := .error (.frameDecode .pduSize) }) ∧
    (data.length = bc.toNat → bc.toNat ≠ (req.qty.toNat + 7) / 8 →
      exec i s = .next { s with out := .error (.frameDecode .byteCount) }) ∧
    parseResponse req [req.fc.code] s = .next { s with out := .error (.frameDecode .pduSize) }

/-- R302: ParseReadRegs for the two register reads. -/
def Obligations.ParseReadRegsReturnsTheValues : Prop :=
  ∀ (bc : Byte) (data : Bytes) (req : SentRequest) (i : Instr) (s : State),
    (i = .readHoldingRegistersRsp bc data ∧ req.fc = .readHoldingRegisters) ∨
      (i = .readInputRegistersRsp bc data ∧ req.fc = .readInputRegisters) →
    s.sent = some req →
    (data.length = bc.toNat → bc.toNat = 2 * req.qty.toNat →
      exec i s = .next { s with out := .regs ((List.range req.qty.toNat).map fun k =>
        word16 (data.getD (2 * k) 0) (data.getD (2 * k + 1) 0)) }) ∧
    (data.length ≠ bc.toNat → exec i s = .next { s with out := .error (.frameDecode .pduSize) }) ∧
    (data.length = bc.toNat → bc.toNat ≠ 2 * req.qty.toNat →
      exec i s = .next { s with out := .error (.frameDecode .byteCount) }) ∧
    parseResponse req [req.fc.code] s = .next { s with out := .error (.frameDecode .pduSize) }

/-- R303: ParseWriteSingle checks the echoed address and value. -/
def Obligations.ParseWriteSingleChecksTheEcho : Prop :=
  ∀ (addr value : U16) (req : SentRequest) (i : Instr) (s : State),
    (i = .writeSingleCoilRsp addr value ∧ req.fc = .writeSingleCoil) ∨
      (i = .writeSingleRegisterRsp addr value ∧ req.fc = .writeSingleRegister) →
    s.sent = some req →
    (addr = req.addr → value = req.wireValue → exec i s = .next { s with out := .fields addr value }) ∧
    (addr ≠ req.addr ∨ value ≠ req.wireValue →
      exec i s = .next { s with out := .error (.networkReceive .echoMismatch) }) ∧
    ∀ payload : Bytes, (req.fc.code :: payload).length ≠ 5 →
      parseResponse req (req.fc.code :: payload) s = .next { s with out := .error (.frameDecode .pduSize) }

/-- R304: ParseWriteMultiple checks the echoed address and quantity. -/
def Obligations.ParseWriteMultipleChecksTheEcho : Prop :=
  ∀ (addr qty : U16) (req : SentRequest) (i : Instr) (s : State),
    (i = .writeMultipleCoilsRsp addr qty ∧ req.fc = .writeMultipleCoils) ∨
      (i = .writeMultipleRegistersRsp addr qty ∧ req.fc = .writeMultipleRegisters) →
    s.sent = some req →
    (addr = req.addr → qty = req.qty → exec i s = .next { s with out := .fields addr qty }) ∧
    (addr ≠ req.addr ∨ qty ≠ req.qty →
      exec i s = .next { s with out := .error (.networkReceive .echoMismatch) }) ∧
    ∀ payload : Bytes, (req.fc.code :: payload).length ≠ 5 →
      parseResponse req (req.fc.code :: payload) s = .next { s with out := .error (.frameDecode .pduSize) }

/-- R296: an exception PDU of two bytes reports its code as received; another size is an ExceptionSize error. -/
def Obligations.ParseExceptionReportsTheCode : Prop :=
  ∀ (function : BitVec 7) (code : Byte) (req : SentRequest) (s : State),
    exec (.exceptionRsp function code) s = .next { s with out := .error (.modbusException code) } ∧
    parseResponse req [1#1 ++ function, code] s =
      .next { s with out := .error (.modbusException code), sent := none } ∧
    ∀ payload : Bytes, ((1#1 ++ function : Byte) :: payload).length ≠ 2 →
      parseResponse req ((1#1 ++ function) :: payload) s =
        .next { s with out := .error (.frameDecode .exceptionSize) }

/-- R291: which parser a response PDU reaches: an empty PDU none, an exception PDU ParseException whatever its low bits, a
response of another function none, whatever its size, and a response of the request's function that function's parser. -/
def Obligations.ParseResponseSelectsTheParser : Prop :=
  ∀ (req : SentRequest) (s : State),
    parseResponse req [] s = .next { s with out := .error (.frameDecode .emptyPdu) } ∧
    (∀ (f : Byte) (payload : Bytes), f &&& 0x80 = 0 → f ≠ req.fc.code →
      ∃ t, parseResponse req (f :: payload) s = .next t ∧ t.out = .error (.frameDecode .fcMismatch) ∧
        t = { s with out := t.out, sent := t.sent }) ∧
    (∀ (f code : Byte), f &&& 0x80 ≠ 0 →
      ∃ t, parseResponse req [f, code] s = .next t ∧ t.out = .error (.modbusException code) ∧
        t = { s with out := t.out, sent := t.sent }) ∧
    (∀ (bc : Byte) (data : Bytes),
      (req.fc = .readCoils ∨ req.fc = .readDiscreteInputs →
        ∃ t, parseResponse req (req.fc.code :: bc :: data) s = .next t ∧ t.out = parseReadBits bc data req ∧
          t = { s with out := t.out, sent := t.sent }) ∧
      (req.fc = .readHoldingRegisters ∨ req.fc = .readInputRegisters →
        ∃ t, parseResponse req (req.fc.code :: bc :: data) s = .next t ∧ t.out = parseReadRegs bc data req ∧
          t = { s with out := t.out, sent := t.sent })) ∧
    ∀ first second : U16,
      (req.fc = .writeSingleCoil ∨ req.fc = .writeSingleRegister →
        ∃ t, parseResponse req (req.fc.code :: (be16 first ++ be16 second)) s = .next t ∧
          t.out = parseWriteSingle first second req ∧ t = { s with out := t.out, sent := t.sent }) ∧
      (req.fc = .writeMultipleCoils ∨ req.fc = .writeMultipleRegisters →
        ∃ t, parseResponse req (req.fc.code :: (be16 first ++ be16 second)) s = .next t ∧
          t.out = parseWriteMultiple first second req ∧ t = { s with out := t.out, sent := t.sent })

/-- The model's own stop (log entry 4): a normal response has no meaning without the request it answers, and with one of
another function it is an FcMismatch. -/
def Obligations.ResponseWithoutItsRequestIsNotParsed : Prop :=
  ∀ (i : Instr) (s : State), i.direction = .response → (∀ f c, i ≠ .exceptionRsp f c) →
    (s.sent = none → exec i s = .refused .noSentRequest) ∧
    ∀ req, s.sent = some req → (encode i).head? ≠ some req.fc.code →
      exec i s = .next { s with out := .error (.frameDecode .fcMismatch) }

/-- R290: the header of a response frame against the request's transaction ID and the configured unit ID. -/
def Obligations.ReceiveResponseChecksTheHeader : Prop :=
  ∀ (bytes : Bytes) (sentTid : U16) (cfgUid : Byte),
    (∀ e, decodeFrame bytes = .error e → receiveResponse bytes sentTid cfgUid = .error e) ∧
    ∀ h pdu rest, decodeFrame bytes = .ok (h, pdu, rest) →
      (h.tid ≠ sentTid → receiveResponse bytes sentTid cfgUid = .error (.networkReceive .tidMismatch)) ∧
      (h.tid = sentTid → h.uid ≠ cfgUid →
        receiveResponse bytes sentTid cfgUid = .error (.networkReceive .uidMismatch)) ∧
      (h.tid = sentTid → h.uid = cfgUid → receiveResponse bytes sentTid cfgUid = .ok (pdu, rest))

/-! ### Request builders (44_request_builders.md) -/

/-- R260: the argument check, in its order. -/
def Obligations.CheckRangeOrdersItsErrors : Prop :=
  ∀ addr n nmax : Int,
    (addr < 0 ∨ 65535 < addr → checkRange addr n nmax = .error (.validation .address)) ∧
    (0 ≤ addr → addr ≤ 65535 → n < 1 ∨ nmax < n → checkRange addr n nmax = .error (.validation .count)) ∧
    (0 ≤ addr → addr ≤ 65535 → 1 ≤ n → n ≤ nmax → 65536 < addr + n →
      checkRange addr n nmax = .error (.validation .span)) ∧
    (0 ≤ addr → addr ≤ 65535 → 1 ≤ n → n ≤ nmax → addr + n ≤ 65536 → checkRange addr n nmax = .ok ())

/-- R262, R263, R264: the builders of the four reads, each with its limit. -/
def Obligations.ReadBuildersPackTheRequest : Prop :=
  ∀ (build : Int → Int → Except CodecError Bytes) (limit : Int) (request : U16 → U16 → Instr) (addr qty : Int),
    (build = buildReadCoils ∧ limit = 2000 ∧ request = .readCoilsReq) ∨
      (build = buildReadDiscreteInputs ∧ limit = 2000 ∧ request = .readDiscreteInputsReq) ∨
      (build = buildReadHoldingRegisters ∧ limit = 125 ∧ request = .readHoldingRegistersReq) ∨
      (build = buildReadInputRegisters ∧ limit = 125 ∧ request = .readInputRegistersReq) →
    (∀ e, checkRange addr qty limit = .error e → build addr qty = .error e) ∧
    (checkRange addr qty limit = .ok () →
      build addr qty = .ok (encode (request (BitVec.ofInt 16 addr) (BitVec.ofInt 16 qty))))

/-- R265, R266: the builders of the two single writes; an integer coil value is passed through unchanged. -/
def Obligations.SingleWriteBuildersPackTheRequest : Prop :=
  ∀ (addr v : Int),
    (∀ e, checkRange addr 1 1 = .error e →
      (∀ value, buildWriteSingleCoil addr value = .error e) ∧ buildWriteSingleRegister addr v = .error e) ∧
    (checkRange addr 1 1 = .ok () →
      buildWriteSingleCoil addr (.bool true) = .ok (encode (.writeSingleCoilReq (BitVec.ofInt 16 addr) 0xFF00)) ∧
      buildWriteSingleCoil addr (.bool false) = .ok (encode (.writeSingleCoilReq (BitVec.ofInt 16 addr) 0x0000)) ∧
      (0 ≤ v → v ≤ 65535 →
        buildWriteSingleCoil addr (.int v) =
          .ok (encode (.writeSingleCoilReq (BitVec.ofInt 16 addr) (BitVec.ofInt 16 v))) ∧
        buildWriteSingleRegister addr v =
          .ok (encode (.writeSingleRegisterReq (BitVec.ofInt 16 addr) (BitVec.ofInt 16 v)))) ∧
      (v < 0 ∨ 65535 < v →
        buildWriteSingleCoil addr (.int v) = .error (.frameEncode v 16) ∧
        buildWriteSingleRegister addr v = .error (.frameEncode v 16)))

/-- R267, R268: the builders of the two multiple writes; the first register value out of width is reported. -/
def Obligations.MultipleWriteBuildersPackTheRequest : Prop :=
  ∀ (addr : Int) (bits : List Bool) (values : List Int),
    (∀ e, checkRange addr bits.length 1968 = .error e → buildWriteMultipleCoils addr bits = .error e) ∧
    (checkRange addr bits.length 1968 = .ok () →
      buildWriteMultipleCoils addr bits = .ok (encode (.writeMultipleCoilsReq (BitVec.ofInt 16 addr)
        (BitVec.ofNat 16 bits.length) (BitVec.ofNat 8 ((bits.length + 7) / 8)) (packBits bits)))) ∧
    (∀ e, checkRange addr values.length 123 = .error e → buildWriteMultipleRegisters addr values = .error e) ∧
    (checkRange addr values.length 123 = .ok () →
      ((∀ v ∈ values, 0 ≤ v ∧ v ≤ 65535) →
        buildWriteMultipleRegisters addr values = .ok (encode (.writeMultipleRegistersReq (BitVec.ofInt 16 addr)
          (BitVec.ofNat 16 values.length) (BitVec.ofNat 8 (2 * values.length))
          (packRegs (values.map (BitVec.ofInt 16)))))) ∧
      ∀ (before after : List Int) (v : Int), values = before ++ v :: after → (∀ w ∈ before, 0 ≤ w ∧ w ≤ 65535) →
        v < 0 ∨ 65535 < v → buildWriteMultipleRegisters addr values = .error (.frameEncode v 16))

/-- R270: every PDU a builder returns is a request the handler decodes; it is answered 02 only when its range exceeds the
server's size, and 03 only for a coil value that the server's WSC_OTHER rejects. -/
def Obligations.BuiltRequestsAreAccepted : Prop :=
  ∀ (call : BuildCall) (pdu : Bytes) (s : State), buildRequest call = .ok pdu →
    (∃ i, decodeRequest pdu = .ok i ∧ i.WellFormed ∧ handleRequest pdu s = exec i s) ∧
    ∃ t r, handleRequest pdu s = .next t ∧ t.out = .pdu r ∧
      (hasExceptionBit (r.headD 0) = true →
        (r = [(sentRequest call).fc.code ||| 0x80, 0x02] ∧
          (match (sentRequest call).fc with
            | .readCoils | .writeSingleCoil | .writeMultipleCoils => s.params.sizeCoils
            | .readDiscreteInputs => s.params.sizeDi
            | .readHoldingRegisters | .writeSingleRegister | .writeMultipleRegisters => s.params.sizeHr
            | .readInputRegisters => s.params.sizeIr) < (sentRequest call).addr.toNat + (sentRequest call).qty.toNat) ∨
        (r = [0x85, 0x03] ∧ s.params.wscOther = .reject03 ∧ (sentRequest call).fc = .writeSingleCoil ∧
          (sentRequest call).wireValue ≠ 0xFF00 ∧ (sentRequest call).wireValue ≠ 0x0000))

/-- R306: a whole exchange. The parser of a built request's response gives a read's values as they were, a write's two
fields, or the handler's exception code, and never a frame or network error. -/
def Obligations.WholeExchangeRoundTrip : Prop :=
  ∀ (call : BuildCall) (pdu : Bytes) (s : State), buildRequest call = .ok pdu →
    ∃ t r u, handleRequest pdu s = .next t ∧ t.out = .pdu r ∧ parseResponse (sentRequest call) r t = .next u ∧
      (let q := sentRequest call
       (∃ c, r = [q.fc.code ||| 0x80, c] ∧ u.out = .error (.modbusException c)) ∨
       (hasExceptionBit (r.headD 0) = false ∧
         match q.fc with
         | .readCoils => u.out = .bits ((List.range q.qty.toNat).map fun k => s.bitAt .coils (q.addr.toNat + k))
         | .readDiscreteInputs => u.out = .bits ((List.range q.qty.toNat).map fun k => s.bitAt .di (q.addr.toNat + k))
         | .readHoldingRegisters => u.out = .regs ((List.range q.qty.toNat).map fun k => s.regAt .hr (q.addr.toNat + k))
         | .readInputRegisters => u.out = .regs ((List.range q.qty.toNat).map fun k => s.regAt .ir (q.addr.toNat + k))
         | .writeSingleCoil | .writeSingleRegister => u.out = .fields q.addr q.wireValue
         | .writeMultipleCoils | .writeMultipleRegisters => u.out = .fields q.addr q.qty))

/-! ### Frames (40_frame_codec.md) -/

/-- R150: decodeMBAP checks the size, then the protocol ID, then the length, and nothing else. -/
def Obligations.DecodeMbapChecksProtocolAndLength : Prop :=
  (∀ b : Bytes, b.length ≠ 7 → decodeMBAP b = .error (.frameDecode .headerSize)) ∧
  ∀ (tid pid len : U16) (uid : Byte),
    (pid ≠ 0 → decodeMBAP (be16 tid ++ be16 pid ++ be16 len ++ [uid]) = .error (.malformedHeader .badProtocolId)) ∧
    (pid = 0 → len.toNat < 3 ∨ 256 < len.toNat →
      decodeMBAP (be16 tid ++ be16 pid ++ be16 len ++ [uid]) = .error (.malformedHeader .badLength)) ∧
    (pid = 0 → 3 ≤ len.toNat → len.toNat ≤ 256 →
      decodeMBAP (be16 tid ++ be16 pid ++ be16 len ++ [uid]) = .ok ⟨tid, pid, len, uid⟩)

/-- R151, R152: encodeMBAP checks widths only, in field order, and packs big-endian u16, u16, u16, u8. -/
def Obligations.EncodeMbapChecksWidthsOnly : Prop :=
  ∀ tid pid len uid : Int,
    (¬ (0 ≤ tid ∧ tid ≤ 65535) → encodeMBAP tid pid len uid = .error (.frameEncode tid 16)) ∧
    ((0 ≤ tid ∧ tid ≤ 65535) → ¬ (0 ≤ pid ∧ pid ≤ 65535) →
      encodeMBAP tid pid len uid = .error (.frameEncode pid 16)) ∧
    ((0 ≤ tid ∧ tid ≤ 65535) → (0 ≤ pid ∧ pid ≤ 65535) → ¬ (0 ≤ len ∧ len ≤ 65535) →
      encodeMBAP tid pid len uid = .error (.frameEncode len 16)) ∧
    ((0 ≤ tid ∧ tid ≤ 65535) → (0 ≤ pid ∧ pid ≤ 65535) → (0 ≤ len ∧ len ≤ 65535) → ¬ (0 ≤ uid ∧ uid ≤ 255) →
      encodeMBAP tid pid len uid = .error (.frameEncode uid 8)) ∧
    ((0 ≤ tid ∧ tid ≤ 65535) → (0 ≤ pid ∧ pid ≤ 65535) → (0 ≤ len ∧ len ≤ 65535) → (0 ≤ uid ∧ uid ≤ 255) →
      encodeMBAP tid pid len uid = .ok (be16 (BitVec.ofInt 16 tid) ++ be16 (BitVec.ofInt 16 pid) ++
        be16 (BitVec.ofInt 16 len) ++ [BitVec.ofInt 8 uid]))

/-- R155: decodeFrame takes exactly one frame off the front, or raises. -/
def Obligations.DecodeFrameTakesOneFrame : Prop :=
  ∀ s : Bytes,
    (s.length < 7 → decodeFrame s = .error (.frameDecode .truncated)) ∧
    (7 ≤ s.length →
      (∀ e, decodeMBAP (s.take 7) = .error e → decodeFrame s = .error e) ∧
      ∀ h, decodeMBAP (s.take 7) = .ok h →
        (s.length < 7 + (h.len.toNat - 1) → decodeFrame s = .error (.frameDecode .truncated)) ∧
        (7 + (h.len.toNat - 1) ≤ s.length → ∃ pdu rest, decodeFrame s = .ok (h, pdu, rest) ∧
          s.take 7 ++ pdu ++ rest = s ∧ pdu.length = h.len.toNat - 1 ∧ 2 ≤ pdu.length ∧ pdu.length ≤ 255))

/-- R153, R156: the header round trip and the frame round trip; bytes after the frame are left as they are (R155). -/
def Obligations.FrameRoundTrip : Prop :=
  (∀ tid len uid : Int, 0 ≤ tid → tid ≤ 65535 → 3 ≤ len → len ≤ 256 → 0 ≤ uid → uid ≤ 255 →
    ∃ b, encodeMBAP tid 0 len uid = .ok b ∧
      decodeMBAP b = .ok ⟨BitVec.ofInt 16 tid, 0, BitVec.ofInt 16 len, BitVec.ofInt 8 uid⟩) ∧
  ∀ (tid uid : Int) (pdu tail : Bytes), 0 ≤ tid → tid ≤ 65535 → 0 ≤ uid → uid ≤ 255 → 2 ≤ pdu.length →
    pdu.length ≤ 255 →
    ∃ f, encodeFrame tid uid pdu = .ok f ∧
      decodeFrame (f ++ tail) =
        .ok (⟨BitVec.ofInt 16 tid, 0, BitVec.ofNat 16 (pdu.length + 1), BitVec.ofInt 8 uid⟩, pdu, tail)

/-- R160, R161: the exception builder over integers: bit 7 set, bits 6:0 kept, any u8 code packed. -/
def Obligations.BuildExceptionSetsBitSeven : Prop :=
  ∀ fc exc : Int,
    (fc < 0 ∨ 255 < fc → buildException fc exc = .error (.frameEncode fc 8)) ∧
    (0 ≤ fc → fc ≤ 255 → exc < 0 ∨ 255 < exc → buildException fc exc = .error (.frameEncode exc 8)) ∧
    (0 ≤ fc → fc ≤ 255 → 0 ≤ exc → exc ≤ 255 →
      buildException fc exc = .ok [BitVec.ofInt 8 fc ||| 0x80, BitVec.ofInt 8 exc] ∧
      (∀ k, k < 7 → (BitVec.ofInt 8 fc ||| 0x80).getLsbD k = (BitVec.ofInt 8 fc).getLsbD k) ∧
      buildException fc exc = buildException (BitVec.ofInt 8 fc ||| 0x80).toNat exc)

/-! ### The store (20_memory.md) and the device side -/

/-- R70 with R69 and R71: MemRead by the device side, on each of the four spaces. -/
def Obligations.MemReadSelectsTheRange : Prop :=
  ∀ (s : State) (a n : Int) (rest : List Action),
    (∀ sp, s.inbox = .readBits sp a n :: rest →
      (n < 1 → step s = .refused .emptyAccess) ∧
      (0 ≤ a → 1 ≤ n → a + n ≤ bitSize s.params sp →
        step s = .next { s with
          inbox := rest, out := .bits ((List.range n.toNat).map fun k => s.bitAt sp (a.toNat + k)) }) ∧
      (1 ≤ n → a < 0 ∨ bitSize s.params sp < a + n →
        step s = .next { s with inbox := rest, out := .error (.addressError sp.space a n) })) ∧
    ∀ sp, s.inbox = .readRegs sp a n :: rest →
      (n < 1 → step s = .refused .emptyAccess) ∧
      (0 ≤ a → 1 ≤ n → a + n ≤ regSize s.params sp →
        step s = .next { s with
          inbox := rest, out := .regs ((List.range n.toNat).map fun k => s.regAt sp (a.toNat + k)) }) ∧
      (1 ≤ n → a < 0 ∨ regSize s.params sp < a + n →
        step s = .next { s with inbox := rest, out := .error (.addressError sp.space a n) })

/-- R80, R81: MemWrite by the device side on COILS and DI: all entries of the range or none, and nothing else. -/
def Obligations.MemWriteBitsIsAllOrNothing : Prop :=
  ∀ (s : State) (sp : BitSpace) (a : Int) (vals : List Bool) (rest : List Action),
    s.inbox = .writeBits sp a vals :: rest →
    (vals = [] → step s = .refused .emptyAccess) ∧
    (vals ≠ [] → a < 0 ∨ bitSize s.params sp < a + vals.length →
      step s = .next { s with inbox := rest, out := .error (.addressError sp.space a vals.length) }) ∧
    (vals ≠ [] → 0 ≤ a → a + vals.length ≤ bitSize s.params sp →
      ∃ t, step s = .next t ∧ t.out = .ok ∧ t.inbox = rest ∧
        (∀ k, ∀ h : k < vals.length, t.bitAt sp (a.toNat + k) = vals[k]) ∧
        (∀ c, c < a.toNat ∨ a.toNat + vals.length ≤ c → t.bitAt sp c = s.bitAt sp c) ∧
        (∀ sp' c, sp' ≠ sp → t.bitAt sp' c = s.bitAt sp' c) ∧
        t.hr = s.hr ∧ t.ir = s.ir ∧ t.params = s.params ∧ t.conns = s.conns ∧ t.held = s.held ∧ t.sent = s.sent)

/-- R80, R81: MemWrite by the device side on HR and IR. -/
def Obligations.MemWriteRegsIsAllOrNothing : Prop :=
  ∀ (s : State) (sp : RegSpace) (a : Int) (vals : List U16) (rest : List Action),
    s.inbox = .writeRegs sp a vals :: rest →
    (vals = [] → step s = .refused .emptyAccess) ∧
    (vals ≠ [] → a < 0 ∨ regSize s.params sp < a + vals.length →
      step s = .next { s with inbox := rest, out := .error (.addressError sp.space a vals.length) }) ∧
    (vals ≠ [] → 0 ≤ a → a + vals.length ≤ regSize s.params sp →
      ∃ t, step s = .next t ∧ t.out = .ok ∧ t.inbox = rest ∧
        (∀ k, ∀ h : k < vals.length, t.regAt sp (a.toNat + k) = vals[k]) ∧
        (∀ c, c < a.toNat ∨ a.toNat + vals.length ≤ c → t.regAt sp c = s.regAt sp c) ∧
        (∀ sp' c, sp' ≠ sp → t.regAt sp' c = s.regAt sp' c) ∧
        t.coils = s.coils ∧ t.di = s.di ∧ t.params = s.params ∧ t.conns = s.conns ∧ t.held = s.held ∧ t.sent = s.sent)

/-- R83: a MemWrite that returns ok, then a MemRead of the same range, gives the written values. -/
def Obligations.MemWriteThenMemReadReturnsTheValues : Prop :=
  (∀ (s t : State) (sp : BitSpace) (a : Int) (vals : List Bool) (rest : List Action),
    s.inbox = .writeBits sp a vals :: .readBits sp a vals.length :: rest → step s = .next t → t.out = .ok →
    ∃ u, step t = .next u ∧ u.out = .bits vals) ∧
  ∀ (s t : State) (sp : RegSpace) (a : Int) (vals : List U16) (rest : List Action),
    s.inbox = .writeRegs sp a vals :: .readRegs sp a vals.length :: rest → step s = .next t → t.out = .ok →
    ∃ u, step t = .next u ∧ u.out = .regs vals

/-! ### The machine -/

/-- A step runs the decoded instruction: on a ServerStep, a direct HandleRequest and a ParseResponse, the step is `exec` of
what the bytes decode to, with the frame taken off and the response framed, or the sent request held for the step. The
clauses on `serveHeld`, `handleRequestHeld` and `handBack` are the model's choice and no rule of the spec: that these actions end
with any response held, more than R366 asks, is log entry 10 (DEDUCED), and that held responses stand in a list of the model's own
and are handed back from any place of it is log entry 19 (DESIGN CHOICE). -/
def Obligations.StepRunsTheDecodedInstruction : Prop :=
  ∀ (s : State) (rest : List Action) (i : Instr),
    (∀ c received h pdu tail, s.inbox = .serve c :: rest → c ∉ s.awaiting → Table.get? s.conns c = some received →
      decodeFrame received = .ok (h, pdu, tail) → decode .request pdu = .ok i →
      step s = mapNext (concludeServe c h)
        (exec i { s with inbox := rest, conns := Table.insert s.conns c tail })) ∧
    (∀ pdu, s.inbox = .handleRequest pdu :: rest → decode .request pdu = .ok i →
      step s = exec i { s with inbox := rest }) ∧
    (∀ req pdu, s.inbox = .parse req pdu :: rest → decode .response pdu = .ok i →
      step s = mapNext State.forgetSent (exec i { s with inbox := rest, sent := some req })) ∧
    (∀ c frame t, s.inbox = .serveHeld c :: rest → step { s with inbox := .serve c :: rest } = .next t →
      t.out = .response c frame → step s = .next { t with held := t.held ++ [.response c frame], out := .none }) ∧
    (∀ pdu r t, s.inbox = .handleRequestHeld pdu :: rest → step { s with inbox := .handleRequest pdu :: rest } = .next t →
      t.out = .pdu r → step s = .next { t with held := t.held ++ [.pdu r], out := .none }) ∧
    (∀ c pdu t a b, (a = .serve c ∧ b = .serveHeld c) ∨ (a = .handleRequest pdu ∧ b = .handleRequestHeld pdu) →
      s.inbox = b :: rest → step { s with inbox := a :: rest } = .next t → (∀ d frame, t.out ≠ .response d frame) →
      (∀ r, t.out ≠ .pdu r) → step s = .next t) ∧
    ∀ k x, s.inbox = .handBack k :: rest → s.held[k]? = some x →
      step s = .next { s with inbox := rest, held := s.held.eraseIdx k, out := x.output }

/-- R175, R157: a ServerStep on an open connection whose agent holds no response always has a next state. A frame that does
not decode is fatal: no response, the connection is closed, nothing else changes. A fatal end of HandleRequest is fatal the same way and no register
changes. Else the step answers with a frame whose header echoes the transaction ID and the unit ID, has protocol ID 0 and
the response's own length, around the PDU that HandleRequest gives, and keeps the bytes after the request. -/
def Obligations.ServerStepRespondsOrCloses : Prop :=
  ∀ (s : State) (c : Nat) (received : Bytes) (rest : List Action),
    s.inbox = .serve c :: rest → c ∉ s.awaiting → Table.get? s.conns c = some received →
    (∀ e, decodeFrame received = .error e →
      step s = .next { s with inbox := rest, conns := Table.erase s.conns c, out := .fatal c e }) ∧
    ∀ h pdu tail, decodeFrame received = .ok (h, pdu, tail) →
      ∃ t u, step s = .next t ∧ t.inbox = rest ∧ handleRequest pdu { s with inbox := rest } = .next u ∧
        ((∃ e, u.out = .fatalCall e ∧ t.out = .fatal c e ∧ Table.get? t.conns c = none ∧
            t.coils = s.coils ∧ t.di = s.di ∧ t.hr = s.hr ∧ t.ir = s.ir) ∨
          (∃ r, u.out = .pdu r ∧ 2 ≤ r.length ∧ r.length ≤ 252 ∧
            t.out = .response c (be16 h.tid ++ be16 0 ++ be16 (BitVec.ofNat 16 (r.length + 1)) ++ [h.uid] ++ r) ∧
            Table.get? t.conns c = some tail ∧
            t.coils = u.coils ∧ t.di = u.di ∧ t.hr = u.hr ∧ t.ir = u.ir))

/-- R330: which fault of a frame a ServerStep reports first, items 1 to 4 and 6 (all fatal) before any answer. -/
def Obligations.FrameFaultsAreReportedInOrder : Prop :=
  ∀ (s : State) (c : Nat) (received : Bytes) (rest : List Action),
    s.inbox = .serve c :: rest → c ∉ s.awaiting → Table.get? s.conns c = some received →
    (received.length < 7 →
      step s = .next { s with
        inbox := rest, conns := Table.erase s.conns c, out := .fatal c (.frameDecode .truncated) }) ∧
    ∀ (tid pid len : U16) (uid : Byte) (body : Bytes),
      received = be16 tid ++ be16 pid ++ be16 len ++ [uid] ++ body →
      (pid ≠ 0 →
        step s = .next { s with
          inbox := rest, conns := Table.erase s.conns c, out := .fatal c (.malformedHeader .badProtocolId) }) ∧
      (pid = 0 → len.toNat < 3 ∨ 256 < len.toNat →
        step s = .next { s with
          inbox := rest, conns := Table.erase s.conns c, out := .fatal c (.malformedHeader .badLength) }) ∧
      (pid = 0 → 3 ≤ len.toNat → len.toNat ≤ 256 → body.length < len.toNat - 1 →
        step s = .next { s with
          inbox := rest, conns := Table.erase s.conns c, out := .fatal c (.frameDecode .truncated) }) ∧
      (pid = 0 → 3 ≤ len.toNat → len.toNat ≤ 256 → len.toNat - 1 ≤ body.length →
        ∀ cause, decode .request (body.take (len.toNat - 1)) = .error (.frame cause) →
          ∃ t, step s = .next t ∧ t.out = .fatal c (.frameDecode cause) ∧ Table.get? t.conns c = none ∧
            t = { s with inbox := rest, conns := t.conns, out := t.out })

/-- R351: what happens on one connection leaves every other connection as it is, and a fatal end changes no
register. That another connection keeps the response it may hold, and `serveHeld`, are of the model's own making (log entries 10
and 19). -/
def Obligations.OtherConnectionsAreNotAffected : Prop :=
  ∀ (s t : State) (c d : Nat) (rest : List Action), s.inbox = .serve c :: rest ∨ s.inbox = .serveHeld c :: rest →
    step s = .next t → d ≠ c →
    Table.get? t.conns d = Table.get? s.conns d ∧
    t.held.filter (fun x => x.conn? == some d) = s.held.filter (fun x => x.conn? == some d) ∧
    ∀ e, t.out = .fatal c e → t.coils = s.coils ∧ t.di = s.di ∧ t.hr = s.hr ∧ t.ir = s.ir

/-- R362: opening a connection starts an agent with no bytes, closing it leaves no state, bytes are appended as they come,
and none of the three touches a register file. The rest is the model's choice (log entries 11 and 19): what is done to a
connection that is not open, a turn of an agent that still holds a response (R365), and handing back where nothing is held
pass with no effect. -/
def Obligations.ConnectionsOpenFillAndClose : Prop :=
  ∀ (s : State) (c : Nat) (bytes : Bytes) (rest : List Action),
    (s.inbox = .accept c :: rest → Table.get? s.conns c = none → (∀ n ∈ s.params.nAgents, s.conns.length < n) →
      step s = .next { s with inbox := rest, conns := Table.insert s.conns c [], out := .none }) ∧
    (s.inbox = .close c :: rest →
      step s = .next { s with
        inbox := rest, conns := Table.erase s.conns c, held := s.held.filter fun x => x.conn? != some c
        out := .none }) ∧
    (∀ received, s.inbox = .deliver c bytes :: rest → Table.get? s.conns c = some received →
      step s = .next { s with inbox := rest, conns := Table.insert s.conns c (received ++ bytes), out := .none }) ∧
    (s.inbox = .deliver c bytes :: rest ∨ s.inbox = .serve c :: rest ∨ s.inbox = .serveHeld c :: rest →
      Table.get? s.conns c = none → step s = .next { s with inbox := rest, out := .none }) ∧
    (s.inbox = .close c :: rest → Table.get? s.conns c = none → c ∉ s.awaiting →
      step s = .next { s with inbox := rest, out := .none }) ∧
    (s.inbox = .serve c :: rest ∨ s.inbox = .serveHeld c :: rest → c ∈ s.awaiting →
      step s = .next { s with inbox := rest, out := .none }) ∧
    ∀ k, s.inbox = .handBack k :: rest → s.held.length ≤ k → step s = .next { s with inbox := rest, out := .none }

/-- R82: no request changes a discrete input or an input register, through either entry to the handler, with the
response held or not. -/
def Obligations.NetworkNeverWritesInputs : Prop :=
  ∀ (s t : State) (rest : List Action),
    (∃ c, s.inbox = .serve c :: rest ∨ s.inbox = .serveHeld c :: rest) ∨
      (∃ pdu, s.inbox = .handleRequest pdu :: rest ∨ s.inbox = .handleRequestHeld pdu :: rest) → step s = .next t →
    t.di = s.di ∧ t.ir = s.ir

/-- R32: the parameters fixed at construction never change. -/
def Obligations.ParametersNeverChange : Prop :=
  ∀ s t : State, step s = .next t → t.params = s.params

/-- R340: an operation that ends in an error has written nothing: after a typed error, a fatal end or an exception PDU
every register file is as it was, whatever the action (a held response is no error: its write came before it was held). -/
def Obligations.ErrorsWriteNothing : Prop :=
  ∀ (s t : State) (a : Action) (rest : List Action), s.inbox = a :: rest → step s = .next t →
    ((∃ e, t.out = .error e) ∨ (∃ e, t.out = .fatalCall e) ∨ (∃ c e, t.out = .fatal c e) ∨
      (∃ f e, t.out = .pdu [f, e] ∧ f.getLsbD 7 = true) ∨
      (∃ c header f e, t.out = .response c (header ++ [f, e]) ∧ header.length = 7 ∧ f.getLsbD 7 = true)) →
    t.coils = s.coils ∧ t.di = s.di ∧ t.hr = s.hr ∧ t.ir = s.ir

/-- R179, R327: the handler's exception responses are two bytes, the request's code with bit 7, and 01, 02 or 03. -/
def Obligations.HandlerExceptionsAreOneTwoOrThree : Prop :=
  ∀ (b : Byte) (payload : Bytes) (s t : State) (r : Bytes), handleRequest (b :: payload) s = .next t → t.out = .pdu r →
    hasExceptionBit (r.headD 0) = true →
    ∃ code : Byte, r = [b ||| 0x80, code] ∧ (code = 0x01 ∨ code = 0x02 ∨ code = 0x03)

/-- R182: HandleRequest is a function of its PDU, the parameters and the register files: two states that agree on these
give the same response and agree on them afterwards. -/
def Obligations.HandleRequestDependsOnTheStoreOnly : Prop :=
  ∀ (pdu : Bytes) (s₁ s₂ : State), s₁.params = s₂.params → s₁.coils = s₂.coils → s₁.di = s₂.di → s₁.hr = s₂.hr →
    s₁.ir = s₂.ir →
    ∃ t₁ t₂, handleRequest pdu s₁ = .next t₁ ∧ handleRequest pdu s₂ = .next t₂ ∧ t₁.out = t₂.out ∧
      t₁.coils = t₂.coils ∧ t₁.di = t₂.di ∧ t₁.hr = t₂.hr ∧ t₁.ir = t₂.ir

/-! ### Reset and the invariant -/

/-- R34 to R37, R360: construction with any parameters and any INIT: every entry of each file holds its INIT value, and no
connection is open and no action pending. That no response is held is the model's choice (log entry 19). -/
def Obligations.ConstructionHoldsInit : Prop :=
  ∀ (p : Params) (init : Init), p.Legal →
    (State.construct p init).Inv ∧ (State.construct p init).params = p ∧
    (∀ a, a < p.sizeCoils → (State.construct p init).bitAt .coils a = init.coils a) ∧
    (∀ a, a < p.sizeDi → (State.construct p init).bitAt .di a = init.di a) ∧
    (∀ a, a < p.sizeHr → (State.construct p init).regAt .hr a = init.hr a) ∧
    (∀ a, a < p.sizeIr → (State.construct p init).regAt .ir a = init.ir a) ∧
    (State.construct p init).conns = [] ∧ (State.construct p init).held = [] ∧ (State.construct p init).inbox = [] ∧
    (State.construct p init).sent = none

/-- The reset state is a construction with the default parameters of R10. That its INIT is all zero is the model's choice
(log entry 1). -/
def Obligations.ResetIsAConstruction : Prop :=
  State.reset = State.construct Config.params ⟨fun _ => false, fun _ => false, fun _ => 0, fun _ => 0⟩ ∧
  State.reset.params.sizeCoils = 65536 ∧ State.reset.params.sizeDi = 65536 ∧
  State.reset.params.sizeHr = 65536 ∧ State.reset.params.sizeIr = 65536 ∧ State.reset.params.nAgents = none

/-- The invariant holds at reset. -/
def Obligations.ResetMeetsTheInvariant : Prop := State.reset.Inv

/-- Every step keeps the invariant: the configuration legal, each register file canonical and within its bounds (R41,
R69), connections told apart and no more than N_AGENTS of them (R350), no sent request kept between steps (R42). That an open
connection holds at most one response and no other holds any is about the model's own field (DEDUCED, log entry 19). -/
def Obligations.StepKeepsTheInvariant : Prop :=
  ∀ s t : State, s.Inv → Sys2Proof.Machine.step s = .next t → t.Inv

/-- R369: every operation terminates with a next state, but for the calls the model refuses by name: a device access of no
entry, and an accept beyond its bounds. -/
def Obligations.StepRefusesOnlyByName : Prop :=
  ∀ s : State, (∃ t, step s = .next t) ∨
    (step s = .refused .emptyAccess ∧ ∃ rest,
      (∃ sp a n, s.inbox = .readBits sp a n :: rest ∧ n < 1) ∨ (∃ sp a n, s.inbox = .readRegs sp a n :: rest ∧ n < 1) ∨
      (∃ sp a, s.inbox = .writeBits sp a [] :: rest) ∨ (∃ sp a, s.inbox = .writeRegs sp a [] :: rest)) ∨
    (∃ c rest, s.inbox = .accept c :: rest ∧
      ((step s = .refused .connectionInUse ∧ Table.get? s.conns c ≠ none) ∨
        (step s = .refused .agentLimit ∧ ∃ n, s.params.nAgents = some n ∧ n ≤ s.conns.length)))
end

