-- ==== Sys2Proof/Laws/Operands.lean ====
section
/-!
SUPPORT. The small lemmas of the packing and unpacking primitives.
-/

namespace Sys2Proof

theorem word16_toNat (a b : Byte) : (word16 a b).toNat = a.toNat * 256 + b.toNat := by
  have hb := b.isLt
  simp only [word16, BitVec.toNat_append]
  rw [Nat.shiftLeft_eq, ← Nat.mul_comm (2 ^ 8), ← Nat.two_pow_add_eq_or_of_lt hb, Nat.mul_comm]

theorem hiByte_toNat (v : U16) : (hiByte v).toNat = v.toNat / 256 := by
  have := v.isLt
  simp only [hiByte, BitVec.extractLsb'_toNat, Nat.shiftRight_eq_div_pow]
  omega

theorem loByte_toNat (v : U16) : (loByte v).toNat = v.toNat % 256 := by
  simp only [loByte, BitVec.extractLsb'_toNat, Nat.shiftRight_eq_div_pow]
  omega

@[simp] theorem hiByte_word16 (a b : Byte) : hiByte (word16 a b) = a := by
  have hb := b.isLt
  apply BitVec.eq_of_toNat_eq
  rw [hiByte_toNat, word16_toNat]
  omega

@[simp] theorem loByte_word16 (a b : Byte) : loByte (word16 a b) = b := by
  have hb := b.isLt
  apply BitVec.eq_of_toNat_eq
  rw [loByte_toNat, word16_toNat]
  omega

@[simp] theorem word16_hiByte_loByte (v : U16) : word16 (hiByte v) (loByte v) = v := by
  apply BitVec.eq_of_toNat_eq
  rw [word16_toNat, hiByte_toNat, loByte_toNat]
  omega

@[simp] theorem be16_length (v : U16) : (be16 v).length = 2 := rfl

namespace Machine

theorem p8_of_fits {v : Int} (h0 : 0 ≤ v) (h1 : v ≤ 255) : p8 v = .ok [BitVec.ofNat 8 v.toNat] := by
  simp only [p8, if_neg (show ¬ (v < 0 ∨ 255 < v) by omega)]

theorem p16_of_fits {v : Int} (h0 : 0 ≤ v) (h1 : v ≤ 65535) : p16 v = .ok (be16 (BitVec.ofNat 16 v.toNat)) := by
  simp only [p16, if_neg (show ¬ (v < 0 ∨ 65535 < v) by omega)]

/-- A byte fits P8. -/
@[simp] theorem p8_byte (b : Byte) : p8 b.toNat = .ok [b] := by
  have := b.isLt
  rw [p8_of_fits (by omega) (by omega)]
  simp

/-- A u16 fits P16. -/
@[simp] theorem p16_word (v : U16) : p16 v.toNat = .ok (be16 v) := by
  have := v.isLt
  rw [p16_of_fits (by omega) (by omega)]
  simp

@[simp] theorem packBits_length (vals : List Bool) : (packBits vals).length = packedSize vals.length := by
  simp [packBits]

@[simp] theorem packRegs_length (vals : List U16) : (packRegs vals).length = 2 * vals.length := by
  induction vals with
  | nil => rfl
  | cons v vs ih => simp [packRegs, ih]; omega

@[simp] theorem unpackBits_length (b : Bytes) (n : Nat) : (unpackBits b n).length = n := by simp [unpackBits]

@[simp] theorem unpackRegs_length (b : Bytes) (n : Nat) : (unpackRegs b n).length = n := by simp [unpackRegs]

@[simp] theorem unpackBits_getElem (b : Bytes) (n i : Nat) (h : i < (unpackBits b n).length) :
    (unpackBits b n)[i] = (b.getD (i / 8) 0).getLsbD (i % 8) := by simp [unpackBits]

@[simp] theorem unpackRegs_getElem (b : Bytes) (n i : Nat) (h : i < (unpackRegs b n).length) :
    (unpackRegs b n)[i] = word16 (b.getD (2 * i) 0) (b.getD (2 * i + 1) 0) := by simp [unpackRegs]

/-- The bits of an assembled byte. -/
theorem byteOfBits_getLsbD (f : Nat → Bool) {k : Nat} (h : k < 8) : (byteOfBits f).getLsbD k = f k := by
  simp only [byteOfBits]
  rw [show (BitVec.ofBoolListLE [f 0, f 1, f 2, f 3, f 4, f 5, f 6, f 7]).getLsbD k = _ from
    BitVec.getLsbD_ofBoolListLE]
  interval_cases k <;> rfl

end Machine

end Sys2Proof
end

