-- ==== Sys2Proof/Laws/Codec.lean ====
section
/-!
SUPPORT. What the frame codec does with fields that fit, and that its byte-typed and integer-typed views agree.
-/

namespace Sys2Proof.Machine

open Sys2Proof

/-- The header bytes of fields that fit their widths. -/
def headerBytes (tid pid len : U16) (uid : Byte) : Bytes := be16 tid ++ be16 pid ++ be16 len ++ [uid]

@[simp] theorem headerBytes_length (tid pid len : U16) (uid : Byte) : (headerBytes tid pid len uid).length = 7 := rfl

@[simp] theorem encodeMBAP_words (tid pid len : U16) (uid : Byte) :
    encodeMBAP tid.toNat pid.toNat len.toNat uid.toNat = .ok (headerBytes tid pid len uid) := by
  simp only [encodeMBAP, p16_word, p8_byte, bind, Except.bind]
  rfl

@[simp] theorem decodeMBAP_headerBytes (tid pid len : U16) (uid : Byte) :
    decodeMBAP (headerBytes tid pid len uid) = checkHeader ⟨tid, pid, len, uid⟩ := by
  simp [headerBytes, be16, decodeMBAP]

theorem decodeMBAP_of_length_ne {b : Bytes} (h : b.length ≠ 7) : decodeMBAP b = .error (.frameDecode .headerSize) := by
  match b, h with
  | [], _ | [_], _ | [_, _], _ | [_, _, _], _ | [_, _, _, _], _ | [_, _, _, _, _], _ | [_, _, _, _, _, _], _ => rfl
  | [_, _, _, _, _, _, _], h => exact absurd rfl h
  | _ :: _ :: _ :: _ :: _ :: _ :: _ :: _ :: _, _ => rfl

/-- Seven bytes are a header's fields. -/
theorem eq_headerBytes_of_length {b : Bytes} (h : b.length = 7) :
    ∃ (tid pid len : U16) (uid : Byte), b = headerBytes tid pid len uid := by
  match b, h with
  | [t1, t0, p1, p0, l1, l0, u], _ =>
    exact ⟨word16 t1 t0, word16 p1 p0, word16 l1 l0, u, by simp [headerBytes, be16]⟩

/-- What decodeMBAP accepts (R150). -/
theorem checkHeader_ok {h h' : Header} (e : checkHeader h = .ok h') :
    h' = h ∧ h.pid = 0 ∧ 3 ≤ h.len.toNat ∧ h.len.toNat ≤ 256 := by
  unfold checkHeader at e
  split_ifs at e with h1 h2
  · cases e
    simp only [lenMin, lenMax] at h2
    exact ⟨rfl, by simpa using h1, by omega, by omega⟩

theorem decodeMBAP_ok {b : Bytes} {h : Header} (e : decodeMBAP b = .ok h) :
    b = headerBytes h.tid 0 h.len h.uid ∧ h.pid = 0 ∧ 3 ≤ h.len.toNat ∧ h.len.toNat ≤ 256 := by
  by_cases hl : b.length = 7
  · obtain ⟨tid, pid, len, uid, rfl⟩ := eq_headerBytes_of_length hl
    rw [decodeMBAP_headerBytes] at e
    obtain ⟨rfl, hp, h1, h2⟩ := checkHeader_ok e
    exact ⟨by simp only at hp ⊢; rw [hp], hp, h1, h2⟩
  · rw [decodeMBAP_of_length_ne hl] at e
    cases e

/-- The frame of a PDU whose size fits the length field. -/
theorem encodeFrame_words (tid : U16) (uid : Byte) (pdu : Bytes) (h : pdu.length ≤ 65534) :
    encodeFrame tid.toNat uid.toNat pdu =
      .ok (headerBytes tid 0 (BitVec.ofNat 16 (pdu.length + 1)) uid ++ pdu) := by
  have hl : ((pdu.length : Int) + 1) = (BitVec.ofNat 16 (pdu.length + 1)).toNat := by
    rw [BitVec.toNat_ofNat, Nat.mod_eq_of_lt (by omega)]
    omega
  have hz : (0 : Int) = (0 : U16).toNat := rfl
  simp only [encodeFrame, hl]
  rw [hz, encodeMBAP_words]
  rfl

/-- What decodeFrame accepts: a header, a PDU of the size it gives, and the rest (R155). -/
theorem decodeFrame_ok {s : Bytes} {h : Header} {pdu rest : Bytes} (e : decodeFrame s = .ok (h, pdu, rest)) :
    s = headerBytes h.tid 0 h.len h.uid ++ pdu ++ rest ∧ pdu.length = h.len.toNat - 1 ∧ h.pid = 0 ∧
      3 ≤ h.len.toNat ∧ h.len.toNat ≤ 256 := by
  unfold decodeFrame at e
  split_ifs at e with h1
  cases hm : decodeMBAP (s.take mbapSize) with
  | error x => simp only [hm] at e; cases e
  | ok h' =>
    simp only [hm] at e
    split_ifs at e with h2
    cases e
    obtain ⟨hb, hp, h3, h4⟩ := decodeMBAP_ok hm
    refine ⟨?_, ?_, hp, h3, h4⟩
    · rw [← hb, List.append_assoc, List.take_append_drop, List.take_append_drop]
    · simp only [List.length_take]
      omega

/-- buildException of two bytes is the handler's exception PDU (R160). -/
theorem buildException_bytes (fc code : Byte) : buildException fc.toNat code.toNat = .ok [fc ||| 0x80, code] := by
  have h1 := fc.isLt
  have h2 : withExceptionBit (fc.toNat : Int) = ((fc ||| 0x80 : Byte).toNat : Int) := by
    simp [withExceptionBit]
  have h3 : ¬ ((fc.toNat : Int) < 0 ∨ (255 : Int) < fc.toNat) := by omega
  simp only [buildException, if_neg h3, h2, p8_byte, bind, Except.bind]
  rfl

end Sys2Proof.Machine
end

