-- ==== Sys2Proof/Laws/Decode.lean ====
section
/-!
SUPPORT. What each part of the decoder accepts.
-/

namespace Sys2Proof

@[simp] theorem functionOfByte_code (fc : FunctionCode) : functionOfByte fc.code = some fc := by
  cases fc <;> rfl

theorem code_of_functionOfByte {b : Byte} {fc : FunctionCode} (h : functionOfByte b = some fc) : b = fc.code := by
  unfold functionOfByte at h
  split_ifs at h with h1 h2 h3 h4 h5 h6 h7 h8 <;> cases h <;> assumption

/-- A byte names no function exactly when it is none of the eight codes. -/
theorem functionOfByte_eq_none {b : Byte} (h : ∀ fc : FunctionCode, b ≠ fc.code) : functionOfByte b = none := by
  cases e : functionOfByte b with
  | none => rfl
  | some fc => exact absurd (code_of_functionOfByte e) (h fc)

@[simp] theorem hasExceptionBit_code (fc : FunctionCode) : Machine.hasExceptionBit fc.code = false := by
  cases fc <;> rfl

theorem decodePair_ok {k : U16 → U16 → Instr} {payload : Bytes} {i : Instr} (h : decodePair k payload = .ok i) :
    ∃ a b : U16, payload = be16 a ++ be16 b ∧ i = k a b := by
  match payload, h with
  | [a1, a0, b1, b0], h =>
    refine ⟨word16 a1 a0, word16 b1 b0, by simp [be16], ?_⟩
    simpa [decodePair] using h.symm

@[simp] theorem decodePair_be16 (k : U16 → U16 → Instr) (a b : U16) :
    decodePair k (be16 a ++ be16 b) = .ok (k a b) := by simp [be16, decodePair]

theorem decodePair_of_length_ne (k : U16 → U16 → Instr) {payload : Bytes} (h : payload.length ≠ 4) :
    decodePair k payload = .error (.frame .pduSize) := by
  match payload, h with
  | [], _ | [_], _ | [_, _], _ | [_, _, _], _ => rfl
  | [_, _, _, _], h => exact absurd rfl h
  | _ :: _ :: _ :: _ :: _ :: _, _ => rfl

theorem decodeMulti_ok {k : U16 → U16 → Byte → Bytes → Instr} {payload : Bytes} {i : Instr}
    (h : decodeMulti k payload = .ok i) :
    ∃ (a q : U16) (bc : Byte) (data : Bytes), payload = be16 a ++ be16 q ++ bc :: data ∧ i = k a q bc data := by
  match payload, h with
  | a1 :: a0 :: q1 :: q0 :: bc :: data, h =>
    refine ⟨word16 a1 a0, word16 q1 q0, bc, data, by simp [be16], ?_⟩
    simpa [decodeMulti] using h.symm

@[simp] theorem decodeMulti_be16 (k : U16 → U16 → Byte → Bytes → Instr) (a q : U16) (bc : Byte) (data : Bytes) :
    decodeMulti k (be16 a ++ be16 q ++ bc :: data) = .ok (k a q bc data) := by simp [be16, decodeMulti]

theorem decodeMulti_of_short (k : U16 → U16 → Byte → Bytes → Instr) {payload : Bytes} (h : payload.length < 5) :
    decodeMulti k payload = .error (.frame .pduSize) := by
  match payload, h with
  | [], _ | [_], _ | [_, _], _ | [_, _, _], _ | [_, _, _, _], _ => rfl
  | _ :: _ :: _ :: _ :: _ :: data, h => simp only [List.length_cons] at h; omega

theorem decodeCounted_ok {k : Byte → Bytes → Instr} {payload : Bytes} {i : Instr} (h : decodeCounted k payload = .ok i) :
    ∃ (bc : Byte) (data : Bytes), payload = bc :: data ∧ i = k bc data := by
  match payload, h with
  | bc :: data, h => exact ⟨bc, data, rfl, by simpa [decodeCounted] using h.symm⟩

theorem decodeException_ok {b : Byte} {payload : Bytes} {i : Instr} (h : decodeException b payload = .ok i) :
    ∃ code : Byte, payload = [code] ∧ i = .exceptionRsp (b.extractLsb' 0 7) code := by
  match payload, h with
  | [code], h => exact ⟨code, rfl, by simpa [decodeException] using h.symm⟩

/-- Everything decodeRequest accepts: a known function code and a payload of its layout. -/
theorem decodeRequest_ok {pdu : Bytes} {i : Instr} (h : decodeRequest pdu = .ok i) :
    ∃ (fc : FunctionCode) (payload : Bytes), pdu = fc.code :: payload ∧ decodeRequestPayload fc payload = .ok i := by
  match pdu, h with
  | b :: payload, h =>
    simp only [decodeRequest] at h
    cases e : functionOfByte b with
    | none => rw [e] at h; cases h
    | some fc =>
      rw [e] at h
      exact ⟨fc, payload, by rw [code_of_functionOfByte e], h⟩

@[simp] theorem decodeRequest_code (fc : FunctionCode) (payload : Bytes) :
    decodeRequest (fc.code :: payload) = decodeRequestPayload fc payload := by
  simp [decodeRequest]

@[simp] theorem decodeResponse_code (fc : FunctionCode) (payload : Bytes) :
    decodeResponse (fc.code :: payload) = decodeResponsePayload fc payload := by
  simp [decodeResponse]

/-- What a request decodes to is a request. -/
theorem decodeRequest_direction {pdu : Bytes} {i : Instr} (h : decodeRequest pdu = .ok i) : i.direction = .request := by
  obtain ⟨fc, payload, -, h⟩ := decodeRequest_ok h
  cases fc <;> simp only [decodeRequestPayload] at h
  all_goals
    first
    | obtain ⟨a, b, -, rfl⟩ := decodePair_ok h; rfl
    | obtain ⟨a, q, bc, data, -, rfl⟩ := decodeMulti_ok h; rfl

/-- Bit 7 of the byte decides what the exception test sees (R106). -/
theorem hasExceptionBit_eq_getLsbD (b : Byte) : Machine.hasExceptionBit b = b.getLsbD 7 := by
  revert b
  decide

theorem exceptionByte_extract {b : Byte} (h : Machine.hasExceptionBit b = true) : exceptionByte (b.extractLsb' 0 7) = b := by
  revert b
  decide

theorem extract_exceptionByte (f : BitVec 7) : (exceptionByte f).extractLsb' 0 7 = f := by
  revert f
  decide

theorem hasExceptionBit_exceptionByte (f : BitVec 7) : Machine.hasExceptionBit (exceptionByte f) = true := by
  revert f
  decide

end Sys2Proof
end

