-- ==== Sys2Proof/Laws/State.lean ====
section
/-!
SUPPORT. One lemma per field per update of the state, so that no proof unfolds a record update.
-/

namespace Sys2Proof.Machine

open Sys2Proof

variable (s : State)

/-! ### give -/

@[simp] theorem State.give_params (o : Output) : (s.give o).params = s.params := rfl
@[simp] theorem State.give_coils (o : Output) : (s.give o).coils = s.coils := rfl
@[simp] theorem State.give_di (o : Output) : (s.give o).di = s.di := rfl
@[simp] theorem State.give_hr (o : Output) : (s.give o).hr = s.hr := rfl
@[simp] theorem State.give_ir (o : Output) : (s.give o).ir = s.ir := rfl
@[simp] theorem State.give_conns (o : Output) : (s.give o).conns = s.conns := rfl
@[simp] theorem State.give_held (o : Output) : (s.give o).held = s.held := rfl
@[simp] theorem State.give_inbox (o : Output) : (s.give o).inbox = s.inbox := rfl
@[simp] theorem State.give_sent (o : Output) : (s.give o).sent = s.sent := rfl
@[simp] theorem State.give_out (o : Output) : (s.give o).out = o := rfl

/-! ### answerException -/

@[simp] theorem State.answerException_params (fc code : Byte) : (s.answerException fc code).params = s.params := rfl
@[simp] theorem State.answerException_coils (fc code : Byte) : (s.answerException fc code).coils = s.coils := rfl
@[simp] theorem State.answerException_di (fc code : Byte) : (s.answerException fc code).di = s.di := rfl
@[simp] theorem State.answerException_hr (fc code : Byte) : (s.answerException fc code).hr = s.hr := rfl
@[simp] theorem State.answerException_ir (fc code : Byte) : (s.answerException fc code).ir = s.ir := rfl
@[simp] theorem State.answerException_conns (fc code : Byte) : (s.answerException fc code).conns = s.conns := rfl
@[simp] theorem State.answerException_held (fc code : Byte) : (s.answerException fc code).held = s.held := rfl
@[simp] theorem State.answerException_inbox (fc code : Byte) : (s.answerException fc code).inbox = s.inbox := rfl
@[simp] theorem State.answerException_sent (fc code : Byte) : (s.answerException fc code).sent = s.sent := rfl
@[simp] theorem State.answerException_out (fc code : Byte) : (s.answerException fc code).out = .pdu (exceptionPdu fc code) := rfl

/-! ### fatalCall -/

@[simp] theorem State.fatalCall_params (cause : DecodeCause) : (s.fatalCall cause).params = s.params := rfl
@[simp] theorem State.fatalCall_coils (cause : DecodeCause) : (s.fatalCall cause).coils = s.coils := rfl
@[simp] theorem State.fatalCall_di (cause : DecodeCause) : (s.fatalCall cause).di = s.di := rfl
@[simp] theorem State.fatalCall_hr (cause : DecodeCause) : (s.fatalCall cause).hr = s.hr := rfl
@[simp] theorem State.fatalCall_ir (cause : DecodeCause) : (s.fatalCall cause).ir = s.ir := rfl
@[simp] theorem State.fatalCall_conns (cause : DecodeCause) : (s.fatalCall cause).conns = s.conns := rfl
@[simp] theorem State.fatalCall_held (cause : DecodeCause) : (s.fatalCall cause).held = s.held := rfl
@[simp] theorem State.fatalCall_inbox (cause : DecodeCause) : (s.fatalCall cause).inbox = s.inbox := rfl
@[simp] theorem State.fatalCall_sent (cause : DecodeCause) : (s.fatalCall cause).sent = s.sent := rfl
@[simp] theorem State.fatalCall_out (cause : DecodeCause) : (s.fatalCall cause).out = .fatalCall (.frameDecode cause) := rfl

/-! ### dropConn -/

@[simp] theorem State.dropConn_params (c : Nat) : (s.dropConn c).params = s.params := rfl
@[simp] theorem State.dropConn_coils (c : Nat) : (s.dropConn c).coils = s.coils := rfl
@[simp] theorem State.dropConn_di (c : Nat) : (s.dropConn c).di = s.di := rfl
@[simp] theorem State.dropConn_hr (c : Nat) : (s.dropConn c).hr = s.hr := rfl
@[simp] theorem State.dropConn_ir (c : Nat) : (s.dropConn c).ir = s.ir := rfl
@[simp] theorem State.dropConn_conns (c : Nat) : (s.dropConn c).conns = Table.erase s.conns c := rfl
@[simp] theorem State.dropConn_held (c : Nat) : (s.dropConn c).held = s.held.filter (fun h => h.conn? != some c) := rfl
@[simp] theorem State.dropConn_inbox (c : Nat) : (s.dropConn c).inbox = s.inbox := rfl
@[simp] theorem State.dropConn_sent (c : Nat) : (s.dropConn c).sent = s.sent := rfl
@[simp] theorem State.dropConn_out (c : Nat) : (s.dropConn c).out = s.out := rfl

/-! ### setReceived -/

@[simp] theorem State.setReceived_params (c : Nat) (b : Bytes) : (s.setReceived c b).params = s.params := rfl
@[simp] theorem State.setReceived_coils (c : Nat) (b : Bytes) : (s.setReceived c b).coils = s.coils := rfl
@[simp] theorem State.setReceived_di (c : Nat) (b : Bytes) : (s.setReceived c b).di = s.di := rfl
@[simp] theorem State.setReceived_hr (c : Nat) (b : Bytes) : (s.setReceived c b).hr = s.hr := rfl
@[simp] theorem State.setReceived_ir (c : Nat) (b : Bytes) : (s.setReceived c b).ir = s.ir := rfl
@[simp] theorem State.setReceived_conns (c : Nat) (b : Bytes) : (s.setReceived c b).conns = Table.insert s.conns c b := rfl
@[simp] theorem State.setReceived_held (c : Nat) (b : Bytes) : (s.setReceived c b).held = s.held := rfl
@[simp] theorem State.setReceived_inbox (c : Nat) (b : Bytes) : (s.setReceived c b).inbox = s.inbox := rfl
@[simp] theorem State.setReceived_sent (c : Nat) (b : Bytes) : (s.setReceived c b).sent = s.sent := rfl
@[simp] theorem State.setReceived_out (c : Nat) (b : Bytes) : (s.setReceived c b).out = s.out := rfl

/-! ### fatalOn -/

@[simp] theorem State.fatalOn_params (c : Nat) (e : CodecError) : (s.fatalOn c e).params = s.params := rfl
@[simp] theorem State.fatalOn_coils (c : Nat) (e : CodecError) : (s.fatalOn c e).coils = s.coils := rfl
@[simp] theorem State.fatalOn_di (c : Nat) (e : CodecError) : (s.fatalOn c e).di = s.di := rfl
@[simp] theorem State.fatalOn_hr (c : Nat) (e : CodecError) : (s.fatalOn c e).hr = s.hr := rfl
@[simp] theorem State.fatalOn_ir (c : Nat) (e : CodecError) : (s.fatalOn c e).ir = s.ir := rfl
@[simp] theorem State.fatalOn_conns (c : Nat) (e : CodecError) : (s.fatalOn c e).conns = Table.erase s.conns c := rfl
@[simp] theorem State.fatalOn_held (c : Nat) (e : CodecError) : (s.fatalOn c e).held = s.held.filter (fun h => h.conn? != some c) := rfl
@[simp] theorem State.fatalOn_inbox (c : Nat) (e : CodecError) : (s.fatalOn c e).inbox = s.inbox := rfl
@[simp] theorem State.fatalOn_sent (c : Nat) (e : CodecError) : (s.fatalOn c e).sent = s.sent := rfl
@[simp] theorem State.fatalOn_out (c : Nat) (e : CodecError) : (s.fatalOn c e).out = .fatal c e := rfl

/-! ### forgetSent -/

@[simp] theorem State.forgetSent_params : (s.forgetSent).params = s.params := rfl
@[simp] theorem State.forgetSent_coils : (s.forgetSent).coils = s.coils := rfl
@[simp] theorem State.forgetSent_di : (s.forgetSent).di = s.di := rfl
@[simp] theorem State.forgetSent_hr : (s.forgetSent).hr = s.hr := rfl
@[simp] theorem State.forgetSent_ir : (s.forgetSent).ir = s.ir := rfl
@[simp] theorem State.forgetSent_conns : (s.forgetSent).conns = s.conns := rfl
@[simp] theorem State.forgetSent_held : (s.forgetSent).held = s.held := rfl
@[simp] theorem State.forgetSent_inbox : (s.forgetSent).inbox = s.inbox := rfl
@[simp] theorem State.forgetSent_sent : (s.forgetSent).sent = none := rfl
@[simp] theorem State.forgetSent_out : (s.forgetSent).out = s.out := rfl

/-! ### hold and handBack -/

@[simp] theorem State.hold_params : (s.hold).params = s.params := by unfold State.hold; split <;> rfl
@[simp] theorem State.hold_coils : (s.hold).coils = s.coils := by unfold State.hold; split <;> rfl
@[simp] theorem State.hold_di : (s.hold).di = s.di := by unfold State.hold; split <;> rfl
@[simp] theorem State.hold_hr : (s.hold).hr = s.hr := by unfold State.hold; split <;> rfl
@[simp] theorem State.hold_ir : (s.hold).ir = s.ir := by unfold State.hold; split <;> rfl
@[simp] theorem State.hold_conns : (s.hold).conns = s.conns := by unfold State.hold; split <;> rfl
@[simp] theorem State.hold_inbox : (s.hold).inbox = s.inbox := by unfold State.hold; split <;> rfl
@[simp] theorem State.hold_sent : (s.hold).sent = s.sent := by unfold State.hold; split <;> rfl
@[simp] theorem State.handBack_params (k : Nat) : (s.handBack k).params = s.params := by unfold State.handBack; split <;> rfl
@[simp] theorem State.handBack_coils (k : Nat) : (s.handBack k).coils = s.coils := by unfold State.handBack; split <;> rfl
@[simp] theorem State.handBack_di (k : Nat) : (s.handBack k).di = s.di := by unfold State.handBack; split <;> rfl
@[simp] theorem State.handBack_hr (k : Nat) : (s.handBack k).hr = s.hr := by unfold State.handBack; split <;> rfl
@[simp] theorem State.handBack_ir (k : Nat) : (s.handBack k).ir = s.ir := by unfold State.handBack; split <;> rfl
@[simp] theorem State.handBack_conns (k : Nat) : (s.handBack k).conns = s.conns := by unfold State.handBack; split <;> rfl
@[simp] theorem State.handBack_inbox (k : Nat) : (s.handBack k).inbox = s.inbox := by unfold State.handBack; split <;> rfl
@[simp] theorem State.handBack_sent (k : Nat) : (s.handBack k).sent = s.sent := by unfold State.handBack; split <;> rfl

/-- A response is held as it is, and nothing is handed back. -/
theorem State.hold_response {s : State} {h : Held} (e : s.out = h.output) :
    s.hold = { s with held := s.held ++ [h], out := .none } := by
  cases h <;> simp only [State.hold, e, Held.output, heldOf]

/-- A held response is handed back as it was computed. -/
theorem State.handBack_some {s : State} {k : Nat} {h : Held} (e : s.held[k]? = some h) :
    s.handBack k = { s with held := s.held.eraseIdx k, out := h.output } := by
  simp only [State.handBack, e]

/-- What is no response stands. -/
theorem State.hold_none {s : State} (e : heldOf s.out = none) : s.hold = s := by
  simp only [State.hold, e]

/-- Everything holding can do. -/
theorem State.hold_cases (s : State) :
    (heldOf s.out = none ∧ s.hold = s) ∨
    ∃ h : Held, s.out = h.output ∧ s.hold = { s with held := s.held ++ [h], out := .none } := by
  cases e : heldOf s.out with
  | none => exact .inl ⟨rfl, State.hold_none e⟩
  | some h =>
    have ho : s.out = h.output := by
      cases h <;> cases hs : s.out <;> simp only [hs, heldOf] at e <;> cases e <;> rfl
    exact .inr ⟨h, ho, State.hold_response ho⟩

theorem State.handBack_none {s : State} {k : Nat} (e : s.held[k]? = none) : s.handBack k = s.give .none := by
  simp only [State.handBack, e]

/-- A connection that holds no response loses none when it ends. -/
theorem State.held_filter_of_not_awaiting {s : State} {c : Nat} (h : c ∉ s.awaiting) :
    s.held.filter (fun x => x.conn? != some c) = s.held := by
  refine List.filter_eq_self.mpr fun x hx => ?_
  simp only [bne_iff_ne, ne_eq]
  exact fun e => h (List.mem_filterMap.mpr ⟨x, hx, e⟩)

/-- The agents that wait after a connection has ended: all but its own. -/
@[simp] theorem State.dropConn_awaiting (c : Nat) : (s.dropConn c).awaiting = s.awaiting.filter (· != c) := by
  show (s.held.filter fun h => h.conn? != some c).filterMap Held.conn? = (s.held.filterMap Held.conn?).filter (· != c)
  induction s.held with
  | nil => rfl
  | cons x l ih =>
    cases hx : x.conn? with
    | none => simpa [List.filter_cons, List.filterMap_cons, hx] using ih
    | some d => by_cases h : d = c <;> simpa [List.filter_cons, List.filterMap_cons, hx, h] using ih

/-! ### setBitFile and setRegFile -/

@[simp] theorem State.setBitFile_params (sp : BitSpace) (t : Table Bool) : (s.setBitFile sp t).params = s.params := by cases sp <;> rfl
@[simp] theorem State.setBitFile_hr (sp : BitSpace) (t : Table Bool) : (s.setBitFile sp t).hr = s.hr := by cases sp <;> rfl
@[simp] theorem State.setBitFile_ir (sp : BitSpace) (t : Table Bool) : (s.setBitFile sp t).ir = s.ir := by cases sp <;> rfl
@[simp] theorem State.setBitFile_conns (sp : BitSpace) (t : Table Bool) : (s.setBitFile sp t).conns = s.conns := by cases sp <;> rfl
@[simp] theorem State.setBitFile_held (sp : BitSpace) (t : Table Bool) : (s.setBitFile sp t).held = s.held := by cases sp <;> rfl
@[simp] theorem State.setBitFile_inbox (sp : BitSpace) (t : Table Bool) : (s.setBitFile sp t).inbox = s.inbox := by cases sp <;> rfl
@[simp] theorem State.setBitFile_sent (sp : BitSpace) (t : Table Bool) : (s.setBitFile sp t).sent = s.sent := by cases sp <;> rfl
@[simp] theorem State.setBitFile_out (sp : BitSpace) (t : Table Bool) : (s.setBitFile sp t).out = s.out := by cases sp <;> rfl
@[simp] theorem State.setBitFile_coils_coils (t : Table Bool) : (s.setBitFile .coils t).coils = t := rfl
@[simp] theorem State.setBitFile_di_coils (t : Table Bool) : (s.setBitFile .di t).coils = s.coils := rfl
@[simp] theorem State.setBitFile_di_di (t : Table Bool) : (s.setBitFile .di t).di = t := rfl
@[simp] theorem State.setBitFile_coils_di (t : Table Bool) : (s.setBitFile .coils t).di = s.di := rfl
@[simp] theorem State.setBitFile_bitFile (sp : BitSpace) (t : Table Bool) : (s.setBitFile sp t).bitFile sp = t := by cases sp <;> rfl
theorem State.setBitFile_bitFile_other (sp sp' : BitSpace) (t : Table Bool) (h : sp' ≠ sp) : (s.setBitFile sp t).bitFile sp' = s.bitFile sp' := by
  cases sp <;> cases sp' <;> first | rfl | exact absurd rfl h
@[simp] theorem State.setRegFile_params (sp : RegSpace) (t : Table U16) : (s.setRegFile sp t).params = s.params := by cases sp <;> rfl
@[simp] theorem State.setRegFile_coils (sp : RegSpace) (t : Table U16) : (s.setRegFile sp t).coils = s.coils := by cases sp <;> rfl
@[simp] theorem State.setRegFile_di (sp : RegSpace) (t : Table U16) : (s.setRegFile sp t).di = s.di := by cases sp <;> rfl
@[simp] theorem State.setRegFile_conns (sp : RegSpace) (t : Table U16) : (s.setRegFile sp t).conns = s.conns := by cases sp <;> rfl
@[simp] theorem State.setRegFile_held (sp : RegSpace) (t : Table U16) : (s.setRegFile sp t).held = s.held := by cases sp <;> rfl
@[simp] theorem State.setRegFile_inbox (sp : RegSpace) (t : Table U16) : (s.setRegFile sp t).inbox = s.inbox := by cases sp <;> rfl
@[simp] theorem State.setRegFile_sent (sp : RegSpace) (t : Table U16) : (s.setRegFile sp t).sent = s.sent := by cases sp <;> rfl
@[simp] theorem State.setRegFile_out (sp : RegSpace) (t : Table U16) : (s.setRegFile sp t).out = s.out := by cases sp <;> rfl
@[simp] theorem State.setRegFile_hr_hr (t : Table U16) : (s.setRegFile .hr t).hr = t := rfl
@[simp] theorem State.setRegFile_ir_hr (t : Table U16) : (s.setRegFile .ir t).hr = s.hr := rfl
@[simp] theorem State.setRegFile_ir_ir (t : Table U16) : (s.setRegFile .ir t).ir = t := rfl
@[simp] theorem State.setRegFile_hr_ir (t : Table U16) : (s.setRegFile .hr t).ir = s.ir := rfl
@[simp] theorem State.setRegFile_regFile (sp : RegSpace) (t : Table U16) : (s.setRegFile sp t).regFile sp = t := by cases sp <;> rfl
theorem State.setRegFile_regFile_other (sp sp' : RegSpace) (t : Table U16) (h : sp' ≠ sp) : (s.setRegFile sp t).regFile sp' = s.regFile sp' := by
  cases sp <;> cases sp' <;> first | rfl | exact absurd rfl h
@[simp] theorem State.setBitFile_regFile (sp : BitSpace) (t : Table Bool) (r : RegSpace) :
    (s.setBitFile sp t).regFile r = s.regFile r := by cases sp <;> cases r <;> rfl
@[simp] theorem State.setRegFile_bitFile (sp : RegSpace) (t : Table U16) (b : BitSpace) :
    (s.setRegFile sp t).bitFile b = s.bitFile b := by cases sp <;> cases b <;> rfl

/-! ### The register files after the other updates -/

@[simp] theorem State.give_bitFile (o : Output) (sp : BitSpace) : (s.give o).bitFile sp = s.bitFile sp := by cases sp <;> rfl
@[simp] theorem State.give_regFile (o : Output) (sp : RegSpace) : (s.give o).regFile sp = s.regFile sp := by cases sp <;> rfl
@[simp] theorem State.answerException_bitFile (fc code : Byte) (sp : BitSpace) : (s.answerException fc code).bitFile sp = s.bitFile sp := by cases sp <;> rfl
@[simp] theorem State.answerException_regFile (fc code : Byte) (sp : RegSpace) : (s.answerException fc code).regFile sp = s.regFile sp := by cases sp <;> rfl
@[simp] theorem State.fatalCall_bitFile (cause : DecodeCause) (sp : BitSpace) : (s.fatalCall cause).bitFile sp = s.bitFile sp := by cases sp <;> rfl
@[simp] theorem State.fatalCall_regFile (cause : DecodeCause) (sp : RegSpace) : (s.fatalCall cause).regFile sp = s.regFile sp := by cases sp <;> rfl
@[simp] theorem State.dropConn_bitFile (c : Nat) (sp : BitSpace) : (s.dropConn c).bitFile sp = s.bitFile sp := by cases sp <;> rfl
@[simp] theorem State.dropConn_regFile (c : Nat) (sp : RegSpace) : (s.dropConn c).regFile sp = s.regFile sp := by cases sp <;> rfl
@[simp] theorem State.setReceived_bitFile (c : Nat) (b : Bytes) (sp : BitSpace) : (s.setReceived c b).bitFile sp = s.bitFile sp := by cases sp <;> rfl
@[simp] theorem State.setReceived_regFile (c : Nat) (b : Bytes) (sp : RegSpace) : (s.setReceived c b).regFile sp = s.regFile sp := by cases sp <;> rfl
@[simp] theorem State.fatalOn_bitFile (c : Nat) (e : CodecError) (sp : BitSpace) : (s.fatalOn c e).bitFile sp = s.bitFile sp := by cases sp <;> rfl
@[simp] theorem State.fatalOn_regFile (c : Nat) (e : CodecError) (sp : RegSpace) : (s.fatalOn c e).regFile sp = s.regFile sp := by cases sp <;> rfl
@[simp] theorem State.forgetSent_bitFile (sp : BitSpace) : (s.forgetSent).bitFile sp = s.bitFile sp := by cases sp <;> rfl
@[simp] theorem State.forgetSent_regFile (sp : RegSpace) : (s.forgetSent).regFile sp = s.regFile sp := by cases sp <;> rfl

@[simp] theorem State.bitFile_coils : s.bitFile .coils = s.coils := rfl
@[simp] theorem State.bitFile_di : s.bitFile .di = s.di := rfl
@[simp] theorem State.regFile_hr : s.regFile .hr = s.hr := rfl
@[simp] theorem State.regFile_ir : s.regFile .ir = s.ir := rfl
@[simp] theorem bitSize_coils (p : Params) : bitSize p .coils = p.sizeCoils := rfl
@[simp] theorem bitSize_di (p : Params) : bitSize p .di = p.sizeDi := rfl
@[simp] theorem regSize_hr (p : Params) : regSize p .hr = p.sizeHr := rfl
@[simp] theorem regSize_ir (p : Params) : regSize p .ir = p.sizeIr := rfl

end Sys2Proof.Machine
end

