-- ==== Sys2Proof/Laws/Table.lean ====
section
/-!
SUPPORT. What reading, listing and unlisting an entry do to each other, and that they keep the keys strictly rising. The
read laws hold for every list, sorted or not.
-/

namespace Sys2Proof

variable {α : Type}

@[simp] theorem Table.get?_nil (a : Nat) : Table.get? ([] : Table α) a = none := rfl

@[simp] theorem Table.get?_cons (b : Nat) (w : α) (t : Table α) (a : Nat) :
    Table.get? ((b, w) :: t) a = if a = b then some w else Table.get? t a := rfl

@[simp] theorem Table.get?_insert_same (t : Table α) (a : Nat) (v : α) :
    Table.get? (Table.insert t a v) a = some v := by
  induction t with
  | nil => simp [Table.insert]
  | cons p t ih =>
    obtain ⟨b, w⟩ := p
    unfold Table.insert
    split_ifs with h1 h2 <;> simp_all

theorem Table.get?_insert_other (t : Table α) {a c : Nat} (v : α) (h : c ≠ a) :
    Table.get? (Table.insert t a v) c = Table.get? t c := by
  induction t with
  | nil => simp [Table.insert, h]
  | cons p t ih =>
    obtain ⟨b, w⟩ := p
    unfold Table.insert
    split_ifs with h1 h2
    · simp [h]
    · subst h2; simp [h]
    · simp [ih]

@[simp] theorem Table.get?_erase_same (t : Table α) (a : Nat) : Table.get? (Table.erase t a) a = none := by
  induction t with
  | nil => rfl
  | cons p t ih =>
    obtain ⟨b, w⟩ := p
    by_cases h : b = a
    · simpa [Table.erase, h] using ih
    · simpa [Table.erase, h, Ne.symm h] using ih

theorem Table.get?_erase_other (t : Table α) {a c : Nat} (h : c ≠ a) :
    Table.get? (Table.erase t a) c = Table.get? t c := by
  induction t with
  | nil => rfl
  | cons p t ih =>
    obtain ⟨b, w⟩ := p
    by_cases hb : b = a
    · subst hb; simpa [Table.erase, h] using ih
    · simp only [Table.erase, List.filter_cons, bne_iff_ne, ne_eq, hb, not_false_eq_true, if_true, Table.get?_cons] at ih ⊢
      rw [ih]

/-- Erasing what is not listed changes nothing. -/
theorem Table.erase_of_get?_none {t : Table α} {a : Nat} (h : Table.get? t a = none) : Table.erase t a = t := by
  induction t with
  | nil => rfl
  | cons q t ih =>
    obtain ⟨b, w⟩ := q
    rw [Table.get?_cons] at h
    split_ifs at h with hb
    simp only [Table.erase, List.filter_cons, bne_iff_ne, ne_eq, Ne.symm hb, not_false_eq_true, if_true] at ih ⊢
    rw [ih h]

theorem Table.mem_insert {t : Table α} {a : Nat} {v : α} {p : Nat × α} (h : p ∈ Table.insert t a v) :
    p = (a, v) ∨ p ∈ t := by
  induction t with
  | nil => simpa [Table.insert] using h
  | cons q t ih =>
    obtain ⟨b, w⟩ := q
    unfold Table.insert at h
    split_ifs at h with h1 h2 <;> simp only [List.mem_cons] at h ⊢
    · tauto
    · tauto
    · rcases h with h | h
      · tauto
      · rcases ih h with h | h <;> tauto

theorem Table.mem_erase {t : Table α} {a : Nat} {p : Nat × α} (h : p ∈ Table.erase t a) : p ∈ t :=
  (List.mem_filter.mp h).1

theorem Table.sorted_insert {t : Table α} (h : Table.Sorted t) (a : Nat) (v : α) :
    Table.Sorted (Table.insert t a v) := by
  induction t with
  | nil => simp [Table.insert]
  | cons q t ih =>
    obtain ⟨b, w⟩ := q
    obtain ⟨hb, ht⟩ := List.pairwise_cons.mp h
    unfold Table.insert
    split_ifs with h1 h2
    · refine List.pairwise_cons.mpr ⟨fun p hp => ?_, h⟩
      rcases List.mem_cons.mp hp with rfl | hp
      · exact h1
      · exact lt_trans h1 (hb p hp)
    · subst h2
      exact List.pairwise_cons.mpr ⟨hb, ht⟩
    · refine List.pairwise_cons.mpr ⟨fun p hp => ?_, ih ht⟩
      rcases Table.mem_insert hp with rfl | hp
      · simp only; omega
      · exact hb p hp

theorem Table.sorted_erase {t : Table α} (h : Table.Sorted t) (a : Nat) : Table.Sorted (Table.erase t a) :=
  List.Pairwise.filter _ h

theorem Table.length_erase_le (t : Table α) (a : Nat) : (Table.erase t a).length ≤ t.length :=
  List.length_filter_le _ _

theorem Table.length_insert_le (t : Table α) (a : Nat) (v : α) : (Table.insert t a v).length ≤ t.length + 1 := by
  induction t with
  | nil => simp [Table.insert]
  | cons q t ih =>
    obtain ⟨b, w⟩ := q
    unfold Table.insert
    split_ifs <;> simp only [List.length_cons] <;> omega

/-- Replacing a listed entry of a sorted table adds none. -/
theorem Table.length_insert_of_get? {t : Table α} (h : Table.Sorted t) {a : Nat} {w : α} (v : α)
    (hw : Table.get? t a = some w) : (Table.insert t a v).length = t.length := by
  induction t with
  | nil => simp at hw
  | cons q t ih =>
    obtain ⟨b, x⟩ := q
    obtain ⟨hb, ht⟩ := List.pairwise_cons.mp h
    have key : ∀ (u : Table α), (∀ p ∈ u, b < p.1) → a < b → Table.get? u a = none := by
      intro u hu hab
      induction u with
      | nil => rfl
      | cons p u ihu =>
        obtain ⟨c, y⟩ := p
        have hc : b < c := hu (c, y) (by simp)
        have hne : a ≠ c := by omega
        simp only [Table.get?_cons, if_neg hne]
        exact ihu fun p hp => hu p (by simp [hp])
    unfold Table.insert
    split_ifs with h1 h2
    · exfalso
      have hne : a ≠ b := by omega
      simp only [Table.get?_cons, if_neg hne] at hw
      rw [key t hb h1] at hw
      cases hw
    · rfl
    · simp only [Table.get?_cons, if_neg h2] at hw
      simp [ih ht hw]

theorem Table.canonical_insert {unlisted : α} {size : Nat} {t : Table α} (h : Table.Canonical unlisted size t) {a : Nat}
    {v : α} (ha : a < size) (hv : v ≠ unlisted) : Table.Canonical unlisted size (Table.insert t a v) := by
  refine ⟨Table.sorted_insert h.1 a v, fun p hp => ?_⟩
  rcases Table.mem_insert hp with rfl | hp
  · exact ⟨ha, hv⟩
  · exact h.2 p hp

theorem Table.canonical_erase {unlisted : α} {size : Nat} {t : Table α} (h : Table.Canonical unlisted size t) (a : Nat) :
    Table.Canonical unlisted size (Table.erase t a) :=
  ⟨Table.sorted_erase h.1 a, fun p hp => h.2 p (Table.mem_erase hp)⟩

end Sys2Proof
end

