-- ==== Sys2Proof/Laws/Ops.lean ====
section
/-!
SUPPORT. What the memory operations do: reads after writes, that every write keeps the canonical form, and one lemma for
each way MemRead and MemWrite can end (spec 20_memory.md R70, R80).
-/

namespace Sys2Proof.Machine

open Sys2Proof

section reads

variable {α : Type} (unlisted : α)

@[simp] theorem fileReadAll_length (t : Table α) (a n : Nat) : (fileReadAll unlisted t a n).length = n := by
  simp [fileReadAll]

@[simp] theorem fileReadAll_getElem (t : Table α) (a n k : Nat) (h : k < (fileReadAll unlisted t a n).length) :
    (fileReadAll unlisted t a n)[k] = fileRead unlisted t (a + k) := by
  simp [fileReadAll]

theorem memRead_inBounds {space : Space} {size : Nat} {t : Table α} {a n : Int} (h : InBounds size a n) :
    memRead unlisted space size t a n = .done (fileReadAll unlisted t a.toNat n.toNat) := by
  have h1 : ¬ n < 1 := by have := h.2.1; omega
  simp only [memRead, if_neg h1, if_pos h]

theorem memRead_outOfBounds {space : Space} {size : Nat} {t : Table α} {a n : Int} (hn : 1 ≤ n) (h : ¬ InBounds size a n) :
    memRead unlisted space size t a n = .addressError space a n := by
  have h1 : ¬ n < 1 := by omega
  simp only [memRead, if_neg h1, if_neg h]

theorem memRead_empty {space : Space} {size : Nat} {t : Table α} {a n : Int} (hn : n < 1) :
    memRead unlisted space size t a n = .refuse := by
  simp only [memRead, if_pos hn]

end reads

section files

variable {α : Type} [DecidableEq α] (unlisted : α)

@[simp] theorem fileRead_fileWrite_same (t : Table α) (a : Nat) (v : α) :
    fileRead unlisted (fileWrite unlisted t a v) a = v := by
  unfold fileRead fileWrite
  split_ifs with h <;> simp [h]

theorem fileRead_fileWrite_other (t : Table α) {a c : Nat} (v : α) (h : c ≠ a) :
    fileRead unlisted (fileWrite unlisted t a v) c = fileRead unlisted t c := by
  unfold fileRead fileWrite
  split_ifs
  · rw [Table.get?_erase_other t h]
  · rw [Table.get?_insert_other t v h]

/-- An address outside the written range reads as before (R81). -/
theorem fileRead_fileWriteAll_outside (vals : List α) (t : Table α) (a c : Nat) (h : c < a ∨ a + vals.length ≤ c) :
    fileRead unlisted (fileWriteAll unlisted t a vals) c = fileRead unlisted t c := by
  induction vals generalizing t a with
  | nil => rfl
  | cons v vs ih =>
    simp only [List.length_cons] at h
    rw [fileWriteAll, ih _ _ (by omega), fileRead_fileWrite_other unlisted t v (by omega)]

/-- An address inside the written range reads as the value written there (R80). -/
theorem fileRead_fileWriteAll_inside (vals : List α) (t : Table α) (a k : Nat) (h : k < vals.length) :
    fileRead unlisted (fileWriteAll unlisted t a vals) (a + k) = vals[k] := by
  induction vals generalizing t a k with
  | nil => simp at h
  | cons v vs ih =>
    rw [fileWriteAll]
    cases k with
    | zero => rw [fileRead_fileWriteAll_outside unlisted vs _ _ _ (by omega)]; simp
    | succ k =>
      have := ih (fileWrite unlisted t a v) (a + 1) k (by simpa using h)
      rw [show a + (k + 1) = a + 1 + k by omega]
      simpa using this

theorem canonical_fileWrite {size : Nat} {t : Table α} (h : Table.Canonical unlisted size t) {a : Nat} (v : α)
    (ha : a < size) : Table.Canonical unlisted size (fileWrite unlisted t a v) := by
  unfold fileWrite
  split_ifs with hv
  · exact Table.canonical_erase h a
  · exact Table.canonical_insert h ha hv

/-- MemWrite's update keeps the canonical form. -/
theorem canonical_fileWriteAll {size : Nat} (vals : List α) {t : Table α} (h : Table.Canonical unlisted size t) {a : Nat}
    (ha : a + vals.length ≤ size) : Table.Canonical unlisted size (fileWriteAll unlisted t a vals) := by
  induction vals generalizing t a with
  | nil => exact h
  | cons v vs ih =>
    simp only [List.length_cons] at ha
    exact ih (canonical_fileWrite unlisted h v (by omega)) (by omega)

/-- Construction lists INIT in canonical form. -/
theorem canonical_fileInit (init : Nat → α) (n a : Nat) :
    Table.Sorted (fileInit unlisted init a n) ∧
      ∀ p ∈ fileInit unlisted init a n, a ≤ p.1 ∧ p.1 < a + n ∧ p.2 ≠ unlisted := by
  induction n generalizing a with
  | zero => simp [fileInit]
  | succ n ih =>
    obtain ⟨hs, hm⟩ := ih (a + 1)
    unfold fileInit
    split_ifs with h
    · exact ⟨hs, fun p hp => by obtain ⟨h1, h2, h3⟩ := hm p hp; exact ⟨by omega, by omega, h3⟩⟩
    · refine ⟨List.pairwise_cons.mpr ⟨fun p hp => ?_, hs⟩, fun p hp => ?_⟩
      · have := hm p hp
        simp only; omega
      · rcases List.mem_cons.mp hp with rfl | hp
        · exact ⟨by simp, by simp, h⟩
        · obtain ⟨h1, h2, h3⟩ := hm p hp
          exact ⟨by omega, by omega, h3⟩

theorem memWrite_inBounds {space : Space} {size : Nat} {t : Table α} {a : Int} {vals : List α}
    (h : InBounds size a vals.length) :
    memWrite unlisted space size t a vals = .done (fileWriteAll unlisted t a.toNat vals) := by
  have h1 : ¬ (vals.length : Int) < 1 := by have := h.2.1; omega
  simp only [memWrite, if_neg h1, if_pos h]

theorem memWrite_outOfBounds {space : Space} {size : Nat} {t : Table α} {a : Int} {vals : List α} (hn : vals ≠ [])
    (h : ¬ InBounds size a vals.length) :
    memWrite unlisted space size t a vals = .addressError space a vals.length := by
  have h1 : ¬ (vals.length : Int) < 1 := by
    have := List.length_pos_iff.mpr hn
    omega
  simp only [memWrite, if_neg h1, if_neg h]

theorem memWrite_empty {space : Space} {size : Nat} {t : Table α} {a : Int} :
    memWrite unlisted space size t a [] = .refuse := by
  simp [memWrite]

end files

/-- Everything MemWrite on COILS or DI can do. -/
theorem memWriteBits_cases (s : State) (sp : BitSpace) (a : Int) (vals : List Bool) :
    (vals = [] ∧ s.memWriteBits sp a vals = .refuse) ∨
    (vals ≠ [] ∧ ¬ InBounds (bitSize s.params sp) a vals.length ∧
      s.memWriteBits sp a vals = .addressError sp.space a vals.length) ∨
    (InBounds (bitSize s.params sp) a vals.length ∧
      s.memWriteBits sp a vals =
        .done (s.setBitFile sp (fileWriteAll Config.unlistedBit (s.bitFile sp) a.toNat vals))) := by
  by_cases hv : vals = []
  · subst hv
    exact .inl ⟨rfl, by simp [State.memWriteBits, memWrite_empty]⟩
  · by_cases hb : InBounds (bitSize s.params sp) a vals.length
    · exact .inr (.inr ⟨hb, by rw [State.memWriteBits, memWrite_inBounds _ hb]⟩)
    · exact .inr (.inl ⟨hv, hb, by rw [State.memWriteBits, memWrite_outOfBounds _ hv hb]⟩)

/-- Everything MemWrite on HR or IR can do. -/
theorem memWriteRegs_cases (s : State) (sp : RegSpace) (a : Int) (vals : List U16) :
    (vals = [] ∧ s.memWriteRegs sp a vals = .refuse) ∨
    (vals ≠ [] ∧ ¬ InBounds (regSize s.params sp) a vals.length ∧
      s.memWriteRegs sp a vals = .addressError sp.space a vals.length) ∨
    (InBounds (regSize s.params sp) a vals.length ∧
      s.memWriteRegs sp a vals =
        .done (s.setRegFile sp (fileWriteAll Config.unlistedReg (s.regFile sp) a.toNat vals))) := by
  by_cases hv : vals = []
  · subst hv
    exact .inl ⟨rfl, by simp [State.memWriteRegs, memWrite_empty]⟩
  · by_cases hb : InBounds (regSize s.params sp) a vals.length
    · exact .inr (.inr ⟨hb, by rw [State.memWriteRegs, memWrite_inBounds _ hb]⟩)
    · exact .inr (.inl ⟨hv, hb, by rw [State.memWriteRegs, memWrite_outOfBounds _ hv hb]⟩)

/-- MemWrite on a bit space keeps the memory's canonical form. -/
theorem memWriteBits_wf {s t : State} {sp : BitSpace} {a : Int} {vals : List Bool} (h : Memory.wf s)
    (hw : s.memWriteBits sp a vals = .done t) : Memory.wf t := by
  obtain ⟨-, e⟩ | ⟨-, -, e⟩ | ⟨hb, e⟩ := memWriteBits_cases s sp a vals
  · rw [e] at hw; cases hw
  · rw [e] at hw; cases hw
  · rw [e] at hw
    cases hw
    obtain ⟨h1, h2, h3, h4⟩ := h
    cases sp
    · exact ⟨canonical_fileWriteAll _ vals h1 (by simp only [bitSize_coils] at hb; omega), h2, h3, h4⟩
    · exact ⟨h1, canonical_fileWriteAll _ vals h2 (by simp only [bitSize_di] at hb; omega), h3, h4⟩

/-- MemWrite on a register space keeps the memory's canonical form. -/
theorem memWriteRegs_wf {s t : State} {sp : RegSpace} {a : Int} {vals : List U16} (h : Memory.wf s)
    (hw : s.memWriteRegs sp a vals = .done t) : Memory.wf t := by
  obtain ⟨-, e⟩ | ⟨-, -, e⟩ | ⟨hb, e⟩ := memWriteRegs_cases s sp a vals
  · rw [e] at hw; cases hw
  · rw [e] at hw; cases hw
  · rw [e] at hw
    cases hw
    obtain ⟨h1, h2, h3, h4⟩ := h
    cases sp
    · exact ⟨h1, h2, canonical_fileWriteAll _ vals h3 (by simp only [regSize_hr] at hb; omega), h4⟩
    · exact ⟨h1, h2, h3, canonical_fileWriteAll _ vals h4 (by simp only [regSize_ir] at hb; omega)⟩

/-- The memory of the reset state is canonical. -/
theorem reset_memory_wf : Memory.wf State.reset := by
  refine ⟨?_, ?_, ?_, ?_⟩ <;> exact ⟨List.Pairwise.nil, by simp [State.reset]⟩

end Sys2Proof.Machine
end

