-- ==== Sys2Proof/Laws/Exec.lean ====
section
/-!
SUPPORT. For each shared operation of the meanings, everything it can do; and from these, everything a request's and a
response's meaning can do. Later proofs cite these and unfold nothing.
-/

namespace Sys2Proof.Machine

open Sys2Proof

theorem addrInBounds {size : Nat} {addr qty : U16} (h1 : 1 ≤ qty.toNat) :
    InBounds size addr.toNat qty.toNat ↔ addr.toNat + qty.toNat ≤ size := by
  constructor
  · intro h
    have := h.2.2
    omega
  · intro h
    exact ⟨by omega, by omega, by omega⟩

/-! ### The read path -/

/-- A legal bit read in bounds. -/
theorem handleReadBits_ok {fc : FunctionCode} {sp : BitSpace} {addr qty : U16} {s : State} (h1 : 1 ≤ qty.toNat)
    (h2 : qty.toNat ≤ 2000) (hb : addr.toNat + qty.toNat ≤ bitSize s.params sp) :
    handleReadBits fc sp addr qty s = .next (s.give (.pdu (fc.code :: BitVec.ofNat 8 (packedSize qty.toNat) ::
      packBits (fileReadAll Config.unlistedBit (s.bitFile sp) addr.toNat qty.toNat)))) := by
  have hq : ¬ QtyIllegal maxReadBits qty := by simp only [QtyIllegal, maxReadBits]; omega
  simp only [handleReadBits, if_neg hq, State.memReadBits, memRead_inBounds _ ((addrInBounds h1).mpr hb)]
  simp

theorem handleReadBits_badQty {fc : FunctionCode} {sp : BitSpace} {addr qty : U16} {s : State}
    (h : QtyIllegal maxReadBits qty) :
    handleReadBits fc sp addr qty s = .next (s.answerException fc.code illegalDataValue) := by
  simp only [handleReadBits, if_pos h]

theorem handleReadBits_badAddr {fc : FunctionCode} {sp : BitSpace} {addr qty : U16} {s : State} (h1 : 1 ≤ qty.toNat)
    (h2 : qty.toNat ≤ 2000) (hb : bitSize s.params sp < addr.toNat + qty.toNat) :
    handleReadBits fc sp addr qty s = .next (s.answerException fc.code illegalDataAddress) := by
  have hq : ¬ QtyIllegal maxReadBits qty := by simp only [QtyIllegal, maxReadBits]; omega
  have hn : ¬ InBounds (bitSize s.params sp) addr.toNat qty.toNat := by rw [addrInBounds h1]; omega
  simp only [handleReadBits, if_neg hq, State.memReadBits,
    memRead_outOfBounds _ (show (1 : Int) ≤ qty.toNat by omega) hn]

/-- A legal register read in bounds. -/
theorem handleReadRegs_ok {fc : FunctionCode} {sp : RegSpace} {addr qty : U16} {s : State} (h1 : 1 ≤ qty.toNat)
    (h2 : qty.toNat ≤ 125) (hb : addr.toNat + qty.toNat ≤ regSize s.params sp) :
    handleReadRegs fc sp addr qty s = .next (s.give (.pdu (fc.code :: BitVec.ofNat 8 (2 * qty.toNat) ::
      packRegs (fileReadAll Config.unlistedReg (s.regFile sp) addr.toNat qty.toNat)))) := by
  have hq : ¬ QtyIllegal maxReadRegs qty := by simp only [QtyIllegal, maxReadRegs]; omega
  simp only [handleReadRegs, if_neg hq, State.memReadRegs, memRead_inBounds _ ((addrInBounds h1).mpr hb)]
  simp

theorem handleReadRegs_badQty {fc : FunctionCode} {sp : RegSpace} {addr qty : U16} {s : State}
    (h : QtyIllegal maxReadRegs qty) :
    handleReadRegs fc sp addr qty s = .next (s.answerException fc.code illegalDataValue) := by
  simp only [handleReadRegs, if_pos h]

theorem handleReadRegs_badAddr {fc : FunctionCode} {sp : RegSpace} {addr qty : U16} {s : State} (h1 : 1 ≤ qty.toNat)
    (h2 : qty.toNat ≤ 125) (hb : regSize s.params sp < addr.toNat + qty.toNat) :
    handleReadRegs fc sp addr qty s = .next (s.answerException fc.code illegalDataAddress) := by
  have hq : ¬ QtyIllegal maxReadRegs qty := by simp only [QtyIllegal, maxReadRegs]; omega
  have hn : ¬ InBounds (regSize s.params sp) addr.toNat qty.toNat := by rw [addrInBounds h1]; omega
  simp only [handleReadRegs, if_neg hq, State.memReadRegs,
    memRead_outOfBounds _ (show (1 : Int) ≤ qty.toNat by omega) hn]

/-! ### The write path -/

/-- A write function's ending over COILS, for at least one value. -/
theorem finishWrite_coils {fc : FunctionCode} {r : Bytes} {addr : U16} {vals : List Bool} {s : State} (hv : vals ≠ []) :
    (addr.toNat + vals.length ≤ s.params.sizeCoils ∧
      finishWrite fc r s (s.memWriteBits .coils addr.toNat vals) =
        .next ((s.setBitFile .coils (fileWriteAll Config.unlistedBit s.coils addr.toNat vals)).give (.pdu r))) ∨
    (s.params.sizeCoils < addr.toNat + vals.length ∧
      finishWrite fc r s (s.memWriteBits .coils addr.toNat vals) =
        .next (s.answerException fc.code illegalDataAddress)) := by
  have hl := List.length_pos_iff.mpr hv
  obtain ⟨e, -⟩ | ⟨-, hb, e⟩ | ⟨hb, e⟩ := memWriteBits_cases s .coils addr.toNat vals
  · exact absurd e hv
  · exact .inr ⟨by simp only [InBounds, bitSize_coils] at hb; omega, by rw [e]; rfl⟩
  · exact .inl ⟨by simp only [InBounds, bitSize_coils] at hb; omega, by rw [e]; rfl⟩

/-- A write function's ending over HR, for at least one value. -/
theorem finishWrite_hr {fc : FunctionCode} {r : Bytes} {addr : U16} {vals : List U16} {s : State} (hv : vals ≠ []) :
    (addr.toNat + vals.length ≤ s.params.sizeHr ∧
      finishWrite fc r s (s.memWriteRegs .hr addr.toNat vals) =
        .next ((s.setRegFile .hr (fileWriteAll Config.unlistedReg s.hr addr.toNat vals)).give (.pdu r))) ∨
    (s.params.sizeHr < addr.toNat + vals.length ∧
      finishWrite fc r s (s.memWriteRegs .hr addr.toNat vals) =
        .next (s.answerException fc.code illegalDataAddress)) := by
  have hl := List.length_pos_iff.mpr hv
  obtain ⟨e, -⟩ | ⟨-, hb, e⟩ | ⟨hb, e⟩ := memWriteRegs_cases s .hr addr.toNat vals
  · exact absurd e hv
  · exact .inr ⟨by simp only [InBounds, regSize_hr] at hb; omega, by rw [e]; rfl⟩
  · exact .inl ⟨by simp only [InBounds, regSize_hr] at hb; omega, by rw [e]; rfl⟩

theorem unpackBits_ne_nil {b : Bytes} {n : Nat} (h : 1 ≤ n) : unpackBits b n ≠ [] := by
  intro e
  have := congrArg List.length e
  simp at this; omega

theorem unpackRegs_ne_nil {b : Bytes} {n : Nat} (h : 1 ≤ n) : unpackRegs b n ≠ [] := by
  intro e
  have := congrArg List.length e
  simp at this; omega

/-! ### Everything a request can do -/

/-- A response PDU that answers the request whose first byte is `fc`: an exception of code 02 or 03, or a normal response
of a legal size (R120, R327). -/
def AnswerPdu (fc : Byte) (r : Bytes) : Prop :=
  (∃ code, r = exceptionPdu fc code ∧ (code = illegalDataAddress ∨ code = illegalDataValue)) ∨
  (r.head? = some fc ∧ 3 ≤ r.length ∧ r.length ≤ 252)

/-- The three effects of a request's meaning: an answer alone, or an answer and one atomic write to COILS or HR. -/
inductive RequestEffect (fc : Byte) (s : State) : State → Prop where
  | answer (r : Bytes) (h : AnswerPdu fc r) : RequestEffect fc s (s.give (.pdu r))
  | writeCoils (r : Bytes) (h : r.head? = some fc ∧ r.length = 5) (addr : Nat) (vals : List Bool)
      (hb : addr + vals.length ≤ s.params.sizeCoils) :
      RequestEffect fc s ((s.setBitFile .coils (fileWriteAll Config.unlistedBit s.coils addr vals)).give (.pdu r))
  | writeHr (r : Bytes) (h : r.head? = some fc ∧ r.length = 5) (addr : Nat) (vals : List U16)
      (hb : addr + vals.length ≤ s.params.sizeHr) :
      RequestEffect fc s ((s.setRegFile .hr (fileWriteAll Config.unlistedReg s.hr addr vals)).give (.pdu r))

theorem RequestEffect.exception {fc code : Byte} {s : State} (h : code = illegalDataAddress ∨ code = illegalDataValue) :
    RequestEffect fc s (s.answerException fc code) :=
  .answer _ (.inl ⟨code, rfl, h⟩)

theorem handleReadBits_effect (fc : FunctionCode) (sp : BitSpace) (addr qty : U16) (s : State) :
    ∃ t, handleReadBits fc sp addr qty s = .next t ∧ RequestEffect fc.code s t := by
  by_cases hq : QtyIllegal maxReadBits qty
  · exact ⟨_, handleReadBits_badQty hq, .exception (.inr rfl)⟩
  · simp only [QtyIllegal, maxReadBits] at hq
    by_cases hb : addr.toNat + qty.toNat ≤ bitSize s.params sp
    · refine ⟨_, handleReadBits_ok (by omega) (by omega) hb, .answer _ (.inr ⟨rfl, ?_, ?_⟩)⟩ <;>
        simp only [List.length_cons, packBits_length, fileReadAll_length, packedSize] <;> omega
    · exact ⟨_, handleReadBits_badAddr (by omega) (by omega) (by omega), .exception (.inl rfl)⟩

theorem handleReadRegs_effect (fc : FunctionCode) (sp : RegSpace) (addr qty : U16) (s : State) :
    ∃ t, handleReadRegs fc sp addr qty s = .next t ∧ RequestEffect fc.code s t := by
  by_cases hq : QtyIllegal maxReadRegs qty
  · exact ⟨_, handleReadRegs_badQty hq, .exception (.inr rfl)⟩
  · simp only [QtyIllegal, maxReadRegs] at hq
    by_cases hb : addr.toNat + qty.toNat ≤ regSize s.params sp
    · refine ⟨_, handleReadRegs_ok (by omega) (by omega) hb, .answer _ (.inr ⟨rfl, ?_, ?_⟩)⟩ <;>
        simp only [List.length_cons, packRegs_length, fileReadAll_length] <;> omega
    · exact ⟨_, handleReadRegs_badAddr (by omega) (by omega) (by omega), .exception (.inl rfl)⟩

theorem finishWrite_coils_effect (fc : FunctionCode) (first second addr : U16) {vals : List Bool} (s : State)
    (hv : vals ≠ []) :
    ∃ t, finishWrite fc (pairPdu fc first second) s (s.memWriteBits .coils addr.toNat vals) = .next t ∧
      RequestEffect fc.code s t := by
  obtain ⟨hb, e⟩ | ⟨-, e⟩ := finishWrite_coils (fc := fc) (r := pairPdu fc first second) (addr := addr) (s := s) hv
  · exact ⟨_, e, .writeCoils _ ⟨rfl, rfl⟩ _ _ hb⟩
  · exact ⟨_, e, .exception (.inl rfl)⟩

theorem finishWrite_hr_effect (fc : FunctionCode) (first second addr : U16) {vals : List U16} (s : State)
    (hv : vals ≠ []) :
    ∃ t, finishWrite fc (pairPdu fc first second) s (s.memWriteRegs .hr addr.toNat vals) = .next t ∧
      RequestEffect fc.code s t := by
  obtain ⟨hb, e⟩ | ⟨-, e⟩ := finishWrite_hr (fc := fc) (r := pairPdu fc first second) (addr := addr) (s := s) hv
  · exact ⟨_, e, .writeHr _ ⟨rfl, rfl⟩ _ _ hb⟩
  · exact ⟨_, e, .exception (.inl rfl)⟩

/-- Every request has one of the three effects, and always a next state. -/
theorem exec_request_effect (i : Instr) (hi : i.direction = .request) (s : State) :
    ∃ t, exec i s = .next t ∧ RequestEffect ((encode i).headD 0) s t := by
  cases i with
  | readCoilsReq addr qty => exact handleReadBits_effect .readCoils .coils addr qty s
  | readDiscreteInputsReq addr qty => exact handleReadBits_effect .readDiscreteInputs .di addr qty s
  | readHoldingRegistersReq addr qty => exact handleReadRegs_effect .readHoldingRegisters .hr addr qty s
  | readInputRegistersReq addr qty => exact handleReadRegs_effect .readInputRegisters .ir addr qty s
  | writeSingleCoilReq addr value =>
    show ∃ t, execWriteSingleCoilReq addr value s = .next t ∧ RequestEffect _ s t
    unfold execWriteSingleCoilReq
    cases coilValue s.params.wscOther value with
    | none => exact ⟨_, rfl, .exception (.inr rfl)⟩
    | some b => exact finishWrite_coils_effect .writeSingleCoil addr value addr s (by simp)
  | writeSingleRegisterReq addr value =>
    exact finishWrite_hr_effect .writeSingleRegister addr value addr (vals := [value]) s (by simp)
  | writeMultipleCoilsReq addr qty bc data =>
    show ∃ t, execWriteMultipleCoilsReq addr qty bc data s = .next t ∧ RequestEffect _ s t
    unfold execWriteMultipleCoilsReq
    split_ifs with h
    · exact ⟨_, rfl, .exception (.inr rfl)⟩
    · simp only [QtyIllegal] at h
      exact finishWrite_coils_effect .writeMultipleCoils addr qty addr s (unpackBits_ne_nil (by omega))
  | writeMultipleRegistersReq addr qty bc data =>
    show ∃ t, execWriteMultipleRegistersReq addr qty bc data s = .next t ∧ RequestEffect _ s t
    unfold execWriteMultipleRegistersReq
    split_ifs with h
    · exact ⟨_, rfl, .exception (.inr rfl)⟩
    · simp only [QtyIllegal] at h
      exact finishWrite_hr_effect .writeMultipleRegisters addr qty addr s (unpackRegs_ne_nil (by omega))
  | _ => simp [Instr.direction] at hi

/-! ### Everything a response can do -/

/-- A response with its request held gives a result and changes nothing else. -/
theorem parseAgainst_some {fc : FunctionCode} {parse : SentRequest → Output} {s : State} {req : SentRequest}
    (h : s.sent = some req) :
    parseAgainst fc parse s = .next (s.give (if fc = req.fc then parse req else .error (.frameDecode .fcMismatch))) := by
  simp only [parseAgainst, h]

theorem parseAgainst_none {fc : FunctionCode} {parse : SentRequest → Output} {s : State} (h : s.sent = none) :
    parseAgainst fc parse s = .refused .noSentRequest := by
  simp only [parseAgainst, h]

/-- Every response whose request is held has a next state that differs in the result alone. -/
theorem exec_response_effect (i : Instr) (hi : i.direction = .response) (s : State) {req : SentRequest}
    (h : s.sent = some req) : ∃ o, exec i s = .next (s.give o) := by
  cases i with
  | readCoilsRsp bc data => exact ⟨_, parseAgainst_some h⟩
  | readDiscreteInputsRsp bc data => exact ⟨_, parseAgainst_some h⟩
  | readHoldingRegistersRsp bc data => exact ⟨_, parseAgainst_some h⟩
  | readInputRegistersRsp bc data => exact ⟨_, parseAgainst_some h⟩
  | writeSingleCoilRsp addr value => exact ⟨_, parseAgainst_some h⟩
  | writeSingleRegisterRsp addr value => exact ⟨_, parseAgainst_some h⟩
  | writeMultipleCoilsRsp addr qty => exact ⟨_, parseAgainst_some h⟩
  | writeMultipleRegistersRsp addr qty => exact ⟨_, parseAgainst_some h⟩
  | exceptionRsp function code => exact ⟨_, rfl⟩
  | _ => simp [Instr.direction] at hi

end Sys2Proof.Machine
end

