-- ==== Sys2Proof/Laws/PerInstr.lean ====
section
/-!
SUPPORT. Per instruction: the first byte of its encoding is what its row of spec/opcode_table.json fixes (the row's match
under its mask), and its size is what the table and 30_encoding.md R120 give its layout.
-/

namespace Sys2Proof.Laws.EncodingRow

open Sys2Proof

/-- The row's match and mask on the first byte, and the size of the PDU. -/
def Row (i : Instr) (mask value : Byte) (size : Nat) : Prop :=
  ((encode i).headD 0 &&& mask) = value ∧ (encode i).length = size

/-- The rows of the opcode table. -/
def Statement : Instr → Prop
  | i@(.readCoilsReq _ _) => Row i 0xFF 0x01 5
  | i@(.readDiscreteInputsReq _ _) => Row i 0xFF 0x02 5
  | i@(.readHoldingRegistersReq _ _) => Row i 0xFF 0x03 5
  | i@(.readInputRegistersReq _ _) => Row i 0xFF 0x04 5
  | i@(.writeSingleCoilReq _ _) => Row i 0xFF 0x05 5
  | i@(.writeSingleRegisterReq _ _) => Row i 0xFF 0x06 5
  | i@(.writeMultipleCoilsReq _ _ _ data) => Row i 0xFF 0x0F (6 + data.length)
  | i@(.writeMultipleRegistersReq _ _ _ data) => Row i 0xFF 0x10 (6 + data.length)
  | i@(.readCoilsRsp _ data) => Row i 0xFF 0x01 (2 + data.length)
  | i@(.readDiscreteInputsRsp _ data) => Row i 0xFF 0x02 (2 + data.length)
  | i@(.readHoldingRegistersRsp _ data) => Row i 0xFF 0x03 (2 + data.length)
  | i@(.readInputRegistersRsp _ data) => Row i 0xFF 0x04 (2 + data.length)
  | i@(.writeSingleCoilRsp _ _) => Row i 0xFF 0x05 5
  | i@(.writeSingleRegisterRsp _ _) => Row i 0xFF 0x06 5
  | i@(.writeMultipleCoilsRsp _ _) => Row i 0xFF 0x0F 5
  | i@(.writeMultipleRegistersRsp _ _) => Row i 0xFF 0x10 5
  | i@(.exceptionRsp _ _) => Row i 0x80 0x80 2

theorem readCoilsReq (addr qty : U16) : Statement (.readCoilsReq addr qty) := ⟨show ((0x01 : Byte) &&& 0xFF) = 0x01 by decide, rfl⟩

theorem readDiscreteInputsReq (addr qty : U16) : Statement (.readDiscreteInputsReq addr qty) := ⟨show ((0x02 : Byte) &&& 0xFF) = 0x02 by decide, rfl⟩

theorem readHoldingRegistersReq (addr qty : U16) : Statement (.readHoldingRegistersReq addr qty) := ⟨show ((0x03 : Byte) &&& 0xFF) = 0x03 by decide, rfl⟩

theorem readInputRegistersReq (addr qty : U16) : Statement (.readInputRegistersReq addr qty) := ⟨show ((0x04 : Byte) &&& 0xFF) = 0x04 by decide, rfl⟩

theorem writeSingleCoilReq (addr value : U16) : Statement (.writeSingleCoilReq addr value) := ⟨show ((0x05 : Byte) &&& 0xFF) = 0x05 by decide, rfl⟩

theorem writeSingleRegisterReq (addr value : U16) : Statement (.writeSingleRegisterReq addr value) := ⟨show ((0x06 : Byte) &&& 0xFF) = 0x06 by decide, rfl⟩

theorem writeMultipleCoilsReq (addr qty : U16) (bc : Byte) (data : Bytes) :
    Statement (.writeMultipleCoilsReq addr qty bc data) := ⟨show ((0x0F : Byte) &&& 0xFF) = 0x0F by decide, by simp [encode]; omega⟩

theorem writeMultipleRegistersReq (addr qty : U16) (bc : Byte) (data : Bytes) :
    Statement (.writeMultipleRegistersReq addr qty bc data) := ⟨show ((0x10 : Byte) &&& 0xFF) = 0x10 by decide, by simp [encode]; omega⟩

theorem readCoilsRsp (bc : Byte) (data : Bytes) : Statement (.readCoilsRsp bc data) :=
  ⟨show ((0x01 : Byte) &&& 0xFF) = 0x01 by decide, by simp [encode]; omega⟩

theorem readDiscreteInputsRsp (bc : Byte) (data : Bytes) : Statement (.readDiscreteInputsRsp bc data) :=
  ⟨show ((0x02 : Byte) &&& 0xFF) = 0x02 by decide, by simp [encode]; omega⟩

theorem readHoldingRegistersRsp (bc : Byte) (data : Bytes) : Statement (.readHoldingRegistersRsp bc data) :=
  ⟨show ((0x03 : Byte) &&& 0xFF) = 0x03 by decide, by simp [encode]; omega⟩

theorem readInputRegistersRsp (bc : Byte) (data : Bytes) : Statement (.readInputRegistersRsp bc data) :=
  ⟨show ((0x04 : Byte) &&& 0xFF) = 0x04 by decide, by simp [encode]; omega⟩

theorem writeSingleCoilRsp (addr value : U16) : Statement (.writeSingleCoilRsp addr value) := ⟨show ((0x05 : Byte) &&& 0xFF) = 0x05 by decide, rfl⟩

theorem writeSingleRegisterRsp (addr value : U16) : Statement (.writeSingleRegisterRsp addr value) := ⟨show ((0x06 : Byte) &&& 0xFF) = 0x06 by decide, rfl⟩

theorem writeMultipleCoilsRsp (addr qty : U16) : Statement (.writeMultipleCoilsRsp addr qty) := ⟨show ((0x0F : Byte) &&& 0xFF) = 0x0F by decide, rfl⟩

theorem writeMultipleRegistersRsp (addr qty : U16) : Statement (.writeMultipleRegistersRsp addr qty) := ⟨show ((0x10 : Byte) &&& 0xFF) = 0x10 by decide, rfl⟩

theorem exceptionRsp (function : BitVec 7) (code : Byte) : Statement (.exceptionRsp function code) := by
  refine ⟨?_, rfl⟩
  show (exceptionByte function &&& 0x80) = 0x80
  revert function
  decide

end Sys2Proof.Laws.EncodingRow
end

