-- ==== Sys2Proof/Laws/Step.lean ====
section
/-!
SUPPORT. Everything HandleRequest, ParseResponse, ServerStep and a step can do, said once.
-/

namespace Sys2Proof.Machine

open Sys2Proof

/-! ### HandleRequest -/

/-- HandleRequest on a PDU always has a next state: one of a request's effects, IllegalFunction, or a fatal error. -/
theorem handleRequest_cases (pdu : Bytes) (s : State) :
    (∃ cause, decodeRequest pdu = .error (.frame cause) ∧ handleRequest pdu s = .next (s.fatalCall cause)) ∨
    (∃ fc, decodeRequest pdu = .error (.unknownFunction fc) ∧ pdu.head? = some fc ∧
      handleRequest pdu s = .next (s.answerException fc illegalFunction)) ∨
    (∃ i fc t, decodeRequest pdu = .ok i ∧ i.direction = .request ∧ pdu.head? = some (FunctionCode.code fc) ∧
      handleRequest pdu s = .next t ∧ exec i s = .next t ∧ RequestEffect fc.code s t) := by
  unfold handleRequest
  cases e : decodeRequest pdu with
  | error r =>
    cases r with
    | frame cause => exact .inl ⟨cause, rfl, rfl⟩
    | unknownFunction fc =>
      refine .inr (.inl ⟨fc, rfl, ?_, rfl⟩)
      match pdu, e with
      | b :: payload, e =>
        simp only [decodeRequest] at e
        cases hf : functionOfByte b with
        | none => rw [hf] at e; cases e; rfl
        | some f =>
          exfalso
          rw [hf] at e
          cases f <;> simp only [decodeRequestPayload] at e <;>
            first
            | (unfold decodePair at e; split at e <;> cases e)
            | (unfold decodeMulti at e; split at e <;> cases e)
  | ok i =>
    have hd := decodeRequest_direction e
    obtain ⟨fc, payload, rfl, hp⟩ := decodeRequest_ok e
    obtain ⟨t, ht, hx⟩ := exec_request_effect i hd s
    have hh : (encode i).headD 0 = fc.code := by
      cases fc <;> simp only [decodeRequestPayload] at hp
      all_goals
        first
        | obtain ⟨a, b, -, rfl⟩ := decodePair_ok hp; rfl
        | obtain ⟨a, q, bc, data, -, rfl⟩ := decodeMulti_ok hp; rfl
    rw [hh] at hx
    exact .inr (.inr ⟨i, fc, t, rfl, hd, rfl, ht, ht, hx⟩)

/-- Every effect of a request leaves these as they were. -/
theorem RequestEffect.keeps {fc : Byte} {s t : State} (h : RequestEffect fc s t) :
    t.params = s.params ∧ t.di = s.di ∧ t.ir = s.ir ∧ t.conns = s.conns ∧ t.held = s.held ∧ t.inbox = s.inbox ∧
      t.sent = s.sent := by
  cases h <;> exact ⟨rfl, rfl, rfl, rfl, rfl, rfl, rfl⟩

/-- Every effect of a request answers with a PDU of 2 to 252 bytes (R120). -/
theorem RequestEffect.answers {fc : Byte} {s t : State} (h : RequestEffect fc s t) :
    ∃ r, t.out = .pdu r ∧ 2 ≤ r.length ∧ r.length ≤ 252 := by
  cases h with
  | answer r h =>
    refine ⟨r, rfl, ?_⟩
    obtain ⟨code, rfl, -⟩ | ⟨-, h1, h2⟩ := h
    · exact ⟨by simp [exceptionPdu], by simp [exceptionPdu]⟩
    · exact ⟨by omega, h2⟩
  | writeCoils r h => exact ⟨r, rfl, by omega, by omega⟩
  | writeHr r h => exact ⟨r, rfl, by omega, by omega⟩

/-- Every effect of a request keeps the canonical form of the memory. -/
theorem RequestEffect.wf {fc : Byte} {s t : State} (h : RequestEffect fc s t) (hs : Memory.wf s) : Memory.wf t := by
  obtain ⟨h1, h2, h3, h4⟩ := hs
  cases h with
  | answer r h => exact ⟨h1, h2, h3, h4⟩
  | writeCoils r h addr vals hb => exact ⟨canonical_fileWriteAll _ vals h1 hb, h2, h3, h4⟩
  | writeHr r h addr vals hb => exact ⟨h1, h2, canonical_fileWriteAll _ vals h3 hb, h4⟩

/-- HandleRequest always has a next state, which keeps all but COILS, HR and the result. -/
theorem handleRequest_next (pdu : Bytes) (s : State) :
    ∃ t, handleRequest pdu s = .next t ∧
      t.params = s.params ∧ t.di = s.di ∧ t.ir = s.ir ∧ t.conns = s.conns ∧ t.held = s.held ∧ t.inbox = s.inbox ∧
      t.sent = s.sent ∧
      (Memory.wf s → Memory.wf t) ∧
      ((∃ cause, t = s.fatalCall cause) ∨ ∃ r, t.out = .pdu r ∧ 2 ≤ r.length ∧ r.length ≤ 252) := by
  obtain ⟨cause, -, e⟩ | ⟨fc, -, -, e⟩ | ⟨i, fc, t, -, -, -, e, -, hx⟩ := handleRequest_cases pdu s
  · exact ⟨_, e, rfl, rfl, rfl, rfl, rfl, rfl, rfl, id, .inl ⟨cause, rfl⟩⟩
  · exact ⟨_, e, rfl, rfl, rfl, rfl, rfl, rfl, rfl, id, .inr ⟨_, rfl, by simp [exceptionPdu], by simp [exceptionPdu]⟩⟩
  · obtain ⟨a1, a2, a3, a4, a5, a6, a7⟩ := hx.keeps
    exact ⟨t, e, a1, a2, a3, a4, a5, a6, a7, hx.wf, .inr hx.answers⟩

/-! ### ParseResponse -/

/-- What a response decodes to is a response. -/
theorem decodeResponse_direction {pdu : Bytes} {i : Instr} (h : decodeResponse pdu = .ok i) : i.direction = .response := by
  match pdu, h with
  | b :: payload, h =>
    simp only [decodeResponse] at h
    split_ifs at h with hb
    · obtain ⟨code, -, rfl⟩ := decodeException_ok h
      rfl
    · cases hf : functionOfByte b with
      | none => rw [hf] at h; cases h
      | some fc =>
        rw [hf] at h
        cases fc <;> simp only [decodeResponsePayload] at h
        all_goals
          first
          | obtain ⟨a, b, -, rfl⟩ := decodePair_ok h; rfl
          | obtain ⟨bc, data, -, rfl⟩ := decodeCounted_ok h; rfl

/-- ParseResponse always has a next state, which differs in the result and the held request alone. -/
theorem parseResponse_next (req : SentRequest) (pdu : Bytes) (s : State) :
    ∃ t, parseResponse req pdu s = .next t ∧ t = { s with out := t.out, sent := t.sent } ∧
      (s.sent = none → t.sent = none) := by
  unfold parseResponse
  cases e : decodeResponse pdu with
  | error r => exact ⟨_, rfl, rfl, id⟩
  | ok i =>
    obtain ⟨o, ho⟩ := exec_response_effect i (decodeResponse_direction e) { s with sent := some req } rfl
    exact ⟨_, congrArg (mapNext State.forgetSent) ho, rfl, fun _ => rfl⟩

/-! ### ServerStep -/

/-- The end of a ServerStep after a PDU. -/
theorem concludeServe_pdu (c : Nat) (h : Header) {t : State} {r : Bytes} (ht : t.out = .pdu r) (hr : r.length ≤ 252) :
    concludeServe c h t =
      t.give (.response c (headerBytes h.tid 0 (BitVec.ofNat 16 (r.length + 1)) h.uid ++ r)) := by
  simp only [concludeServe, ht, encodeFrame_words h.tid h.uid r (by omega)]

/-- The end of a ServerStep after a fatal error. -/
theorem concludeServe_fatal (c : Nat) (h : Header) {t : State} {e : CodecError} (ht : t.out = .fatalCall e) :
    concludeServe c h t = t.fatalOn c e := by
  simp only [concludeServe, ht]

/-- Everything ServerStep can do. -/
theorem serverStep_cases (c : Nat) (s : State) :
    (Table.get? s.conns c = none ∧ serverStep c s = .next (s.give .none)) ∨
    (∃ received e, Table.get? s.conns c = some received ∧ decodeFrame received = .error e ∧
      serverStep c s = .next (s.fatalOn c e)) ∨
    (∃ received h pdu rest cause, Table.get? s.conns c = some received ∧ decodeFrame received = .ok (h, pdu, rest) ∧
      decodeRequest pdu = .error (.frame cause) ∧
      serverStep c s = .next ((s.setReceived c rest).fatalOn c (.frameDecode cause))) ∨
    (∃ received h pdu rest t r, Table.get? s.conns c = some received ∧ decodeFrame received = .ok (h, pdu, rest) ∧
      handleRequest pdu (s.setReceived c rest) = .next t ∧ t.out = .pdu r ∧ 2 ≤ r.length ∧ r.length ≤ 252 ∧
      serverStep c s =
        .next (t.give (.response c (headerBytes h.tid 0 (BitVec.ofNat 16 (r.length + 1)) h.uid ++ r)))) := by
  cases hc : Table.get? s.conns c with
  | none => exact .inl ⟨rfl, by simp only [serverStep, hc]⟩
  | some received =>
    cases hf : decodeFrame received with
    | error e => exact .inr (.inl ⟨received, e, rfl, hf, by simp only [serverStep, hc, hf]⟩)
    | ok v =>
      obtain ⟨h, pdu, rest⟩ := v
      have hs : serverStep c s = mapNext (concludeServe c h) (handleRequest pdu (s.setReceived c rest)) := by
        simp only [serverStep, hc, hf]
      obtain ⟨cause, hd, e⟩ | ⟨fc, -, -, e⟩ | ⟨i, fc, t, -, -, -, e, -, hx⟩ :=
        handleRequest_cases pdu (s.setReceived c rest)
      · refine .inr (.inr (.inl ⟨received, h, pdu, rest, cause, rfl, hf, hd, ?_⟩))
        rw [hs, e, mapNext, concludeServe_fatal c h (e := .frameDecode cause) rfl]
        rfl
      · refine .inr (.inr (.inr ⟨received, h, pdu, rest, _, _, rfl, hf, e, rfl, by simp [exceptionPdu],
          by simp [exceptionPdu], ?_⟩))
        rw [hs, e, mapNext, concludeServe_pdu c h rfl (by simp [exceptionPdu])]
      · obtain ⟨r, ho, h2, h3⟩ := hx.answers
        refine .inr (.inr (.inr ⟨received, h, pdu, rest, t, r, rfl, hf, e, ho, h2, h3, ?_⟩))
        rw [hs, e, mapNext, concludeServe_pdu c h ho h3]

/-! ### Held responses -/

theorem serveConn_free {c : Nat} {s : State} (h : c ∉ s.awaiting) : serveConn c s = serverStep c s := by
  simp only [serveConn, if_neg h]

theorem serveConn_busy {c : Nat} {s : State} (h : c ∈ s.awaiting) : serveConn c s = .next (s.give .none) := by
  simp only [serveConn, if_pos h]

/-- An agent's turn always has a next state. -/
theorem serveConn_next (c : Nat) (s : State) : ∃ t, serveConn c s = .next t := by
  by_cases h : c ∈ s.awaiting
  · exact ⟨_, serveConn_busy h⟩
  · rw [serveConn_free h]
    obtain ⟨-, e⟩ | ⟨_, _, -, -, e⟩ | ⟨_, _, _, _, _, -, -, -, e⟩ | ⟨_, _, _, _, _, _, -, -, -, -, -, -, e⟩ :=
      serverStep_cases c s <;> exact ⟨_, e⟩

/-- A next state is held or stands. -/
theorem holdResponse_next {t : State} : holdResponse (.next t) = .next t.hold := rfl

/-! ### The inbox -/

theorem step_nil {s : State} (h : s.inbox = []) : step s = .next s := by
  simp only [step, stepInbox, h]

theorem step_cons {s : State} {a : Action} {rest : List Action} (h : s.inbox = a :: rest) :
    step s = perform a { s with inbox := rest } := by
  simp only [step, stepInbox, h]

end Sys2Proof.Machine
end

