-- ==== Sys2Proof/Tests/Slice0.lean ====
section
/-!
SUPPORT. Checks of the model on words and results taken from the spec: 95_test_vectors.md (E1 to E5, V1 to V10, P3, P4) and
the examples of the rules; and, for every obligation with hypotheses, a witness that they can be met, at the edges of its
clauses.
-/

namespace Sys2Proof.Tests

open Sys2Proof Sys2Proof.Machine

/-! ### Helpers -/

/-- A block with a few entries set: COILS[10], DI[0], HR[1] = 3, IR[5] = 0x1234. DI has 16 entries and IR 10. -/
def small : State where
  params := ⟨65536, 16, 65536, 10, .reject03, some 2⟩
  coils := [(10, true)]
  di := [(0, true)]
  hr := [(1, 3)]
  ir := [(5, 0x1234)]
  conns := [(4, [])]
  held := []
  inbox := []
  sent := none
  out := .none

/-- The same block with a value of WSC_OTHER. -/
def withOther (w : WscOther) : State := { small with params := { small.params with wscOther := w } }

/-- The same block with 10 coils and 10 holding registers. -/
def ten : State := { small with params := { small.params with sizeCoils := 10, sizeHr := 10 } }

/-- The same block holding a sent request. -/
def sending (req : SentRequest) : State := { small with sent := some req }

/-- The same block with connection 4 holding these bytes and its agent about to step. -/
def serving (bytes : Bytes) : State := { small with conns := [(4, bytes), (9, [0xAA])], inbox := [.serve 4] }

/-- The same block with one action waiting. -/
def doing (a : Action) : State := { small with inbox := [a] }

/-- The same block holding the response of its first connection, with one action waiting. -/
def holding (a : Action) : State := { small with held := [.pdu [9], .response 4 [7]], inbox := [a] }

/-- A response held by a connection that is not open, which the invariant rules out. -/
def forgotten : State := { holding (.close 4) with conns := [] }

/-- The result handed back by a step. -/
def outOf (r : StepResult) : Option Output := (nextState r).map State.out

/-- The refusal of a step. -/
def refusalOf : StepResult → Option Refusal
  | .next _ => none
  | .fault _ => none
  | .refused r => some r

/-- ReadHoldingRegisters(0, 4), as it was sent. -/
def sentRhr : SentRequest := ⟨.readHoldingRegisters, 0, 4, 0⟩

/-- WriteSingleCoil(10, true), as it was sent. -/
def sentWsc : SentRequest := ⟨.writeSingleCoil, 10, 1, 0xFF00⟩

/-- WriteMultipleRegisters(1, [10, 258]), as it was sent. -/
def sentWmr : SentRequest := ⟨.writeMultipleRegisters, 1, 2, 0⟩

/-- ReadCoils(0, 10), as it was sent. -/
def sentRc : SentRequest := ⟨.readCoils, 0, 10, 0⟩

/-- A data part of zeros. -/
def zeros (n : Nat) : Bytes := List.replicate n 0

theorem zeros_length (n : Nat) : (zeros n).length = n := List.length_replicate

/-! ### Ill-formed instructions are refused (R103) -/

theorem test_wf_write_coils_data :
    (Instr.writeMultipleCoilsReq 0 1 1 (zeros 249)).wellFormed = true ∧
      (Instr.writeMultipleCoilsReq 0 1 1 (zeros 250)).wellFormed = false := by
  simp only [Instr.wellFormed, multiDataFits, zeros_length]
  decide

theorem test_wf_write_registers_data :
    (Instr.writeMultipleRegistersReq 0 1 1 (zeros 249)).wellFormed = true ∧
      (Instr.writeMultipleRegistersReq 0 1 1 (zeros 250)).wellFormed = false := by
  simp only [Instr.wellFormed, multiDataFits, zeros_length]
  decide

theorem test_wf_read_coils_data :
    (Instr.readCoilsRsp 1 (zeros 253)).wellFormed = true ∧
      (Instr.readCoilsRsp 1 (zeros 254)).wellFormed = false := by
  simp only [Instr.wellFormed, readDataFits, zeros_length]
  decide

theorem test_wf_read_inputs_data :
    (Instr.readDiscreteInputsRsp 1 (zeros 254)).wellFormed = false := by
  simp only [Instr.wellFormed, readDataFits, zeros_length]
  decide

theorem test_wf_read_holding_data :
    (Instr.readHoldingRegistersRsp 1 (zeros 254)).wellFormed = false := by
  simp only [Instr.wellFormed, readDataFits, zeros_length]
  decide

theorem test_wf_read_input_registers_data :
    (Instr.readInputRegistersRsp 1 (zeros 254)).wellFormed = false := by
  simp only [Instr.wellFormed, readDataFits, zeros_length]
  decide

/-! ### Every constructor's decoding, from bytes written out by hand from R108 and R111 to R119 -/

theorem test_decode_read_requests :
    decode .request [0x01, 0x00, 0x0A, 0x00, 0x01] = .ok (.readCoilsReq 10 1) ∧
      decode .request [0x02, 0x00, 0x00, 0x00, 0x10] = .ok (.readDiscreteInputsReq 0 16) ∧
      decode .request [0x03, 0xFF, 0xFF, 0x00, 0x7E] = .ok (.readHoldingRegistersReq 65535 126) ∧
      decode .request [0x04, 0x00, 0x05, 0x00, 0x01] = .ok (.readInputRegistersReq 5 1) := by decide

theorem test_decode_single_write_requests :
    decode .request [0x05, 0x00, 0x0A, 0xFF, 0x00] = .ok (.writeSingleCoilReq 10 0xFF00) ∧
      decode .request [0x06, 0x00, 0x01, 0x00, 0x03] = .ok (.writeSingleRegisterReq 1 3) := by decide

theorem test_decode_multiple_write_requests :
    decode .request [0x0F, 0x00, 0x13, 0x00, 0x0A, 0x02, 0xCD, 0x01] =
        .ok (.writeMultipleCoilsReq 19 10 2 [0xCD, 0x01]) ∧
      decode .request [0x10, 0x00, 0x01, 0x00, 0x02, 0x04, 0x00, 0x0A, 0x01, 0x02] =
        .ok (.writeMultipleRegistersReq 1 2 4 [0x00, 0x0A, 0x01, 0x02]) := by decide

theorem test_decode_read_responses :
    decode .response [0x01, 0x02, 0x0D, 0x03] = .ok (.readCoilsRsp 2 [0x0D, 0x03]) ∧
      decode .response [0x02, 0x01, 0x01] = .ok (.readDiscreteInputsRsp 1 [0x01]) ∧
      decode .response [0x03, 0x02, 0x12, 0x34] = .ok (.readHoldingRegistersRsp 2 [0x12, 0x34]) ∧
      decode .response [0x04, 0x02, 0x12, 0x34] = .ok (.readInputRegistersRsp 2 [0x12, 0x34]) := by decide

theorem test_decode_write_responses :
    decode .response [0x05, 0x00, 0x0A, 0xFF, 0x00] = .ok (.writeSingleCoilRsp 10 0xFF00) ∧
      decode .response [0x06, 0x00, 0x01, 0x00, 0x03] = .ok (.writeSingleRegisterRsp 1 3) ∧
      decode .response [0x0F, 0x00, 0x13, 0x00, 0x0A] = .ok (.writeMultipleCoilsRsp 19 10) ∧
      decode .response [0x10, 0x00, 0x01, 0x00, 0x02] = .ok (.writeMultipleRegistersRsp 1 2) ∧
      decode .response [0x83, 0x02] = .ok (.exceptionRsp 3 2) := by decide

/-- V6, V7, V8: wrong sizes and unknown codes (R172, R178). -/
theorem test_decode_rejects_by_name :
    decode .request [] = .error (.frame .emptyPdu) ∧
      decode .request [0x07] = .error (.unknownFunction 0x07) ∧
      decode .request [0x81, 0x00, 0x00, 0x00, 0x01] = .error (.unknownFunction 0x81) ∧
      decode .request [0x03, 0x00, 0x00, 0x00] = .error (.frame .pduSize) ∧
      decode .request [0x03, 0x00, 0x00, 0x00, 0x04, 0x00] = .error (.frame .pduSize) ∧
      decode .request [0x0F, 0x00, 0x00, 0x00, 0x01] = .error (.frame .pduSize) ∧
      decode .response [0x83, 0x02, 0x00] = .error (.frame .exceptionSize) := by decide

theorem test_table_words :
    decodeTableWord 8 0x01 = some (.readCoilsReq 0 0) ∧
      decodeTableWord 8 0x10 = some (.writeMultipleRegistersReq 0 0 0 []) ∧
      decodeTableWord 8 0x80 = some (.exceptionRsp 0 0) ∧
      decodeTableWord 40 0x00FF0A0005 = some (.writeSingleCoilReq 10 0xFF00) ∧
      decodeTableWord 8 0x07 = none := by decide

/-! ### The frame codec (V1 to V5) -/

theorem test_primitives :
    p8 255 = .ok [0xFF] ∧ p8 256 = .error (.frameEncode 256 8) ∧ p8 (-1) = .error (.frameEncode (-1) 8) ∧
      p16 0x1234 = .ok [0x12, 0x34] ∧ p16 65536 = .error (.frameEncode 65536 16) ∧
      u16At [0x00, 0x0A, 0xFF, 0x00] 2 = .ok 0xFF00 ∧ u16At [0x12] 0 = .error (.frameDecode .short) ∧
      parseFormat [0x03, 0, 0, 0, 4] 1 [.u16, .u16] = .ok [0, 4] ∧
      parseFormat [0x03, 0, 0, 0, 4, 0] 1 [.u16, .u16] = .error (.frameDecode .pduSize) := by decide

theorem test_bit_packing :
    packBits [true, false, true, true, false, false, false, false, true, true] = [0x0D, 0x03] ∧
      packBits (List.replicate 9 true) = [0xFF, 0x01] ∧
      unpackBits [0x0D, 0x03] 10 = [true, false, true, true, false, false, false, false, true, true] ∧
      unpackBits [0xFF] 1 = [true] := by decide

theorem test_mbap :
    encodeMBAP 65535 0 256 255 = .ok [0xFF, 0xFF, 0, 0, 0x01, 0x00, 0xFF] ∧
      encodeMBAP 1 0 6 256 = .error (.frameEncode 256 8) ∧
      decodeMBAP [0x00, 0x01, 0, 0, 0x01, 0x00, 0x01] = .ok ⟨1, 0, 256, 1⟩ ∧
      decodeMBAP [0x00, 0x01, 0, 0, 0x01, 0x01, 0x01] = .error (.malformedHeader .badLength) ∧
      decodeMBAP [0x00, 0x01, 0, 0x01, 0x00, 0x02, 0x01] = .error (.malformedHeader .badProtocolId) ∧
      decodeMBAP [0x00, 0x01, 0, 0, 0x00, 0x06] = .error (.frameDecode .headerSize) := by decide

theorem test_frames :
    encodeFrame 1 1 [0x03, 0, 0, 0, 4] = .ok [0, 1, 0, 0, 0, 6, 1, 0x03, 0, 0, 0, 4] ∧
      decodeFrame [0, 1, 0, 0, 0, 3, 1, 0x83, 0x02, 0x00, 0x02] = .ok (⟨1, 0, 3, 1⟩, [0x83, 0x02], [0x00, 0x02]) ∧
      decodeFrame [0, 1, 0, 0, 0, 6, 1, 0x03, 0, 0, 0] = .error (.frameDecode .truncated) := by decide

theorem test_build_exception :
    buildException 0x03 0x02 = .ok [0x83, 0x02] ∧ buildException 0x83 0x02 = .ok [0x83, 0x02] ∧
      buildException 0x03 0x09 = .ok [0x83, 0x09] ∧ buildException 256 1 = .error (.frameEncode 256 8) := by decide

/-! ### The instructions (V7, V8, V10): at most two checks each -/

theorem test_read_coils_value : outOf (exec (.readCoilsReq 10 1) small) = some (.pdu [0x01, 0x01, 0x01]) := by decide

theorem test_read_coils_past_the_end : outOf (exec (.readCoilsReq 65535 2) small) = some (.pdu [0x81, 0x02]) := by decide

theorem test_read_discrete_inputs_value :
    outOf (exec (.readDiscreteInputsReq 0 1) small) = some (.pdu [0x02, 0x01, 0x01]) := by decide

theorem test_read_holding_registers_zeros :
    outOf (exec (.readHoldingRegistersReq 2 4) small) = some (.pdu [0x03, 0x08, 0, 0, 0, 0, 0, 0, 0, 0]) := by decide

/-- E5: both faults at once give the quantity's code. -/
theorem test_read_holding_registers_quantity_first :
    outOf (exec (.readHoldingRegistersReq 65535 126) small) = some (.pdu [0x83, 0x03]) := by decide

theorem test_read_input_registers_value :
    outOf (exec (.readInputRegistersReq 5 1) small) = some (.pdu [0x04, 0x02, 0x12, 0x34]) := by decide

theorem test_read_input_registers_edge :
    outOf (exec (.readInputRegistersReq 9 2) small) = some (.pdu [0x84, 0x02]) := by decide

/-- V8: writing false to a true coil removes its entry, so equal contents are equal data. -/
theorem test_write_single_coil_off :
    (nextState (exec (.writeSingleCoilReq 10 0x0000) small)).map (fun t => (t.coils, t.out)) =
      some ([], .pdu [0x05, 0x00, 0x0A, 0x00, 0x00]) := by decide

theorem test_write_single_coil_other :
    outOf (exec (.writeSingleCoilReq 10 0x1234) (withOther .reject03)) = some (.pdu [0x85, 0x03]) ∧
      (nextState (exec (.writeSingleCoilReq 11 0x1234) (withOther .asTrue))).map (fun t => (t.coils, t.out)) =
        some ([(10, true), (11, true)], .pdu [0x05, 0x00, 0x0B, 0x12, 0x34]) := by decide

theorem test_write_single_register_last :
    (nextState (exec (.writeSingleRegisterReq 65535 0xFFFF) small)).map (fun t => (t.hr, t.out)) =
      some ([(1, 3), (65535, 0xFFFF)], .pdu [0x06, 0xFF, 0xFF, 0xFF, 0xFF]) := by decide

theorem test_write_multiple_coils_values :
    (nextState (exec (.writeMultipleCoilsReq 19 10 2 [0xCD, 0x01]) { small with coils := [] })).map
        (fun t => (t.coils, t.out)) =
      some ([(19, true), (21, true), (22, true), (25, true), (26, true), (27, true)],
        .pdu [0x0F, 0x00, 0x13, 0x00, 0x0A]) := by decide

theorem test_write_multiple_coils_byte_count :
    outOf (exec (.writeMultipleCoilsReq 65535 2 2 [0x03]) small) = some (.pdu [0x8F, 0x03]) ∧
      nextState (exec (.writeMultipleCoilsReq 65535 2 1 [0x03]) small) =
        some { small with out := .pdu [0x8F, 0x02] } := by decide

theorem test_write_multiple_registers_values :
    (nextState (exec (.writeMultipleRegistersReq 1 2 4 [0x00, 0x0A, 0x01, 0x02]) small)).map (fun t => (t.hr, t.out)) =
      some ([(1, 0x000A), (2, 0x0102)], .pdu [0x10, 0x00, 0x01, 0x00, 0x02]) := by decide

theorem test_write_multiple_registers_faults :
    outOf (exec (.writeMultipleRegistersReq 0 2 3 [0, 1, 2]) small) = some (.pdu [0x90, 0x03]) ∧
      nextState (exec (.writeMultipleRegistersReq 65535 2 4 [0, 1, 0, 2]) small) =
        some { small with out := .pdu [0x90, 0x02] } := by decide

theorem test_parse_read_coils :
    outOf (exec (.readCoilsRsp 2 [0x0D, 0x03]) (sending sentRc)) =
        some (.bits [true, false, true, true, false, false, false, false, true, true]) ∧
      outOf (exec (.readCoilsRsp 2 [0xFF]) (sending sentRc)) = some (.error (.frameDecode .pduSize)) := by decide

theorem test_parse_read_discrete_inputs :
    outOf (exec (.readDiscreteInputsRsp 1 [0xFF]) (sending ⟨.readDiscreteInputs, 0, 1, 0⟩)) = some (.bits [true]) ∧
      outOf (exec (.readDiscreteInputsRsp 2 [0xFF, 0x01]) (sending ⟨.readDiscreteInputs, 0, 1, 0⟩)) =
        some (.error (.frameDecode .byteCount)) := by decide

theorem test_parse_read_holding_registers :
    outOf (exec (.readHoldingRegistersRsp 8 [0, 0, 0, 0, 0, 0, 0, 0]) (sending sentRhr)) = some (.regs [0, 0, 0, 0]) ∧
      outOf (exec (.readHoldingRegistersRsp 2 [0x12, 0x34]) (sending sentRhr)) =
        some (.error (.frameDecode .byteCount)) := by decide

theorem test_parse_read_input_registers :
    outOf (exec (.readInputRegistersRsp 2 [0x12, 0x34]) (sending ⟨.readInputRegisters, 5, 1, 0⟩)) =
        some (.regs [0x1234]) ∧
      outOf (exec (.readInputRegistersRsp 8 [0, 0, 0, 0, 0, 0, 0, 0]) (sending sentRhr)) =
        some (.error (.frameDecode .fcMismatch)) := by decide

theorem test_parse_write_single_coil :
    outOf (exec (.writeSingleCoilRsp 10 0xFF00) (sending sentWsc)) = some (.fields 10 0xFF00) ∧
      outOf (exec (.writeSingleCoilRsp 10 0x0000) (sending sentWsc)) =
        some (.error (.networkReceive .echoMismatch)) := by decide

theorem test_parse_write_single_register :
    outOf (exec (.writeSingleRegisterRsp 1 3) (sending ⟨.writeSingleRegister, 1, 1, 3⟩)) = some (.fields 1 3) ∧
      outOf (exec (.writeSingleRegisterRsp 2 3) (sending ⟨.writeSingleRegister, 1, 1, 3⟩)) =
        some (.error (.networkReceive .echoMismatch)) := by decide

theorem test_parse_write_multiple_coils :
    outOf (exec (.writeMultipleCoilsRsp 19 10) (sending ⟨.writeMultipleCoils, 19, 10, 0⟩)) = some (.fields 19 10) ∧
      outOf (exec (.writeMultipleCoilsRsp 19 9) (sending ⟨.writeMultipleCoils, 19, 10, 0⟩)) =
        some (.error (.networkReceive .echoMismatch)) := by decide

theorem test_parse_write_multiple_registers :
    outOf (exec (.writeMultipleRegistersRsp 1 2) (sending sentWmr)) = some (.fields 1 2) ∧
      outOf (exec (.writeMultipleRegistersRsp 1 3) (sending sentWmr)) =
        some (.error (.networkReceive .echoMismatch)) := by decide

theorem test_parse_exception :
    outOf (exec (.exceptionRsp 4 2) (sending sentRhr)) = some (.error (.modbusException 2)) ∧
      outOf (exec (.exceptionRsp 3 9) (sending sentRhr)) = some (.error (.modbusException 9)) := by decide

/-! ### Steps (E1, E4, P3, P4) -/

theorem test_serve_read :
    outOf (step (serving [0x00, 0x01, 0, 0, 0, 6, 1, 0x04, 0x00, 0x05, 0x00, 0x01])) =
      some (.response 4 [0x00, 0x01, 0, 0, 0, 5, 1, 0x04, 0x02, 0x12, 0x34]) := by decide

/-- R366: the write is in the store while its response is held, another write comes next, and then the response is handed
back as it was. -/
theorem test_write_before_a_held_response :
    (nextState (step { serving [0, 1, 0, 0, 0, 6, 1, 6, 0, 1, 0, 5] with inbox := [.serveHeld 4] })).map
        (fun t => (t.hr, t.held, t.out)) =
      some ([(1, 5)], [.response 4 [0, 1, 0, 0, 0, 6, 1, 6, 0, 1, 0, 5]], .none) ∧
      (nextState (step (holding (.writeRegs .hr 1 [8])))).map (fun t => (t.hr, t.held)) =
        some ([(1, 8)], [.pdu [9], .response 4 [7]]) ∧
      (nextState (step (holding (.handBack 1)))).map (fun t => (t.held, t.out)) =
        some ([.pdu [9]], .response 4 [7]) := by decide

/-- P3 step 3: the unit ID is copied, and bytes after the frame are kept. -/
theorem test_serve_unknown_function :
    (nextState (step (serving [0x00, 0x22, 0, 0, 0, 3, 7, 0x07, 0x00, 0x55]))).map (fun t => (t.conns, t.out)) =
      some ([(4, [0x55]), (9, [0xAA])], .response 4 [0x00, 0x22, 0, 0, 0, 3, 7, 0x87, 0x01]) := by decide

theorem test_serve_bad_protocol :
    nextState (step (serving [0x00, 0x01, 0x00, 0x01, 0, 6, 1, 0x03, 0, 0, 0, 4])) =
      some { small with conns := [(9, [0xAA])], out := .fatal 4 (.malformedHeader .badProtocolId) } := by decide

theorem test_device_write_input_register :
    (nextState (step (doing (.writeRegs .ir 9 [7])))).map (fun t => (t.ir, t.out)) =
      some ([(5, 0x1234), (9, 7)], .ok) := by decide

theorem test_table_word_runs_next :
    outOf (step (small.withFetchWord 40 0x01000A0001)) =
      some (.response 0 [0, 0, 0, 0, 0, 4, 0, 0x01, 0x01, 0x01]) := by decide

/-- V9: the builders. -/
theorem test_builders :
    buildRequest (.readCoils 65535 1) = .ok [0x01, 0xFF, 0xFF, 0x00, 0x01] ∧
      buildRequest (.readHoldingRegisters 0 200) = .error (.validation .count) ∧
      buildRequest (.writeSingleCoil 10 (.int 0x1234)) = .ok [0x05, 0x00, 0x0A, 0x12, 0x34] ∧
      buildRequest (.writeMultipleCoils 65535 [true, true]) = .error (.validation .span) ∧
      buildRequest (.writeMultipleRegisters 1 [0x000A, 0x0102]) =
        .ok [0x10, 0x00, 0x01, 0x00, 0x02, 0x04, 0x00, 0x0A, 0x01, 0x02] ∧
      buildRequest (.writeMultipleRegisters 0 [65536]) = .error (.frameEncode 65536 16) := by decide

/-! ### Witnesses: the hypotheses of each obligation can be met, each clause at an edge of its range -/

theorem test_witness_packers_check_the_width :
    ((0 : Int) ≤ 255 ∧ (255 : Int) ≤ 255) ∧ ((-1 : Int) < 0 ∨ (255 : Int) < -1) ∧ ((256 : Int) < 0 ∨ (255 : Int) < 256) ∧
      ((0 : Int) ≤ 65535 ∧ (65535 : Int) ≤ 65535) ∧ ((65536 : Int) < 0 ∨ (65535 : Int) < 65536) := by decide

theorem test_witness_fields_are_unsigned :
    1 < ([0xFF, 0xFE] : Bytes).length ∧ ([0xFF, 0xFE] : Bytes).length < 2 + 1 ∧ 0 + 1 < ([0xFF, 0xFE] : Bytes).length ∧
      ([0xFF, 0xFE] : Bytes).length < 1 + 2 ∧ u16At [0xFF, 0xFE] 0 = .ok 0xFFFE := by decide

theorem test_witness_parse_takes_the_format :
    ([3, 0, 0, 0] : Bytes).length ≠ 1 + formatSize [.u16, .u16] ∧
      ([3, 0, 0, 0, 4, 9] : Bytes).length = 1 + formatSize [.u16, .u16, .u8] ∧
      [FieldWidth.u16, .u16, .u8][2]? = some .u8 ∧ [FieldWidth.u16, .u16, .u8][0]? = some .u16 ∧
      parseFormat [3, 0, 0, 0, 4, 9] 1 [.u16, .u16, .u8] = .ok [0, 4, 9] := by decide

theorem test_witness_two_field_pdus :
    parseFormat (3 :: [0xFF, 0xFF, 0, 4]) 1 [.u16, .u16] = .ok [65535, 4] ∧
      parseFormat (3 :: [0xFF, 0xFF, 0]) 1 [.u16, .u16] = .error (.frameDecode .pduSize) := by decide

theorem test_witness_pack_bits :
    1 < (packBits (List.replicate 9 true)).length ∧ ((packBits (List.replicate 9 true)).getD 1 0).getLsbD 0 = true ∧
      ((packBits (List.replicate 9 true)).getD 1 0).getLsbD 1 = false := by decide

theorem test_witness_unpack_bits :
    ([0xFF, 0x01] : Bytes).length = (9 + 7) / 8 ∧ ([0xFF, 0xFF] : Bytes).length = ([0xFF, 0x01] : Bytes).length ∧
      unpackBits [0xFF, 0xFF] 9 = unpackBits [0xFF, 0x01] 9 := by decide

theorem test_witness_bit_round_trip :
    1 ≤ [true].length ∧ ([0x01] : Bytes).length = (1 + 7) / 8 ∧ packBits (unpackBits [0x01] 1) = [0x01] ∧
      packBits (unpackBits [0xFF] 1) ≠ [0xFF] := by decide

theorem test_witness_register_round_trip :
    1 < ([0x1234, 0xFFFF] : List U16).length ∧ ([0x12, 0x34] : Bytes).length = 2 * 1 ∧
      packRegs [0x1234, 0xFFFF] = [0x12, 0x34, 0xFF, 0xFF] := by decide

theorem test_witness_decode_encode :
    (Instr.writeMultipleCoilsReq 65535 1968 249 (zeros 249)).WellFormed ∧
      (encode (.writeMultipleCoilsReq 65535 1968 249 (zeros 249))).length = 255 ∧
      (encode (.exceptionRsp 0x7F 0xFF)).length = 2 := by
  simp only [Instr.WellFormed, Instr.wellFormed, multiDataFits, encode, List.length_cons, List.length_append, zeros_length]
  decide

theorem test_witness_encode_decode :
    decode .response [0xFF, 0xFF] = .ok (.exceptionRsp 0x7F 0xFF) ∧
      decode .request [0x01, 0xFF, 0xFF, 0xFF, 0xFF] = .ok (.readCoilsReq 0xFFFF 0xFFFF) := by decide

theorem test_witness_unknown_function :
    (0x00 : Byte) ∉ ([0x01, 0x02, 0x03, 0x04, 0x05, 0x06, 0x0F, 0x10] : List Byte) ∧
      (0xFF : Byte) ∉ ([0x01, 0x02, 0x03, 0x04, 0x05, 0x06, 0x0F, 0x10] : List Byte) ∧ (0xFF : Byte).getLsbD 7 = true ∧
      outOf (handleRequest [0x11] small) = some (.pdu [0x91, 0x01]) := by decide

/-- Quantity and address at the edges of the three clauses, and a PDU one byte short and one over. -/
theorem test_witness_read_coils :
    1 ≤ (2000 : U16).toNat ∧ (2000 : U16).toNat ≤ 2000 ∧ (63536 : U16).toNat + (2000 : U16).toNat ≤ small.params.sizeCoils ∧
      (0 : U16).toNat < 1 ∧ 2000 < (2001 : U16).toNat ∧
      small.params.sizeCoils < (63537 : U16).toNat + (2000 : U16).toNat ∧
      ((0x01 : Byte) :: [0, 0, 0]).length ≠ 5 ∧ ((0x01 : Byte) :: [0, 0, 0, 4, 0]).length ≠ 5 := by decide

theorem test_witness_read_discrete_inputs :
    1 ≤ (16 : U16).toNat ∧ (16 : U16).toNat ≤ 2000 ∧ (0 : U16).toNat + (16 : U16).toNat ≤ small.params.sizeDi ∧
      (0 : U16).toNat < 1 ∧ 2000 < (2001 : U16).toNat ∧ small.params.sizeDi < (1 : U16).toNat + (16 : U16).toNat ∧
      ((0x02 : Byte) :: [0, 0, 0]).length ≠ 5 := by decide

theorem test_witness_read_holding_registers :
    1 ≤ (125 : U16).toNat ∧ (125 : U16).toNat ≤ 125 ∧ (65411 : U16).toNat + (125 : U16).toNat ≤ small.params.sizeHr ∧
      (0 : U16).toNat < 1 ∧ 125 < (126 : U16).toNat ∧ small.params.sizeHr < (65412 : U16).toNat + (125 : U16).toNat ∧
      ((0x03 : Byte) :: [0, 0, 0]).length ≠ 5 := by decide

theorem test_witness_read_input_registers :
    1 ≤ (10 : U16).toNat ∧ (10 : U16).toNat ≤ 125 ∧ (0 : U16).toNat + (10 : U16).toNat ≤ small.params.sizeIr ∧
      (0 : U16).toNat < 1 ∧ 125 < (126 : U16).toNat ∧ small.params.sizeIr < (1 : U16).toNat + (10 : U16).toNat ∧
      ((0x04 : Byte) :: [0, 0, 0]).length ≠ 5 := by decide

theorem test_witness_coil_value :
    coilValue .reject03 0xFF00 = some true ∧ coilValue .asTrue 0x0000 = some false ∧ (0x0001 : U16) ≠ 0xFF00 ∧
      (0x0001 : U16) ≠ 0x0000 ∧ coilValue .reject03 0x0001 = none ∧ coilValue .asTrue 0x0001 = some true ∧
      coilValue .asFalse 0xFF01 = some false := by decide

theorem test_witness_write_single_coil :
    coilValue small.params.wscOther 0xFF00 = some true ∧ (65535 : U16).toNat < small.params.sizeCoils ∧
      coilValue small.params.wscOther 0x1234 = none ∧ coilValue ten.params.wscOther 0x0000 ≠ none ∧
      ten.params.sizeCoils ≤ (10 : U16).toNat ∧ ((0x05 : Byte) :: [0, 10, 0xFF]).length ≠ 5 := by decide

theorem test_witness_write_single_register :
    (9 : U16).toNat < ten.params.sizeHr ∧ ten.params.sizeHr ≤ (10 : U16).toNat ∧
      ((0x06 : Byte) :: [0, 1, 0, 3, 0]).length ≠ 5 := by decide

theorem test_witness_write_multiple_coils :
    1 ≤ (1968 : U16).toNat ∧ (1968 : U16).toNat ≤ 1968 ∧ (246 : Byte).toNat = ((1968 : U16).toNat + 7) / 8 ∧
      (zeros 246).length = (246 : Byte).toNat ∧
      (63568 : U16).toNat + (1968 : U16).toNat ≤ small.params.sizeCoils ∧
      small.params.sizeCoils < (63569 : U16).toNat + (1968 : U16).toNat ∧ 1968 < (1969 : U16).toNat ∧
      (1 : Byte).toNat ≠ ((10 : U16).toNat + 7) / 8 ∧ ([0xFF] : Bytes).length ≠ (2 : Byte).toNat ∧
      ((0x0F : Byte) :: [0, 0, 0, 1]).length < 6 := by
  rw [zeros_length]; decide

theorem test_witness_write_multiple_registers :
    1 ≤ (123 : U16).toNat ∧ (123 : U16).toNat ≤ 123 ∧ (246 : Byte).toNat = 2 * (123 : U16).toNat ∧
      (zeros 246).length = (246 : Byte).toNat ∧
      (65413 : U16).toNat + (123 : U16).toNat ≤ small.params.sizeHr ∧
      small.params.sizeHr < (65414 : U16).toNat + (123 : U16).toNat ∧ 123 < (124 : U16).toNat ∧
      (3 : Byte).toNat ≠ 2 * (2 : U16).toNat ∧ ([0] : Bytes).length ≠ (2 : Byte).toNat ∧
      ((0x10 : Byte) :: [0, 0, 0, 1]).length < 6 := by
  rw [zeros_length]; decide

theorem test_witness_write_then_read :
    coilValue small.params.wscOther 0x0000 = some false ∧ (65535 : U16).toNat < small.params.sizeCoils ∧
      (65535 : U16).toNat < small.params.sizeHr ∧ 1 ≤ (9 : U16).toNat ∧ (9 : U16).toNat ≤ 1968 ∧
      (2 : Byte).toNat = ((9 : U16).toNat + 7) / 8 ∧ ([0xFF, 0xFF] : Bytes).length = (2 : Byte).toNat ∧
      (65527 : U16).toNat + (9 : U16).toNat ≤ small.params.sizeCoils ∧ (4 : Byte).toNat = 2 * (2 : U16).toNat ∧
      (65534 : U16).toNat + (2 : U16).toNat ≤ small.params.sizeHr := by decide

theorem test_witness_parse_read_bits :
    (sending sentRc).sent = some sentRc ∧ sentRc.fc = .readCoils ∧ ([0x0D, 0x03] : Bytes).length = (2 : Byte).toNat ∧
      (2 : Byte).toNat = (sentRc.qty.toNat + 7) / 8 ∧ ([0x0D] : Bytes).length ≠ (2 : Byte).toNat ∧
      ([0x0D] : Bytes).length = (1 : Byte).toNat ∧ (1 : Byte).toNat ≠ (sentRc.qty.toNat + 7) / 8 := by decide

theorem test_witness_parse_read_regs :
    (sending sentRhr).sent = some sentRhr ∧ sentRhr.fc = .readHoldingRegisters ∧
      ([0, 0, 0, 0, 0, 0, 0, 0] : Bytes).length = (8 : Byte).toNat ∧ (8 : Byte).toNat = 2 * sentRhr.qty.toNat ∧
      ([0] : Bytes).length ≠ (8 : Byte).toNat ∧ ([0, 0] : Bytes).length = (2 : Byte).toNat ∧
      (2 : Byte).toNat ≠ 2 * sentRhr.qty.toNat := by decide

theorem test_witness_parse_write_single :
    (sending sentWsc).sent = some sentWsc ∧ sentWsc.fc = .writeSingleCoil ∧ (10 : U16) = sentWsc.addr ∧
      (0xFF00 : U16) = sentWsc.wireValue ∧ (11 : U16) ≠ sentWsc.addr ∧ (0 : U16) ≠ sentWsc.wireValue ∧
      (sentWsc.fc.code :: [0, 10, 0xFF, 0, 0]).length ≠ 5 := by decide

theorem test_witness_parse_write_multiple :
    (sending sentWmr).sent = some sentWmr ∧ sentWmr.fc = .writeMultipleRegisters ∧ (1 : U16) = sentWmr.addr ∧
      (2 : U16) = sentWmr.qty ∧ (2 : U16) ≠ sentWmr.addr ∧ (3 : U16) ≠ sentWmr.qty ∧
      (sentWmr.fc.code :: [0, 1, 0]).length ≠ 5 := by decide

theorem test_witness_parse_exception :
    ((1#1 ++ (0x7F : BitVec 7) : Byte) :: [2, 0]).length ≠ 2 ∧ ((1#1 ++ (0 : BitVec 7) : Byte) :: []).length ≠ 2 ∧
      (1#1 ++ (3 : BitVec 7) : Byte) = 0x83 := by decide

theorem test_witness_parse_response :
    (0x04 : Byte) &&& 0x80 = 0 ∧ (0x04 : Byte) ≠ sentRhr.fc.code ∧ (0x84 : Byte) &&& 0x80 ≠ 0 ∧
      sentRc.fc = .readCoils ∧ sentRhr.fc = .readHoldingRegisters ∧ sentWsc.fc = .writeSingleCoil ∧
      sentWmr.fc = .writeMultipleRegisters ∧
      outOf (parseResponse sentRhr [0x04] small) = some (.error (.frameDecode .fcMismatch)) ∧
      outOf (parseResponse sentRhr [0x83, 2, 0] small) = some (.error (.frameDecode .exceptionSize)) := by decide

theorem test_witness_response_without_request :
    (Instr.readCoilsRsp 1 [1]).direction = .response ∧ small.sent = none ∧
      refusalOf (exec (.readCoilsRsp 1 [1]) small) = some .noSentRequest ∧ (sending sentRhr).sent = some sentRhr ∧
      (encode (.readCoilsRsp 1 [1])).head? ≠ some sentRhr.fc.code := by decide

theorem test_witness_receive_response :
    decodeFrame [0, 3, 0, 1, 0, 4, 1, 1, 1, 1] = .error (.malformedHeader .badProtocolId) ∧
      decodeFrame [0, 3, 0, 0, 0, 4, 1, 1, 1, 1] = .ok (⟨3, 0, 4, 1⟩, [1, 1, 1], []) ∧ (3 : U16) ≠ 4 ∧
      (1 : Byte) ≠ 2 ∧ receiveResponse [0, 3, 0, 0, 0, 4, 1, 1, 1, 1] 3 1 = .ok ([1, 1, 1], []) := by decide

theorem test_witness_check_range :
    checkRange (-1) 0 1 = .error (.validation .address) ∧ checkRange 65536 1 1 = .error (.validation .address) ∧
      checkRange 65535 0 1 = .error (.validation .count) ∧ checkRange 0 2001 2000 = .error (.validation .count) ∧
      checkRange 65535 2 2000 = .error (.validation .span) ∧ checkRange 65535 1 2000 = .ok () := by decide

theorem test_witness_read_builders :
    checkRange 65535 2 2000 = .error (.validation .span) ∧ checkRange 0 2000 2000 = .ok () ∧
      checkRange 65411 125 125 = .ok () ∧ buildReadHoldingRegisters 0 125 = .ok [0x03, 0, 0, 0, 0x7D] := by decide

theorem test_witness_single_write_builders :
    checkRange 65536 1 1 = .error (.validation .address) ∧ checkRange 65535 1 1 = .ok () ∧
      ((0 : Int) ≤ 65535 ∧ (65535 : Int) ≤ 65535) ∧ (65535 : Int) < 65536 ∧ (-1 : Int) < 0 ∧
      buildWriteSingleRegister 1 (-1) = .error (.frameEncode (-1) 16) := by decide

theorem test_witness_multiple_write_builders :
    checkRange 0 ([] : List Bool).length 1968 = .error (.validation .count) ∧
      checkRange 65535 [true].length 1968 = .ok () ∧
      checkRange 0 ([] : List Int).length 123 = .error (.validation .count) ∧
      checkRange 65534 [(0 : Int), 65535].length 123 = .ok () ∧ [(0 : Int), 65536, -1] = [0] ++ 65536 :: [-1] ∧
      (65535 : Int) < 65536 ∧
      buildWriteMultipleRegisters 0 [0, 65536, -1] = .error (.frameEncode 65536 16) := by decide

/-- A built request that is answered 02, one that is answered 03, and one that is answered normally. -/
theorem test_witness_built_requests :
    buildRequest (.readInputRegisters 9 2) = .ok [0x04, 0, 9, 0, 2] ∧
      outOf (handleRequest [0x04, 0, 9, 0, 2] small) = some (.pdu [0x84, 2]) ∧
      buildRequest (.writeSingleCoil 0 (.int 1)) = .ok [0x05, 0, 0, 0, 1] ∧
      outOf (handleRequest [0x05, 0, 0, 0, 1] small) = some (.pdu [0x85, 3]) ∧
      buildRequest (.readInputRegisters 9 1) = .ok [0x04, 0, 9, 0, 1] ∧
      outOf (handleRequest [0x04, 0, 9, 0, 1] small) = some (.pdu [0x04, 2, 0, 0]) := by decide

theorem test_witness_whole_exchange :
    buildRequest (.readCoils 10 1) = .ok [0x01, 0, 10, 0, 1] ∧
      outOf (parseResponse (sentRequest (.readCoils 10 1)) [0x01, 1, 1] small) = some (.bits [true]) ∧
      outOf (parseResponse (sentRequest (.writeSingleCoil 10 (.bool true))) [0x05, 0, 10, 0xFF, 0] small) =
        some (.fields 10 0xFF00) := by decide

theorem test_witness_decode_mbap :
    ([0, 1, 0, 0, 0, 6] : Bytes).length ≠ 7 ∧ (1 : U16) ≠ 0 ∧ (2 : U16).toNat < 3 ∧ 256 < (257 : U16).toNat ∧
      3 ≤ (3 : U16).toNat ∧ (256 : U16).toNat ≤ 256 := by decide

theorem test_witness_encode_mbap :
    ¬ ((0 : Int) ≤ 65536 ∧ (65536 : Int) ≤ 65535) ∧ ((0 : Int) ≤ 65535 ∧ (65535 : Int) ≤ 65535) ∧
      ¬ ((0 : Int) ≤ -1 ∧ (-1 : Int) ≤ 65535) ∧ ¬ ((0 : Int) ≤ 256 ∧ (256 : Int) ≤ 255) ∧
      ((0 : Int) ≤ 255 ∧ (255 : Int) ≤ 255) := by decide

theorem test_witness_decode_frame :
    ([0, 1, 0, 0, 0, 3] : Bytes).length < 7 ∧
      decodeMBAP (([0, 1, 0, 1, 0, 3, 1] : Bytes).take 7) = .error (.malformedHeader .badProtocolId) ∧
      decodeMBAP (([0, 1, 0, 0, 0, 3, 1, 0x83] : Bytes).take 7) = .ok ⟨1, 0, 3, 1⟩ ∧
      ([0, 1, 0, 0, 0, 3, 1, 0x83] : Bytes).length < 7 + ((3 : U16).toNat - 1) ∧
      7 + ((3 : U16).toNat - 1) ≤ ([0, 1, 0, 0, 0, 3, 1, 0x83, 2] : Bytes).length := by decide

theorem test_witness_frame_round_trip :
    (0 : Int) ≤ 65535 ∧ (65535 : Int) ≤ 65535 ∧ (3 : Int) ≤ 3 ∧ (256 : Int) ≤ 256 ∧ (255 : Int) ≤ 255 ∧
      2 ≤ ([0x83, 2] : Bytes).length ∧ (zeros 255).length ≤ 255 := by
  rw [zeros_length]; decide

theorem test_witness_build_exception :
    ((256 : Int) < 0 ∨ (255 : Int) < 256) ∧ ((-1 : Int) < 0 ∨ (255 : Int) < -1) ∧ ((0 : Int) ≤ 255 ∧ (255 : Int) ≤ 255) ∧
      buildException 0 1 = .ok [0x80, 1] ∧ buildException 255 255 = .ok [0xFF, 0xFF] := by decide

/-- A count of 0, the last legal range, and one entry past it, from each side of the store. -/
theorem test_witness_mem_read :
    refusalOf (step (doing (.readBits .di 0 0))) = some .emptyAccess ∧
      (0 : Int) ≤ 15 ∧ (1 : Int) ≤ 1 ∧ (15 : Int) + 1 ≤ bitSize small.params .di ∧
      outOf (step (doing (.readBits .di 15 1))) = some (.bits [false]) ∧
      outOf (step (doing (.readBits .di 16 1))) = some (.error (.addressError .di 16 1)) ∧
      outOf (step (doing (.readBits .coils (-1) 2))) = some (.error (.addressError .coils (-1) 2)) ∧
      refusalOf (step (doing (.readRegs .ir 0 (-1)))) = some .emptyAccess ∧
      outOf (step (doing (.readRegs .ir 5 2))) = some (.regs [0x1234, 0]) ∧
      outOf (step (doing (.readRegs .ir 9 2))) = some (.error (.addressError .ir 9 2)) := by decide

theorem test_witness_mem_write_bits :
    refusalOf (step (doing (.writeBits .di 0 []))) = some .emptyAccess ∧
      outOf (step (doing (.writeBits .di 15 [true, true]))) = some (.error (.addressError .di 15 2)) ∧
      [true, true] ≠ [] ∧ (0 : Int) ≤ 14 ∧ (14 : Int) + [true, true].length ≤ bitSize small.params .di ∧
      outOf (step (doing (.writeBits .di 14 [true, true]))) = some .ok := by decide

theorem test_witness_mem_write_regs :
    refusalOf (step (doing (.writeRegs .ir 0 []))) = some .emptyAccess ∧
      outOf (step (doing (.writeRegs .ir (-1) [1, 2]))) = some (.error (.addressError .ir (-1) 2)) ∧
      ([1, 2] : List U16) ≠ [] ∧ (0 : Int) ≤ 8 ∧ (8 : Int) + ([1, 2] : List U16).length ≤ regSize small.params .ir ∧
      outOf (step (doing (.writeRegs .ir 8 [1, 2]))) = some .ok := by decide

theorem test_witness_mem_write_then_read :
    outOf (step { small with inbox := [.writeBits .di 15 [true], .readBits .di 15 1] }) = some .ok ∧
      outOf (step { small with inbox := [.writeRegs .hr 65535 [9], .readRegs .hr 65535 1] }) = some .ok := by decide

theorem test_witness_step_runs :
    Table.get? (serving [0, 1, 0, 0, 0, 6, 1, 4, 0, 5, 0, 1]).conns 4 = some [0, 1, 0, 0, 0, 6, 1, 4, 0, 5, 0, 1] ∧
      decodeFrame [0, 1, 0, 0, 0, 6, 1, 4, 0, 5, 0, 1] = .ok (⟨1, 0, 6, 1⟩, [4, 0, 5, 0, 1], []) ∧
      decode .request [4, 0, 5, 0, 1] = .ok (.readInputRegistersReq 5 1) ∧
      (doing (.handleRequest [4, 0, 5, 0, 1])).inbox = .handleRequest [4, 0, 5, 0, 1] :: [] ∧
      (doing (.parse sentRhr [0x83, 2])).inbox = .parse sentRhr [0x83, 2] :: [] ∧
      decode .response [0x83, 2] = .ok (.exceptionRsp 3 2) ∧ 4 ∉ (serving []).awaiting := by decide

/-- Both request actions with a response to hold, both without one, and the first and the last of two held responses. -/
theorem test_witness_step_holds_and_hands_back :
    outOf (step (serving [0, 1, 0, 0, 0, 3, 1, 9, 0])) = some (.response 4 [0, 1, 0, 0, 0, 3, 1, 0x89, 1]) ∧
      (nextState (step { serving [0, 1, 0, 0, 0, 3, 1, 9, 0] with inbox := [.serveHeld 4] })).map State.held =
        some [.response 4 [0, 1, 0, 0, 0, 3, 1, 0x89, 1]] ∧
      outOf (step (doing (.handleRequest [4, 0, 5, 0, 1]))) = some (.pdu [4, 2, 0x12, 0x34]) ∧
      (nextState (step (doing (.handleRequestHeld [4, 0, 5, 0, 1])))).map State.held = some [.pdu [4, 2, 0x12, 0x34]] ∧
      outOf (step { serving [0] with inbox := [.serveHeld 4] }) = some (.fatal 4 (.frameDecode .truncated)) ∧
      outOf (step (doing (.handleRequestHeld [3]))) = some (.fatalCall (.frameDecode .pduSize)) ∧
      outOf (step (holding (.handBack 0))) = some (.pdu [9]) ∧
      outOf (step (holding (.handBack 1))) = some (.response 4 [7]) := by decide

/-- An open connection whose frame does not decode, one whose request has the wrong size, and one that is answered. -/
theorem test_witness_server_step :
    (serving [0, 1]).inbox = .serve 4 :: [] ∧ 4 ∉ (serving [0, 1]).awaiting ∧
      Table.get? (serving [0, 1]).conns 4 = some [0, 1] ∧
      decodeFrame [0, 1] = .error (.frameDecode .truncated) ∧
      decodeFrame [0, 1, 0, 0, 0, 3, 1, 3, 0] = .ok (⟨1, 0, 3, 1⟩, [3, 0], []) ∧
      outOf (step (serving [0, 1, 0, 0, 0, 3, 1, 3, 0])) = some (.fatal 4 (.frameDecode .pduSize)) ∧
      outOf (step (serving [0, 1, 0, 0, 0, 3, 1, 9, 0])) = some (.response 4 [0, 1, 0, 0, 0, 3, 1, 0x89, 1]) := by decide

theorem test_witness_frame_faults :
    ([0, 1, 0, 1, 0, 2] : Bytes).length < 7 ∧ 4 ∉ (serving [0, 1, 0, 1, 0, 2]).awaiting ∧
      ([0, 1, 0, 1, 0, 2, 1] : Bytes) = be16 1 ++ be16 1 ++ be16 2 ++ [1] ++ [] ∧
      outOf (step (serving [0, 1, 0, 1, 0, 2, 1])) = some (.fatal 4 (.malformedHeader .badProtocolId)) ∧
      outOf (step (serving [0, 1, 0, 0, 0, 2, 1])) = some (.fatal 4 (.malformedHeader .badLength)) ∧
      outOf (step (serving [0, 1, 0, 0, 0, 3, 1, 3])) = some (.fatal 4 (.frameDecode .truncated)) ∧
      decode .request (([3, 0] : Bytes).take ((3 : U16).toNat - 1)) = .error (.frame .pduSize) := by decide

theorem test_witness_other_connections :
    (serving [0, 1]).inbox = .serve 4 :: [] ∧ (9 : Nat) ≠ 4 ∧ outOf (step (serving [0, 1])) =
      some (.fatal 4 (.frameDecode .truncated)) ∧
      (nextState (step (serving [0, 1]))).map (fun t => Table.get? t.conns 9) = some (some [0xAA]) ∧
      (nextState (step { serving [0, 1] with held := [.response 9 [7]], inbox := [.serveHeld 4] })).map
        (fun t => (t.held, t.out)) = some ([.response 9 [7]], .fatal 4 (.frameDecode .truncated)) := by decide

/-- The second agent of two may start, bytes are appended, and a connection that is not open is neither fed nor served. -/
theorem test_witness_connections :
    (doing (.accept 7)).inbox = .accept 7 :: [] ∧ Table.get? small.conns 7 = none ∧
      (∀ n ∈ small.params.nAgents, small.conns.length < n) ∧ (doing (.close 4)).inbox = .close 4 :: [] ∧
      (doing (.deliver 4 [1])).inbox = .deliver 4 [1] :: [] ∧ Table.get? small.conns 4 = some [] ∧
      (nextState (step (doing (.deliver 7 [1])))).map State.conns = some [(4, [])] ∧
      (nextState (step (doing (.serve 7)))).map State.out = some .none ∧
      (nextState (step (doing (.serveHeld 7)))).map State.conns = some [(4, [])] := by decide

/-- Closing a connection that is open, holding a response, and not open; a turn of an agent that holds a response; and the
first place past the held responses. -/
theorem test_witness_close_and_busy :
    (nextState (step (holding (.close 4)))).map (fun t => (t.conns, t.held)) = some ([], [.pdu [9]]) ∧
      Table.get? (holding (.close 7)).conns 7 = none ∧ 7 ∉ (holding (.close 7)).awaiting ∧
      nextState (step (holding (.close 7))) = some { holding (.close 7) with inbox := [] } ∧
      4 ∈ (holding (.serve 4)).awaiting ∧
      nextState (step (holding (.serve 4))) = some { holding (.serve 4) with inbox := [] } ∧
      nextState (step (holding (.serveHeld 4))) = some { holding (.serveHeld 4) with inbox := [] } ∧
      (holding (.handBack 2)).held.length = 2 ∧
      nextState (step (holding (.handBack 2))) = some { holding (.handBack 2) with inbox := [] } := by decide

theorem test_witness_network_never_writes_inputs :
    (serving [0, 1]).inbox = .serve 4 :: [] ∧ (nextState (step (serving [0, 1]))).isSome = true ∧
      (doing (.handleRequest [6, 0, 5, 0, 0])).inbox = .handleRequest [6, 0, 5, 0, 0] :: [] ∧
      (nextState (step (doing (.handleRequestHeld [6, 0, 5, 0, 0])))).map State.ir = some [(5, 0x1234)] ∧
      (nextState (step (doing (.serveHeld 4)))).isSome = true ∧
      (nextState (step (doing (.handleRequest [6, 0, 5, 0, 0])))).map State.ir = some [(5, 0x1234)] := by decide

theorem test_witness_parameters :
    (nextState (step small)).map State.params = some small.params ∧
      (nextState (step (doing (.accept 7)))).map State.params = some small.params := by decide

/-- Each of the five kinds of ending occurs. -/
theorem test_witness_errors_write_nothing :
    outOf (step (doing (.writeRegs .ir 10 [1]))) = some (.error (.addressError .ir 10 1)) ∧
      outOf (step (doing (.handleRequest [3]))) = some (.fatalCall (.frameDecode .pduSize)) ∧
      outOf (step (serving [0])) = some (.fatal 4 (.frameDecode .truncated)) ∧
      outOf (step (doing (.handleRequest [9]))) = some (.pdu [0x89, 1]) ∧ (0x89 : Byte).getLsbD 7 = true ∧
      outOf (step (serving [0, 1, 0, 0, 0, 3, 1, 9, 0])) =
        some (.response 4 ([0, 1, 0, 0, 0, 3, 1] ++ [0x89, 1])) := by decide

theorem test_witness_handler_exceptions :
    outOf (handleRequest [0x90] small) = some (.pdu [0x90, 1]) ∧ hasExceptionBit (([0x90, 1] : Bytes).headD 0) = true ∧
      outOf (handleRequest [4, 0, 10, 0, 1] small) = some (.pdu [0x84, 2]) ∧
      outOf (handleRequest [4, 0, 10, 0, 0] small) = some (.pdu [0x84, 3]) := by decide

/-- Two states that agree on the store and differ in everything else. -/
theorem test_witness_same_store :
    (serving [1, 2]).params = small.params ∧ (serving [1, 2]).coils = small.coils ∧ (serving [1, 2]).di = small.di ∧
      (serving [1, 2]).hr = small.hr ∧ (serving [1, 2]).ir = small.ir ∧ serving [1, 2] ≠ small := by decide

theorem test_witness_construction :
    (⟨65536, 0, 2, 1, .asTrue, some 1⟩ : Params).Legal ∧
      (State.construct ⟨0, 3, 2, 1, .asTrue, some 1⟩ ⟨fun _ => true, fun a => a == 2, fun a => BitVec.ofNat 16 a, fun _ => 7⟩) =
        { params := ⟨0, 3, 2, 1, .asTrue, some 1⟩, coils := [], di := [(2, true)], hr := [(1, 1)], ir := [(0, 7)],
          conns := [], held := [], inbox := [], sent := none, out := .none } := by decide

theorem test_witness_invariant :
    (doing (.serve 4)).Inv ∧ (nextState (step (doing (.serve 4)))).isSome = true := by decide

theorem test_witness_invariant_held :
    (holding (.handBack 0)).Inv ∧ (nextState (step (holding (.handBack 0)))).isSome = true := by decide

/-- The new clause says something: a response held by a connection that is not open breaks it. -/
theorem test_invariant_excludes : ¬ HeldLegal forgotten := by decide

/-- Both bounds of accept refuse by name. -/
theorem test_accept_bounds :
    refusalOf (step (doing (.accept 4))) = some .connectionInUse ∧
      refusalOf (step { small with inbox := [.accept 7], conns := [(4, []), (5, [])] }) = some .agentLimit := by decide

end Sys2Proof.Tests
end

/-!
PROOFS. The reset state: it is the construction with the defaults of R10 and an all-zero INIT, and it meets the invariant.
-/

namespace Sys2Proof.Machine

open Sys2Proof

/-- An INIT that gives every entry the unlisted value leaves nothing to list, whatever the size. -/
@[simp] theorem fileInit_const {α : Type} [DecidableEq α] (unlisted : α) (a n : Nat) :
    fileInit unlisted (fun _ => unlisted) a n = [] := by
  induction n generalizing a with
  | zero => rfl
  | succ n ih => simp [fileInit, ih (a + 1)]

/-- A construction whose INIT is all zero is the reset state with the parameters put in place. -/
theorem construct_zero (p : Params) :
    State.construct p ⟨fun _ => false, fun _ => false, fun _ => 0, fun _ => 0⟩ = { State.reset with params := p } := by
  simp only [State.construct, fileInit_const]
  rfl

/-- The defaults of R10 are within its legal ranges; no agent bound is set, so there is none to be at least 1. -/
theorem config_params_legal : Config.params.Legal := by
  refine ⟨le_rfl, le_rfl, le_rfl, le_rfl, fun n hn => ?_⟩
  cases hn

/-- At reset no connection is open. -/
theorem reset_connsLegal : ConnsLegal State.reset :=
  ⟨List.Pairwise.nil, fun _ _ => Nat.zero_le _⟩

/-- At reset no response is held, so no agent waits. -/
theorem reset_heldLegal : HeldLegal State.reset := by
  have no_agent_waits : State.reset.awaiting = [] := rfl
  simp [HeldLegal, no_agent_waits]

/-- Settles O57: with the all-zero INIT no file lists an entry, so only the parameters are left to compare. -/
theorem resetIsAConstruction : Obligations.ResetIsAConstruction :=
  ⟨(construct_zero Config.params).symm, rfl, rfl, rfl, rfl, rfl⟩

/-- Settles O58: part by part, the memory by `reset_memory_wf`. -/
theorem resetMeetsTheInvariant : Obligations.ResetMeetsTheInvariant :=
  ⟨config_params_legal, reset_memory_wf, reset_connsLegal, reset_heldLegal, rfl⟩

end Sys2Proof.Machine

/-!
PROOFS. What every step keeps: the parameters fixed at construction and the invariant. Both are shown of one operation
at a time, and a step is an operation at the state with its action taken off the inbox.
-/

namespace Sys2Proof

/-- Listing an entry hides none. -/
theorem Table.get?_insert_ne_none {α : Type} {t : Table α} {c : Nat} (a : Nat) (v : α) (h : Table.get? t c ≠ none) :
    Table.get? (Table.insert t a v) c ≠ none := by
  by_cases hc : c = a
  · simp [hc]
  · rwa [Table.get?_insert_other t v hc]

namespace Machine

/-- What is kept from one state to a later one. -/
structure Preserves (s t : State) : Prop where
  params : t.params = s.params
  inv : s.Inv → t.Inv

theorem Preserves.refl (s : State) : Preserves s s := ⟨rfl, id⟩

theorem Preserves.trans {s t u : State} (h₁ : Preserves s t) (h₂ : Preserves t u) : Preserves s u :=
  ⟨h₂.params.trans h₁.params, fun h => h₂.inv (h₁.inv h)⟩

/-! ### The two ways in which an operation keeps the invariant -/

/-- The agents that wait are told by the held responses alone. -/
theorem awaiting_congr {s t : State} (h : t.held = s.held) : t.awaiting = s.awaiting :=
  congrArg (List.filterMap Held.conn?) h

/-- An update that leaves the connections and the held responses alone has only the memory to keep canonical. -/
theorem Preserves.of_memory {s t : State} (hp : t.params = s.params) (hc : t.conns = s.conns) (hh : t.held = s.held)
    (hsent : s.sent = none → t.sent = none) (hm : Memory.wf s → Memory.wf t) : Preserves s t := by
  refine ⟨hp, fun ⟨legal, wf, conns, held, sent⟩ => ⟨hp ▸ legal, hm wf, ?_, ?_, hsent sent⟩⟩
  · rwa [ConnsLegal, hc, hp]
  · rwa [HeldLegal, awaiting_congr hh, hc]

/-- An update of the connections and the held responses alone has these to keep legal. -/
theorem Preserves.of_agents {s : State} {conns : Table Bytes} {held : List Held}
    (hc : ConnsLegal s → ConnsLegal { s with conns := conns, held := held })
    (hh : HeldLegal s → HeldLegal { s with conns := conns, held := held }) :
    Preserves s { s with conns := conns, held := held } :=
  ⟨rfl, fun ⟨legal, wf, connsLegal, heldLegal, sent⟩ => ⟨legal, wf, hc connsLegal, hh heldLegal, sent⟩⟩

/-- Where no agent starts to wait, and none that still waits loses its connection, the held responses stay legal. -/
theorem heldLegal_of_sublist {s t : State} (h : HeldLegal s) (hsub : t.awaiting.Sublist s.awaiting)
    (hopen : ∀ c ∈ t.awaiting, Table.get? s.conns c ≠ none → Table.get? t.conns c ≠ none) : HeldLegal t :=
  ⟨h.1.sublist hsub, fun c hc => hopen c hc (h.2 c (hsub.subset hc))⟩

/-! ### The updates of the state -/

theorem Preserves.give {s t : State} (h : Preserves s t) (o : Output) : Preserves s (t.give o) :=
  h.trans (.of_memory rfl rfl rfl id id)

theorem give_preserves (s : State) (o : Output) : Preserves s (s.give o) :=
  .of_memory rfl rfl rfl id id

theorem memWriteBits_preserves {s t : State} {sp : BitSpace} {a : Int} {vals : List Bool}
    (h : s.memWriteBits sp a vals = .done t) : Preserves s t := by
  have wf : Memory.wf s → Memory.wf t := fun hs => memWriteBits_wf hs h
  obtain ⟨-, e⟩ | ⟨-, -, e⟩ | ⟨-, e⟩ := memWriteBits_cases s sp a vals <;> rw [e] at h <;> cases h
  exact .of_memory (by simp) (by simp) (by simp) (by simp) wf

theorem memWriteRegs_preserves {s t : State} {sp : RegSpace} {a : Int} {vals : List U16}
    (h : s.memWriteRegs sp a vals = .done t) : Preserves s t := by
  have wf : Memory.wf s → Memory.wf t := fun hs => memWriteRegs_wf hs h
  obtain ⟨-, e⟩ | ⟨-, -, e⟩ | ⟨-, e⟩ := memWriteRegs_cases s sp a vals <;> rw [e] at h <;> cases h
  exact .of_memory (by simp) (by simp) (by simp) (by simp) wf

/-- Listing a connection closes none, so only the number of agents is in question. -/
theorem setReceived_preserves {s : State} {c : Nat} {bytes : Bytes}
    (hn : ConnsLegal s → ∀ n ∈ s.params.nAgents, (Table.insert s.conns c bytes).length ≤ n) :
    Preserves s (s.setReceived c bytes) :=
  .of_agents (fun h => ⟨Table.sorted_insert h.1 c bytes, hn h⟩)
    fun h => heldLegal_of_sublist h (List.Sublist.refl _) fun _ _ => Table.get?_insert_ne_none c bytes

theorem setReceived_preserves_of_open {s : State} {c : Nat} {received : Bytes} (bytes : Bytes)
    (h : Table.get? s.conns c = some received) : Preserves s (s.setReceived c bytes) :=
  setReceived_preserves fun hs n hn => Table.length_insert_of_get? hs.1 bytes h ▸ hs.2 n hn

theorem setReceived_preserves_of_free {s : State} (c : Nat) (bytes : Bytes) (h : AgentFree s) :
    Preserves s (s.setReceived c bytes) :=
  setReceived_preserves fun _ n hn => (Table.length_insert_le s.conns c bytes).trans (h n hn)

/-- A connection ends together with the response that it holds, so every agent that still waits has its connection. -/
theorem dropConn_preserves (s : State) (c : Nat) : Preserves s (s.dropConn c) := by
  refine .of_agents (fun h => ⟨Table.sorted_erase h.1 c, fun n hn => ?_⟩) fun h => heldLegal_of_sublist h ?_ ?_
  · exact (Table.length_erase_le s.conns c).trans (h.2 n hn)
  · exact (s.dropConn_awaiting c).symm ▸ List.filter_sublist
  · intro d hd hopen
    have hdc : d ≠ c := by
      have := (s.dropConn_awaiting c) ▸ hd
      simpa using (List.mem_filter.mp this).2
    rwa [show Table.get? (Table.erase s.conns c) d = _ from Table.get?_erase_other s.conns hdc]

theorem fatalOn_preserves (s : State) (c : Nat) (e : CodecError) : Preserves s (s.fatalOn c e) :=
  (dropConn_preserves s c).give _

/-- Handing back takes a held response off the list. -/
theorem handBack_preserves (s : State) (k : Nat) : Preserves s (s.handBack k) := by
  cases e : s.held[k]? with
  | none => exact State.handBack_none e ▸ give_preserves s .none
  | some h =>
    have fewer : (s.held.eraseIdx k).filterMap Held.conn? |>.Sublist s.awaiting :=
      (List.eraseIdx_sublist s.held k).filterMap _
    have taken : Preserves s { s with held := s.held.eraseIdx k } :=
      .of_agents id fun hs => heldLegal_of_sublist hs fewer fun _ _ => id
    exact State.handBack_some e ▸ taken.give h.output

/-- A response frame may be held: its connection is open and holds none. -/
def State.CanHold (s : State) : Prop :=
  ∀ c frame, s.out = .response c frame → c ∉ s.awaiting ∧ Table.get? s.conns c ≠ none

/-- A result that is not a response frame puts no agent on wait. -/
theorem State.CanHold.of_out {s : State} {o : Output} (h : s.out = o) (ho : ∀ c frame, o ≠ .response c frame) :
    s.CanHold :=
  fun c frame e => absurd (h.symm.trans e) (ho c frame)

/-- Holding a response adds its agent, if it has one, to those that wait. -/
theorem awaiting_append (s : State) (h : Held) :
    { s with held := s.held ++ [h] }.awaiting = s.awaiting ++ h.conn?.toList := by
  rw [State.awaiting, List.filterMap_append]
  cases h <;> rfl

theorem heldLegal_append {s : State} {h : Held} (hs : HeldLegal s)
    (hh : ∀ c, h.conn? = some c → c ∉ s.awaiting ∧ Table.get? s.conns c ≠ none) :
    HeldLegal { s with held := s.held ++ [h] } := by
  obtain ⟨nodup, isOpen⟩ := hs
  rw [HeldLegal, awaiting_append]
  cases hc : h.conn? with
  | none => exact ⟨by simpa using nodup, by simpa using isOpen⟩
  | some c =>
    obtain ⟨notWaiting, cOpen⟩ := hh c hc
    exact ⟨by simpa using nodup.concat notWaiting, List.forall_mem_append.mpr ⟨isOpen, by simpa using cOpen⟩⟩

theorem hold_preserves {s : State} (h : s.CanHold) : Preserves s s.hold := by
  obtain ⟨-, e⟩ | ⟨held, ho, e⟩ := s.hold_cases
  · exact e.symm ▸ .refl s
  · have ready : ∀ c, held.conn? = some c → c ∉ s.awaiting ∧ Table.get? s.conns c ≠ none := by
      intro c hc
      cases held with
      | pdu p => cases hc
      | response d frame =>
        cases hc
        exact h c frame ho
    have added : Preserves s { s with held := s.held ++ [held] } :=
      .of_agents id fun hs => heldLegal_append hs ready
    exact e ▸ added.give .none

/-! ### The operations -/

/-- The next state of an outcome, if it is one, keeps what is kept. -/
def NextPreserves (s : State) (r : StepResult) : Prop := ∀ t, r = .next t → Preserves s t

theorem NextPreserves.next {s t : State} (h : Preserves s t) : NextPreserves s (.next t) := fun _ e => by
  cases e
  exact h

theorem NextPreserves.refused {s : State} (r : Refusal) : NextPreserves s (.refused r) := fun _ e => by
  cases e

/-- A result alone. -/
theorem NextPreserves.give (s : State) (o : Output) : NextPreserves s (.next (s.give o)) :=
  .next (give_preserves s o)

theorem finishRead_preserves {β : Type} (f : β → Output) (s : State) (r : Access β) :
    NextPreserves s (finishRead f s r) := by
  cases r with
  | done vals => exact .give s _
  | addressError space addr count => exact .give s _
  | refuse => exact .refused _

theorem finishStore_preserves {s : State} {r : Access State} (h : ∀ t, r = .done t → Preserves s t) :
    NextPreserves s (finishStore s r) := by
  cases r with
  | done t => exact .next ((h t rfl).give _)
  | addressError space addr count => exact .give s _
  | refuse => exact .refused _

theorem acceptConn_preserves (c : Nat) (s : State) : NextPreserves s (acceptConn c s) := by
  unfold acceptConn
  split_ifs with hOpen hFree
  · exact .refused _
  · exact .next ((setReceived_preserves_of_free c [] hFree).give _)
  · exact .refused _

theorem deliverBytes_preserves (c : Nat) (bytes : Bytes) (s : State) : Preserves s (deliverBytes c bytes s) := by
  unfold deliverBytes
  split
  next => exact give_preserves s _
  next received h => exact (setReceived_preserves_of_open _ h).give _

theorem handleRequest_preserves (pdu : Bytes) (s : State) : NextPreserves s (handleRequest pdu s) := by
  obtain ⟨t, e, hp, -, -, hc, hh, -, hs, hm, -⟩ := handleRequest_next pdu s
  exact e ▸ .next (.of_memory hp hc hh (fun h => hs.trans h) hm)

theorem parseResponse_preserves (req : SentRequest) (pdu : Bytes) (s : State) :
    NextPreserves s (parseResponse req pdu s) := by
  obtain ⟨t, e, ht, hs⟩ := parseResponse_next req pdu s
  rw [e, ht]
  exact .next (.of_memory rfl rfl rfl hs id)

theorem serverStep_preserves (c : Nat) (s : State) : NextPreserves s (serverStep c s) := by
  obtain ⟨-, e⟩ | ⟨_, _, -, -, e⟩ | ⟨received, h, pdu, rest, cause, hc, -, -, e⟩ |
    ⟨received, h, pdu, rest, t, r, hc, -, ht, -, -, -, e⟩ := serverStep_cases c s <;> rw [e]
  · exact .give s _
  · exact .next (fatalOn_preserves s c _)
  · exact .next ((setReceived_preserves_of_open rest hc).trans (fatalOn_preserves _ c _))
  · exact .next (((setReceived_preserves_of_open rest hc).trans (handleRequest_preserves pdu _ t ht)).give _)

theorem serveConn_preserves (c : Nat) (s : State) : NextPreserves s (serveConn c s) := by
  by_cases h : c ∈ s.awaiting
  · exact serveConn_busy h ▸ .give s _
  · exact serveConn_free h ▸ serverStep_preserves c s

/-! ### Holding a response -/

/-- HandleRequest answers with no frame. -/
theorem handleRequest_canHold {pdu : Bytes} {s t : State} (h : handleRequest pdu s = .next t) : t.CanHold := by
  obtain ⟨u, e, -, -, -, -, -, -, -, -, ⟨cause, rfl⟩ | ⟨r, hr, -, -⟩⟩ := handleRequest_next pdu s <;>
    cases e.symm.trans h
  · exact .of_out rfl (by simp)
  · exact .of_out hr (by simp)

/-- An agent that does not wait answers on its own connection, which stays open. -/
theorem serveConn_canHold {c : Nat} {s t : State} (h : serveConn c s = .next t) : t.CanHold := by
  by_cases hw : c ∈ s.awaiting
  · cases (serveConn_busy hw).symm.trans h
    exact .of_out rfl (by simp)
  · rw [serveConn_free hw] at h
    obtain ⟨-, e⟩ | ⟨_, _, -, -, e⟩ | ⟨_, _, _, _, _, -, -, -, e⟩ |
      ⟨received, hd, pdu, rest, u, r, hc, -, hu, -, -, -, e⟩ := serverStep_cases c s <;> cases e.symm.trans h
    · exact .of_out rfl (by simp)
    · exact .of_out rfl (by simp)
    · exact .of_out rfl (by simp)
    · obtain ⟨u', e', -, -, -, hconns, hheld, -⟩ := handleRequest_next pdu (s.setReceived c rest)
      cases e'.symm.trans hu
      intro d frame hout
      cases hout
      refine ⟨?_, ?_⟩
      · show c ∉ u.awaiting
        rwa [awaiting_congr hheld]
      · simp [hconns]

theorem holdResponse_preserves {s : State} {r : StepResult} (hr : NextPreserves s r)
    (hold : ∀ t, r = .next t → t.CanHold) : NextPreserves s (holdResponse r) := by
  cases r with
  | next t => exact .next ((hr t rfl).trans (hold_preserves (hold t rfl)))
  | fault r => nomatch r
  | refused r => exact .refused r

/-! ### Every action and every step -/

theorem perform_preserves (a : Action) (s : State) : NextPreserves s (perform a s) := by
  cases a with
  | accept c => exact acceptConn_preserves c s
  | close c => exact .next ((dropConn_preserves s c).give _)
  | deliver c bytes => exact .next (deliverBytes_preserves c bytes s)
  | serve c => exact serveConn_preserves c s
  | serveHeld c => exact holdResponse_preserves (serveConn_preserves c s) fun _ => serveConn_canHold
  | handleRequest pdu => exact handleRequest_preserves pdu s
  | handleRequestHeld pdu => exact holdResponse_preserves (handleRequest_preserves pdu s) fun _ => handleRequest_canHold
  | handBack k => exact .next (handBack_preserves s k)
  | readBits sp addr count => exact finishRead_preserves .bits s _
  | readRegs sp addr count => exact finishRead_preserves .regs s _
  | writeBits sp addr vals => exact finishStore_preserves fun _ => memWriteBits_preserves
  | writeRegs sp addr vals => exact finishStore_preserves fun _ => memWriteRegs_preserves
  | build call => exact .give s _
  | buildFrame tid uid pdu => exact .give s _
  | receive bytes sentTid cfgUid => exact .give s _
  | parse req pdu => exact parseResponse_preserves req pdu s
  | codec call => exact .give s _

theorem step_preserves (s : State) : NextPreserves s (step s) := by
  cases h : s.inbox with
  | nil => exact step_nil h ▸ .next (.refl s)
  | cons a rest =>
    have taken : Preserves s { s with inbox := rest } := .of_memory rfl rfl rfl id id
    exact step_cons h ▸ fun t ht => taken.trans (perform_preserves a _ t ht)

/-- Settles O59: each action keeps the invariant (`perform_preserves`), and taking it off the inbox does. -/
theorem stepKeepsTheInvariant : Obligations.StepKeepsTheInvariant :=
  fun s t hs ht => (step_preserves s t ht).inv hs

/-- Settles O52: each action keeps the parameters (`perform_preserves`), and taking it off the inbox does. -/
theorem parametersNeverChange : Obligations.ParametersNeverChange :=
  fun s t ht => (step_preserves s t ht).params

end Machine

end Sys2Proof

/-!
PROOFS. The constructed state: its register files hold INIT, and it meets the invariant for all legal parameters.
-/

namespace Sys2Proof.Machine

open Sys2Proof

theorem fileRead_cons {α : Type} (unlisted : α) (b : Nat) (w : α) (t : Table α) (a : Nat) :
    fileRead unlisted ((b, w) :: t) a = if a = b then w else fileRead unlisted t a := by
  unfold fileRead
  rw [Table.get?_cons]
  split_ifs <;> rfl

/-- A constructed file reads as INIT over its addresses and as unlisted elsewhere. -/
theorem fileRead_fileInit {α : Type} [DecidableEq α] (unlisted : α) (init : Nat → α) (a n c : Nat) :
    fileRead unlisted (fileInit unlisted init a n) c = if a ≤ c ∧ c < a + n then init c else unlisted := by
  induction n generalizing a with
  | zero =>
    rw [if_neg (by omega)]
    rfl
  | succ n ih =>
    by_cases hc : c = a
    · subst hc
      have rest : fileRead unlisted (fileInit unlisted init (c + 1) n) c = unlisted := by
        rw [ih, if_neg (by omega)]
      rw [if_pos (by omega), fileInit]
      split_ifs with h
      · rw [rest, h]
      · rw [fileRead_cons, if_pos rfl]
    · have range : (a + 1 ≤ c ∧ c < a + 1 + n) ↔ (a ≤ c ∧ c < a + (n + 1)) := by omega
      have rest : fileRead unlisted (fileInit unlisted init a (n + 1)) c =
          fileRead unlisted (fileInit unlisted init (a + 1) n) c := by
        rw [fileInit]
        split_ifs
        · rfl
        · rw [fileRead_cons, if_neg hc]
      rw [rest, ih, if_congr range rfl rfl]

/-- A constructed file of `size` entries holds INIT at every address. -/
theorem fileRead_fileInit_zero {α : Type} [DecidableEq α] (unlisted : α) (init : Nat → α) {size a : Nat}
    (h : a < size) : fileRead unlisted (fileInit unlisted init 0 size) a = init a := by
  rw [fileRead_fileInit, if_pos (by omega)]

theorem fileInit_zero_canonical {α : Type} [DecidableEq α] (unlisted : α) (init : Nat → α) (size : Nat) :
    Table.Canonical unlisted size (fileInit unlisted init 0 size) := by
  obtain ⟨sorted, bounds⟩ := canonical_fileInit unlisted init size 0
  refine ⟨sorted, fun p hp => ?_⟩
  obtain ⟨-, lt, ne⟩ := bounds p hp
  exact ⟨by omega, ne⟩

theorem construct_memory_wf (p : Params) (init : Init) : Memory.wf (State.construct p init) :=
  ⟨fileInit_zero_canonical _ _ _, fileInit_zero_canonical _ _ _, fileInit_zero_canonical _ _ _,
    fileInit_zero_canonical _ _ _⟩

/-- No connection is open and no response held, so legal parameters and canonical files are all there is to show. -/
theorem construct_inv {p : Params} (init : Init) (h : p.Legal) : (State.construct p init).Inv :=
  ⟨h, construct_memory_wf p init, ⟨List.Pairwise.nil, fun _ _ => Nat.zero_le _⟩, reset_heldLegal, rfl⟩

/-- Settles O56: the invariant by `construct_inv`, each file's contents by `fileRead_fileInit_zero`. -/
theorem constructionHoldsInit : Obligations.ConstructionHoldsInit := fun _ init legal =>
  ⟨construct_inv init legal, rfl,
    fun _ => fileRead_fileInit_zero _ init.coils, fun _ => fileRead_fileInit_zero _ init.di,
    fun _ => fileRead_fileInit_zero _ init.hr, fun _ => fileRead_fileInit_zero _ init.ir,
    rfl, rfl, rfl, rfl⟩

end Sys2Proof.Machine

/-!
PROOFS. Bit packing and register packing (spec 20_memory.md R64 to R67). Bit strings are compared by the number of a bit
over the whole string; register strings go by recursion on the values, two bytes at a time.
-/

namespace Sys2Proof.Machine

open Sys2Proof

/-! ### Bits -/

/-- Bit `i` of a byte string in R65's order: bit `i mod 8` of byte `i / 8`, and 0 past the end. -/
abbrev wireBit (b : Bytes) (i : Nat) : Bool := (b.getD (i / 8) 0).getLsbD (i % 8)

/-- A bit of a byte is what R66's shift and mask take out of it. -/
theorem shift_mask_eq_getLsbD (x : Byte) (k : Nat) : ((x >>> k &&& 1#8) == 1#8) = x.getLsbD k := by
  rw [BitVec.and_one_eq_setWidth_ofBool_getLsbD, BitVec.getLsbD_ushiftRight, Nat.add_zero]
  cases x.getLsbD k <;> decide

/-- Byte strings of one size with the same bits are equal. -/
theorem bytes_eq_of_wireBit {b b' : Bytes} (hl : b.length = b'.length)
    (h : ∀ i, i < 8 * b.length → wireBit b i = wireBit b' i) : b = b' := by
  refine List.ext_getElem hl fun j hj hj' => BitVec.eq_of_getLsbD_eq fun k hk => ?_
  have byte : (8 * j + k) / 8 = j := by omega
  have bit : (8 * j + k) % 8 = k := by omega
  have := h (8 * j + k) (by omega)
  rwa [wireBit, wireBit, byte, bit, List.getD_eq_getElem b 0 hj, List.getD_eq_getElem b' 0 hj'] at this

/-- PackBits, bit for bit (R65). -/
theorem packBits_getLsbD (vals : List Bool) {j k : Nat} (hj : j < packedSize vals.length) (hk : k < 8) :
    ((packBits vals).getD j 0).getLsbD k = vals.getD (8 * j + k) false := by
  have byte : (packBits vals).getD j 0 = byteOfBits fun k => vals.getD (8 * j + k) false := by
    simp [packBits, hj]
  rw [byte, byteOfBits_getLsbD _ hk]

theorem packBits_wireBit (vals : List Bool) {i : Nat} (hi : i < 8 * packedSize vals.length) :
    wireBit (packBits vals) i = vals.getD i false := by
  rw [wireBit, packBits_getLsbD vals (by omega) (by omega), Nat.div_add_mod]

theorem unpackBits_getD (b : Bytes) (n i : Nat) :
    (unpackBits b n).getD i false = if i < n then wireBit b i else false := by
  split_ifs with h
  · rw [List.getD_eq_getElem _ _ (by simpa using h), unpackBits_getElem]
  · exact List.getD_eq_default _ _ (by simpa using h)

/-- UnpackBits reads the first `n` bits alone. -/
theorem unpackBits_congr {b b' : Bytes} {n : Nat} (h : ∀ i, i < n → wireBit b' i = wireBit b i) :
    unpackBits b' n = unpackBits b n :=
  List.map_congr_left fun i hi => h i (List.mem_range.mp hi)

theorem unpackBits_packBits (vals : List Bool) : unpackBits (packBits vals) vals.length = vals := by
  refine List.ext_getElem (by simp) fun i _ hi => ?_
  have inside : i < 8 * packedSize vals.length := by
    simp only [packedSize]
    omega
  rw [unpackBits_getElem]
  exact (packBits_wireBit vals inside).trans (List.getD_eq_getElem vals false hi)

/-- Packing what was unpacked keeps the first `n` bits and clears the padding. -/
theorem packBits_unpackBits_wireBit {b : Bytes} {n i : Nat} (hb : b.length = packedSize n) (hi : i < 8 * b.length) :
    wireBit (packBits (unpackBits b n)) i = if i < n then wireBit b i else false := by
  rw [packBits_wireBit _ (by rwa [unpackBits_length, ← hb]), unpackBits_getD]

/-- Settles O5, by `packBits_getLsbD`. -/
theorem packBitsIsLsbFirstZeroPadded : Obligations.PackBitsIsLsbFirstZeroPadded := by
  refine fun vals => ⟨packBits_length vals, fun j k hj hk => ?_⟩
  rw [packBits_getLsbD vals (by simpa using hj) hk]
  split_ifs with h
  · exact List.getD_eq_getElem vals false h
  · exact List.getD_eq_default vals false (by omega)

/-- Settles O6: each value is one bit of the string (`shift_mask_eq_getLsbD`), and only the first `n` bits are read. -/
theorem unpackBitsIgnoresPadding : Obligations.UnpackBitsIgnoresPadding := by
  refine fun b n _ => ⟨unpackBits_length b n, fun i hi => ?_, fun b' _ => unpackBits_congr⟩
  rw [shift_mask_eq_getLsbD, List.getElem?_eq_getElem (by simpa using hi), unpackBits_getElem]

/-- Settles O7: the two strings differ in the padding alone (`packBits_unpackBits_wireBit`). -/
theorem bitPackingRoundTrip : Obligations.BitPackingRoundTrip := by
  refine ⟨fun vals _ => unpackBits_packBits vals, fun b n hb => ⟨fun e i hn hi => ?_, fun zero => ?_⟩⟩
  · have := packBits_unpackBits_wireBit hb hi
    rwa [e, if_neg (by omega)] at this
  · refine bytes_eq_of_wireBit (by simp [hb, packedSize]) fun i hi => ?_
    have inside : i < 8 * b.length := by simpa [hb, packedSize] using hi
    rw [packBits_unpackBits_wireBit hb inside]
    split_ifs with h
    · rfl
    · exact (zero i (by omega) inside).symm

/-! ### Registers -/

/-- Value `k` stands at bytes `2k` and `2k + 1`, its high byte first. -/
theorem packRegs_getElem? (vals : List U16) (k : Nat) :
    (packRegs vals)[2 * k]? = vals[k]?.map hiByte ∧ (packRegs vals)[2 * k + 1]? = vals[k]?.map loByte := by
  induction vals generalizing k with
  | nil => exact ⟨rfl, rfl⟩
  | cons v vs ih =>
    cases k with
    | zero => exact ⟨rfl, rfl⟩
    | succ k => exact ih k

/-- UnpackRegs takes two bytes for each value. -/
theorem unpackRegs_cons (hi lo : Byte) (b : Bytes) (n : Nat) :
    unpackRegs (hi :: lo :: b) (n + 1) = word16 hi lo :: unpackRegs b n := by
  rw [unpackRegs, List.range_succ_eq_map, List.map_cons, List.map_map]
  rfl

theorem unpackRegs_packRegs (vals : List U16) : unpackRegs (packRegs vals) vals.length = vals := by
  induction vals with
  | nil => rfl
  | cons v vs ih =>
    show unpackRegs (hiByte v :: loByte v :: packRegs vs) (vs.length + 1) = v :: vs
    rw [unpackRegs_cons, word16_hiByte_loByte, ih]

theorem packRegs_unpackRegs {b : Bytes} {n : Nat} (h : b.length = 2 * n) : packRegs (unpackRegs b n) = b := by
  induction n generalizing b with
  | zero =>
    rw [List.length_eq_zero_iff.mp h]
    rfl
  | succ n ih =>
    match b, h with
    | hi :: lo :: b, h =>
      have rest : b.length = 2 * n := by
        simp only [List.length_cons] at h
        omega
      simp [unpackRegs_cons, packRegs, be16, ih rest]

/-- Settles O8: the bytes by `packRegs_getElem?`, the two inverses by recursion over the values. -/
theorem registerPackingRoundTrip : Obligations.RegisterPackingRoundTrip := by
  refine ⟨fun vals => ⟨packRegs_length vals, fun k hk => ?_, unpackRegs_packRegs vals⟩, fun b n => packRegs_unpackRegs⟩
  have := packRegs_getElem? vals k
  rwa [List.getElem?_eq_getElem hk] at this

end Sys2Proof.Machine

/-!
PROOFS. MemRead and MemWrite as steps of the device side (spec 20_memory.md R70, R80 to R83), and that the network port
writes to COILS and HR alone (R82). What a bit space and a register space share is shown of one register file.
-/

namespace Sys2Proof.Machine

open Sys2Proof

/-! ### Bounds -/

theorem not_inBounds {size : Nat} {a n : Int} (h : a < 0 ∨ size < a + n) : ¬ InBounds size a n :=
  fun ⟨h0, _, h1⟩ => by omega

theorem inBounds_of_ne_nil {α : Type} {size : Nat} {a : Int} {vals : List α} (hv : vals ≠ []) (h0 : 0 ≤ a)
    (h1 : a + vals.length ≤ size) : InBounds size a vals.length :=
  ⟨h0, by exact_mod_cast List.length_pos_iff.mpr hv, h1⟩

/-! ### Reading -/

section reads

variable {α : Type} {f : List α → Output} {unlisted : α} {space : Space} {size : Nat} {t : Table α} {a n : Int} {s : State}

theorem finishRead_empty (hn : n < 1) :
    finishRead f s (memRead unlisted space size t a n) = .refused .emptyAccess := by
  rw [memRead_empty _ hn, finishRead]

theorem finishRead_inBounds (h : InBounds size a n) :
    finishRead f s (memRead unlisted space size t a n) =
      .next (s.give (f (fileReadAll unlisted t a.toNat n.toNat))) := by
  rw [memRead_inBounds _ h, finishRead]

theorem finishRead_outOfBounds (hn : 1 ≤ n) (h : a < 0 ∨ size < a + n) :
    finishRead f s (memRead unlisted space size t a n) = .next (s.give (.error (.addressError space a n))) := by
  rw [memRead_outOfBounds _ hn (not_inBounds h), finishRead]

end reads

/-- Settles O42: the step is a MemRead of one register file, which ends in one of three ways. -/
theorem memReadSelectsTheRange : Obligations.MemReadSelectsTheRange := by
  refine fun s a n rest => ⟨fun sp h => ?_, fun sp h => ?_⟩ <;> rw [step_cons h]
  · exact ⟨fun hn => finishRead_empty hn, fun h0 h1 h2 => finishRead_inBounds ⟨h0, h1, h2⟩,
      fun hn hb => finishRead_outOfBounds hn hb⟩
  · exact ⟨fun hn => finishRead_empty hn, fun h0 h1 h2 => finishRead_inBounds ⟨h0, h1, h2⟩,
      fun hn hb => finishRead_outOfBounds hn hb⟩

/-! ### Writing -/

/-- A range that was just written reads as the values written (R83). -/
theorem fileReadAll_fileWriteAll {α : Type} [DecidableEq α] (unlisted : α) (t : Table α) (a : Nat) (vals : List α) :
    fileReadAll unlisted (fileWriteAll unlisted t a vals) a vals.length = vals :=
  List.ext_getElem (by simp) fun k _ hk => by
    rw [fileReadAll_getElem, fileRead_fileWriteAll_inside unlisted vals t a k hk]

/-- COILS or DI with the values written from `a` on. -/
def State.writeBits (s : State) (sp : BitSpace) (a : Nat) (vals : List Bool) : State :=
  s.setBitFile sp (fileWriteAll Config.unlistedBit (s.bitFile sp) a vals)

/-- HR or IR with the values written from `a` on. -/
def State.writeRegs (s : State) (sp : RegSpace) (a : Nat) (vals : List U16) : State :=
  s.setRegFile sp (fileWriteAll Config.unlistedReg (s.regFile sp) a vals)

section writes

variable (s : State) (a : Nat)

@[simp] theorem State.give_bitAt (o : Output) (sp : BitSpace) (c : Nat) : (s.give o).bitAt sp c = s.bitAt sp c := by
  rw [State.bitAt, State.give_bitFile, State.bitAt]

@[simp] theorem State.give_regAt (o : Output) (sp : RegSpace) (c : Nat) : (s.give o).regAt sp c = s.regAt sp c := by
  rw [State.regAt, State.give_regFile, State.regAt]

theorem State.writeBits_bitAt_inside (sp : BitSpace) (vals : List Bool) {k : Nat} (h : k < vals.length) :
    (s.writeBits sp a vals).bitAt sp (a + k) = vals[k] := by
  rw [State.bitAt, State.writeBits, State.setBitFile_bitFile, fileRead_fileWriteAll_inside _ vals _ a k h]

theorem State.writeRegs_regAt_inside (sp : RegSpace) (vals : List U16) {k : Nat} (h : k < vals.length) :
    (s.writeRegs sp a vals).regAt sp (a + k) = vals[k] := by
  rw [State.regAt, State.writeRegs, State.setRegFile_regFile, fileRead_fileWriteAll_inside _ vals _ a k h]

theorem State.writeBits_bitAt_outside (sp : BitSpace) (vals : List Bool) {c : Nat}
    (h : c < a ∨ a + vals.length ≤ c) : (s.writeBits sp a vals).bitAt sp c = s.bitAt sp c := by
  rw [State.bitAt, State.writeBits, State.setBitFile_bitFile, fileRead_fileWriteAll_outside _ vals _ a c h, State.bitAt]

theorem State.writeRegs_regAt_outside (sp : RegSpace) (vals : List U16) {c : Nat}
    (h : c < a ∨ a + vals.length ≤ c) : (s.writeRegs sp a vals).regAt sp c = s.regAt sp c := by
  rw [State.regAt, State.writeRegs, State.setRegFile_regFile, fileRead_fileWriteAll_outside _ vals _ a c h, State.regAt]

theorem State.writeBits_bitAt_other {sp sp' : BitSpace} (h : sp' ≠ sp) (vals : List Bool) (c : Nat) :
    (s.writeBits sp a vals).bitAt sp' c = s.bitAt sp' c := by
  rw [State.bitAt, State.writeBits, State.setBitFile_bitFile_other s sp sp' _ h, State.bitAt]

theorem State.writeRegs_regAt_other {sp sp' : RegSpace} (h : sp' ≠ sp) (vals : List U16) (c : Nat) :
    (s.writeRegs sp a vals).regAt sp' c = s.regAt sp' c := by
  rw [State.regAt, State.writeRegs, State.setRegFile_regFile_other s sp sp' _ h, State.regAt]

end writes

/-- Everything a device-side write on COILS or DI can do. -/
theorem perform_writeBits (s : State) (sp : BitSpace) (a : Int) (vals : List Bool) :
    (vals = [] → perform (.writeBits sp a vals) s = .refused .emptyAccess) ∧
    (vals ≠ [] → ¬ InBounds (bitSize s.params sp) a vals.length →
      perform (.writeBits sp a vals) s = .next (s.give (.error (.addressError sp.space a vals.length)))) ∧
    (InBounds (bitSize s.params sp) a vals.length →
      perform (.writeBits sp a vals) s = .next ((s.writeBits sp a.toNat vals).give .ok)) := by
  simp only [perform, State.memWriteBits]
  refine ⟨fun h => ?_, fun hv h => ?_, fun h => ?_⟩
  · rw [h, memWrite_empty, finishStore]
  · rw [memWrite_outOfBounds _ hv h, finishStore]
  · rw [memWrite_inBounds _ h, finishStore, State.writeBits]

/-- Everything a device-side write on HR or IR can do. -/
theorem perform_writeRegs (s : State) (sp : RegSpace) (a : Int) (vals : List U16) :
    (vals = [] → perform (.writeRegs sp a vals) s = .refused .emptyAccess) ∧
    (vals ≠ [] → ¬ InBounds (regSize s.params sp) a vals.length →
      perform (.writeRegs sp a vals) s = .next (s.give (.error (.addressError sp.space a vals.length)))) ∧
    (InBounds (regSize s.params sp) a vals.length →
      perform (.writeRegs sp a vals) s = .next ((s.writeRegs sp a.toNat vals).give .ok)) := by
  simp only [perform, State.memWriteRegs]
  refine ⟨fun h => ?_, fun hv h => ?_, fun h => ?_⟩
  · rw [h, memWrite_empty, finishStore]
  · rw [memWrite_outOfBounds _ hv h, finishStore]
  · rw [memWrite_inBounds _ h, finishStore, State.writeRegs]

/-- Settles O43: the three ends of the write by `perform_writeBits`, what the last one leaves by the laws of `writeBits`. -/
theorem memWriteBitsIsAllOrNothing : Obligations.MemWriteBitsIsAllOrNothing := by
  intro s sp a vals rest h
  rw [step_cons h]
  obtain ⟨hEmpty, hOut, hIn⟩ := perform_writeBits { s with inbox := rest } sp a vals
  refine ⟨hEmpty, fun hv hb => hOut hv (not_inBounds hb), fun hv h0 h1 =>
    ⟨_, hIn (inBounds_of_ne_nil hv h0 h1), rfl, by simp [State.writeBits], fun k hk => ?_, fun c hc => ?_,
      fun sp' c hne => ?_, ?_⟩⟩
  · rw [State.give_bitAt, State.writeBits_bitAt_inside _ _ sp vals hk]
  · rw [State.give_bitAt, State.writeBits_bitAt_outside _ _ sp vals hc]
    rfl
  · rw [State.give_bitAt, State.writeBits_bitAt_other _ _ hne]
    rfl
  · simp [State.writeBits]

/-- Settles O44: the three ends of the write by `perform_writeRegs`, what the last one leaves by the laws of `writeRegs`. -/
theorem memWriteRegsIsAllOrNothing : Obligations.MemWriteRegsIsAllOrNothing := by
  intro s sp a vals rest h
  rw [step_cons h]
  obtain ⟨hEmpty, hOut, hIn⟩ := perform_writeRegs { s with inbox := rest } sp a vals
  refine ⟨hEmpty, fun hv hb => hOut hv (not_inBounds hb), fun hv h0 h1 =>
    ⟨_, hIn (inBounds_of_ne_nil hv h0 h1), rfl, by simp [State.writeRegs], fun k hk => ?_, fun c hc => ?_,
      fun sp' c hne => ?_, ?_⟩⟩
  · rw [State.give_regAt, State.writeRegs_regAt_inside _ _ sp vals hk]
  · rw [State.give_regAt, State.writeRegs_regAt_outside _ _ sp vals hc]
    rfl
  · rw [State.give_regAt, State.writeRegs_regAt_other _ _ hne]
    rfl
  · simp [State.writeRegs]

/-! ### A write, then a read -/

/-- A write that gives ok was in bounds, and wrote every value. -/
theorem perform_writeBits_ok {s t : State} {sp : BitSpace} {a : Int} {vals : List Bool}
    (h : perform (.writeBits sp a vals) s = .next t) (ok : t.out = .ok) :
    InBounds (bitSize s.params sp) a vals.length ∧ t = (s.writeBits sp a.toNat vals).give .ok := by
  obtain ⟨hEmpty, hOut, hIn⟩ := perform_writeBits s sp a vals
  by_cases hb : InBounds (bitSize s.params sp) a vals.length
  · cases (hIn hb).symm.trans h
    exact ⟨hb, rfl⟩
  · by_cases hv : vals = []
    · cases (hEmpty hv).symm.trans h
    · cases (hOut hv hb).symm.trans h
      cases ok

theorem perform_writeRegs_ok {s t : State} {sp : RegSpace} {a : Int} {vals : List U16}
    (h : perform (.writeRegs sp a vals) s = .next t) (ok : t.out = .ok) :
    InBounds (regSize s.params sp) a vals.length ∧ t = (s.writeRegs sp a.toNat vals).give .ok := by
  obtain ⟨hEmpty, hOut, hIn⟩ := perform_writeRegs s sp a vals
  by_cases hb : InBounds (regSize s.params sp) a vals.length
  · cases (hIn hb).symm.trans h
    exact ⟨hb, rfl⟩
  · by_cases hv : vals = []
    · cases (hEmpty hv).symm.trans h
    · cases (hOut hv hb).symm.trans h
      cases ok

/-- A read of a range whose last write is `vals` gives `vals`. -/
theorem perform_readBits_of_written {s : State} {sp : BitSpace} {a : Int} {vals : List Bool} (t : Table Bool)
    (h : InBounds (bitSize s.params sp) a vals.length)
    (written : s.bitFile sp = fileWriteAll Config.unlistedBit t a.toNat vals) :
    perform (.readBits sp a vals.length) s = .next (s.give (.bits vals)) := by
  rw [perform, State.memReadBits, finishRead_inBounds h, written, Int.toNat_natCast, fileReadAll_fileWriteAll]

theorem perform_readRegs_of_written {s : State} {sp : RegSpace} {a : Int} {vals : List U16} (t : Table U16)
    (h : InBounds (regSize s.params sp) a vals.length)
    (written : s.regFile sp = fileWriteAll Config.unlistedReg t a.toNat vals) :
    perform (.readRegs sp a vals.length) s = .next (s.give (.regs vals)) := by
  rw [perform, State.memReadRegs, finishRead_inBounds h, written, Int.toNat_natCast, fileReadAll_fileWriteAll]

/-- Settles O45: the write was in bounds, so the read is, and reads what was written. -/
theorem memWriteThenMemReadReturnsTheValues : Obligations.MemWriteThenMemReadReturnsTheValues := by
  refine ⟨fun s t sp a vals rest h ht ok => ?_, fun s t sp a vals rest h ht ok => ?_⟩ <;> rw [step_cons h] at ht
  · obtain ⟨hb, e⟩ := perform_writeBits_ok ht ok
    have queue : t.inbox = .readBits sp a vals.length :: rest := by simp [e, State.writeBits]
    have sameSize : t.params = s.params := by simp [e, State.writeBits]
    have written : t.bitFile sp = fileWriteAll Config.unlistedBit (s.bitFile sp) a.toNat vals := by
      rw [e, State.give_bitFile, State.writeBits, State.setBitFile_bitFile]
      rfl
    exact ⟨_, (step_cons queue).trans (perform_readBits_of_written _ (sameSize ▸ hb) written), rfl⟩
  · obtain ⟨hb, e⟩ := perform_writeRegs_ok ht ok
    have queue : t.inbox = .readRegs sp a vals.length :: rest := by simp [e, State.writeRegs]
    have sameSize : t.params = s.params := by simp [e, State.writeRegs]
    have written : t.regFile sp = fileWriteAll Config.unlistedReg (s.regFile sp) a.toNat vals := by
      rw [e, State.give_regFile, State.writeRegs, State.setRegFile_regFile]
      rfl
    exact ⟨_, (step_cons queue).trans (perform_readRegs_of_written _ (sameSize ▸ hb) written), rfl⟩

/-! ### The network port -/

/-- An outcome's next state, if it is one, has DI and IR as before. -/
def KeepsInputs (s : State) (r : StepResult) : Prop := ∀ t, r = .next t → t.di = s.di ∧ t.ir = s.ir

theorem KeepsInputs.next {s t : State} (hd : t.di = s.di) (hi : t.ir = s.ir) : KeepsInputs s (.next t) := fun _ e => by
  cases e
  exact ⟨hd, hi⟩

theorem handleRequest_keepsInputs (pdu : Bytes) (s : State) : KeepsInputs s (handleRequest pdu s) := by
  obtain ⟨t, e, -, hd, hi, -⟩ := handleRequest_next pdu s
  exact e ▸ .next hd hi

theorem serverStep_keepsInputs (c : Nat) (s : State) : KeepsInputs s (serverStep c s) := by
  obtain ⟨-, e⟩ | ⟨_, _, -, -, e⟩ | ⟨_, _, _, _, _, -, -, -, e⟩ | ⟨_, _, pdu, rest, t, _, -, -, ht, -, -, -, e⟩ :=
    serverStep_cases c s <;> rw [e]
  · exact .next rfl rfl
  · exact .next rfl rfl
  · exact .next rfl rfl
  · obtain ⟨hd, hi⟩ := handleRequest_keepsInputs pdu (s.setReceived c rest) t ht
    exact .next hd hi

theorem serveConn_keepsInputs (c : Nat) (s : State) : KeepsInputs s (serveConn c s) := by
  by_cases h : c ∈ s.awaiting
  · exact serveConn_busy h ▸ .next rfl rfl
  · exact serveConn_free h ▸ serverStep_keepsInputs c s

theorem holdResponse_keepsInputs {s : State} {r : StepResult} (h : KeepsInputs s r) : KeepsInputs s (holdResponse r) := by
  cases r with
  | next t =>
    obtain ⟨hd, hi⟩ := h t rfl
    exact .next (t.hold_di.trans hd) (t.hold_ir.trans hi)
  | fault r => nomatch r
  | refused r => exact fun _ e => nomatch e

/-- Settles O51: each of the four actions that handle a request keeps DI and IR. -/
theorem networkNeverWritesInputs : Obligations.NetworkNeverWritesInputs := by
  rintro s t rest (⟨c, h | h⟩ | ⟨pdu, h | h⟩) ht <;> rw [step_cons h] at ht
  · exact serveConn_keepsInputs c { s with inbox := rest } t ht
  · exact holdResponse_keepsInputs (serveConn_keepsInputs c { s with inbox := rest }) t ht
  · exact handleRequest_keepsInputs pdu { s with inbox := rest } t ht
  · exact holdResponse_keepsInputs (handleRequest_keepsInputs pdu { s with inbox := rest }) t ht

end Sys2Proof.Machine

/-!
PROOFS. The encodings (spec 30_encoding.md): decoding inverts encoding on every instruction, encoding inverts decoding on
every PDU that decodes, and an instruction that is well formed fits a frame. The rows are grouped by their layouts.
-/

namespace Sys2Proof

/-! ### Decoding an encoding -/

/-- The PDU of an exception response is read back as it (R106, R108). -/
theorem decodeResponse_exceptionByte (function : BitVec 7) (code : Byte) :
    decodeResponse [exceptionByte function, code] = .ok (.exceptionRsp function code) := by
  simp only [decodeResponse, hasExceptionBit_exceptionByte, if_true, decodeException, extract_exceptionByte]

/-- Every instruction is read back from its PDU, whatever its operands. -/
theorem decode_encode (i : Instr) : decode i.direction (encode i) = .ok i := by
  cases i with
  | readCoilsReq a b | readDiscreteInputsReq a b | readHoldingRegistersReq a b | readInputRegistersReq a b
  | writeSingleCoilReq a b | writeSingleRegisterReq a b
  | writeSingleCoilRsp a b | writeSingleRegisterRsp a b | writeMultipleCoilsRsp a b | writeMultipleRegistersRsp a b =>
    exact decodePair_be16 _ a b
  | writeMultipleCoilsReq a q bc data | writeMultipleRegistersReq a q bc data => exact decodeMulti_be16 _ a q bc data
  | readCoilsRsp bc data | readDiscreteInputsRsp bc data | readHoldingRegistersRsp bc data
  | readInputRegistersRsp bc data => rfl
  | exceptionRsp function code => exact decodeResponse_exceptionByte function code

/-- A well-formed instruction's PDU has a size that a frame carries (R103). -/
theorem encode_fits_frame {i : Instr} (h : i.WellFormed) : 2 ≤ (encode i).length ∧ (encode i).length ≤ 255 := by
  cases i with
  | readCoilsReq a b | readDiscreteInputsReq a b | readHoldingRegistersReq a b | readInputRegistersReq a b
  | writeSingleCoilReq a b | writeSingleRegisterReq a b
  | writeSingleCoilRsp a b | writeSingleRegisterRsp a b | writeMultipleCoilsRsp a b | writeMultipleRegistersRsp a b
  | exceptionRsp function code => simp [encode]
  | writeMultipleCoilsReq a q bc data | writeMultipleRegistersReq a q bc data =>
    have fits : data.length ≤ 249 := of_decide_eq_true h
    simp only [encode, List.length_cons, List.length_append, be16_length]
    omega
  | readCoilsRsp bc data | readDiscreteInputsRsp bc data | readHoldingRegistersRsp bc data
  | readInputRegistersRsp bc data =>
    have fits : data.length ≤ 253 := of_decide_eq_true h
    simp only [encode, List.length_cons]
    omega

/-- Settles O10: the round trip holds of every instruction, and the size bounds of the well-formed ones. -/
theorem decodeEncodeRoundTrip : Obligations.DecodeEncodeRoundTrip := fun i h =>
  ⟨decode_encode i, encode_fits_frame h⟩

/-! ### Encoding what was decoded -/

/-- A request's function code and its payload are the encoding of what the payload decodes to. -/
theorem encode_of_decodeRequestPayload {fc : FunctionCode} {payload : Bytes} {i : Instr}
    (h : decodeRequestPayload fc payload = .ok i) : encode i = fc.code :: payload := by
  cases fc with
  | readCoils | readDiscreteInputs | readHoldingRegisters | readInputRegisters
  | writeSingleCoil | writeSingleRegister =>
    obtain ⟨a, b, rfl, rfl⟩ := decodePair_ok h
    rfl
  | writeMultipleCoils | writeMultipleRegisters =>
    obtain ⟨a, q, bc, data, rfl, rfl⟩ := decodeMulti_ok h
    rfl

/-- A normal response's function code and its payload are the encoding of what the payload decodes to. -/
theorem encode_of_decodeResponsePayload {fc : FunctionCode} {payload : Bytes} {i : Instr}
    (h : decodeResponsePayload fc payload = .ok i) : encode i = fc.code :: payload := by
  cases fc with
  | readCoils | readDiscreteInputs | readHoldingRegisters | readInputRegisters =>
    obtain ⟨bc, data, rfl, rfl⟩ := decodeCounted_ok h
    rfl
  | writeSingleCoil | writeSingleRegister | writeMultipleCoils | writeMultipleRegisters =>
    obtain ⟨a, b, rfl, rfl⟩ := decodePair_ok h
    rfl

/-- Everything decodeResponse accepts: an exception response of two bytes (R296), or a known function code and a payload
of its layout (R291). -/
theorem decodeResponse_ok {pdu : Bytes} {i : Instr} (h : decodeResponse pdu = .ok i) :
    (∃ (function : BitVec 7) (code : Byte), pdu = [exceptionByte function, code] ∧ i = .exceptionRsp function code) ∨
    ∃ (fc : FunctionCode) (payload : Bytes), pdu = fc.code :: payload ∧ decodeResponsePayload fc payload = .ok i := by
  match pdu, h with
  | b :: payload, h =>
    simp only [decodeResponse] at h
    split_ifs at h with hb
    · obtain ⟨code, rfl, rfl⟩ := decodeException_ok h
      exact .inl ⟨_, code, by rw [exceptionByte_extract hb], rfl⟩
    · cases e : functionOfByte b with
      | none => rw [e] at h; cases h
      | some fc =>
        rw [e] at h
        exact .inr ⟨fc, payload, by rw [code_of_functionOfByte e], h⟩

theorem encode_of_decodeRequest {pdu : Bytes} {i : Instr} (h : decodeRequest pdu = .ok i) : encode i = pdu := by
  obtain ⟨fc, payload, rfl, hp⟩ := decodeRequest_ok h
  exact encode_of_decodeRequestPayload hp

theorem encode_of_decodeResponse {pdu : Bytes} {i : Instr} (h : decodeResponse pdu = .ok i) : encode i = pdu := by
  obtain ⟨function, code, rfl, rfl⟩ | ⟨fc, payload, rfl, hp⟩ := decodeResponse_ok h
  · rfl
  · exact encode_of_decodeResponsePayload hp

/-- Settles O11: each direction by what its decoder accepts (`decodeRequest_ok`, `decodeResponse_ok`). -/
theorem encodeDecodeRoundTrip : Obligations.EncodeDecodeRoundTrip := by
  intro d pdu i h
  cases d with
  | request => exact ⟨encode_of_decodeRequest h, decodeRequest_direction h⟩
  | response => exact ⟨encode_of_decodeResponse h, Machine.decodeResponse_direction h⟩

/-! ### Written-out PDUs -/

/-- Settles O9: the decoder runs on each of the twelve closed PDUs. -/
theorem sampleWordsDecode : Obligations.SampleWordsDecode := by
  unfold Obligations.SampleWordsDecode
  decide

end Sys2Proof

/-!
PROOFS. The packing and unpacking primitives (spec 40_frame_codec.md R140 to R143). An integer that fits a width is the
value of a word of that width, so that the laws of words speak of it; a format is read field by field.
-/

namespace Sys2Proof.Machine

open Sys2Proof

/-! ### Packing -/

/-- An integer that fits `w` bits is a word's value. -/
theorem exists_word_of_fits {w : Nat} {v : Int} (h0 : 0 ≤ v) (h1 : v < 2 ^ w) : ∃ x : BitVec w, v = x.toNat := by
  refine ⟨BitVec.ofInt w v, ?_⟩
  rw [BitVec.toNat_ofInt, Int.toNat_of_nonneg (Int.emod_nonneg _ (by positivity)), Int.emod_eq_of_lt h0]
  exact_mod_cast h1

theorem exists_byte_of_fits {v : Int} (h0 : 0 ≤ v) (h1 : v ≤ 255) : ∃ x : Byte, v = x.toNat :=
  exists_word_of_fits h0 (by omega)

theorem exists_u16_of_fits {v : Int} (h0 : 0 ≤ v) (h1 : v ≤ 65535) : ∃ x : U16, v = x.toNat :=
  exists_word_of_fits h0 (by omega)

theorem p8_of_not_fits {v : Int} (h : v < 0 ∨ 255 < v) : p8 v = .error (.frameEncode v 8) := if_pos h

theorem p16_of_not_fits {v : Int} (h : v < 0 ∨ 65535 < v) : p16 v = .error (.frameEncode v 16) := if_pos h

/-- The two wire bytes of a word, by division (R60). -/
theorem be16_eq_div_mod (x : U16) : be16 x = [BitVec.ofInt 8 (x.toNat / 256), BitVec.ofInt 8 (x.toNat % 256)] := by
  have hi : BitVec.ofNat 8 (x.toNat / 256) = hiByte x := by rw [← hiByte_toNat, BitVec.ofNat_toNat, BitVec.setWidth_eq]
  have lo : BitVec.ofNat 8 (x.toNat % 256) = loByte x := by rw [← loByte_toNat, BitVec.ofNat_toNat, BitVec.setWidth_eq]
  rw [be16, ← hi, ← lo]
  norm_cast

/-- Settles O1: a value that fits is a word's (`exists_word_of_fits`); any other meets the width check. -/
theorem packersCheckTheWidth : Obligations.PackersCheckTheWidth := by
  refine fun v => ⟨fun ⟨h0, h1⟩ => ?_, p8_of_not_fits, fun ⟨h0, h1⟩ => ?_, p16_of_not_fits⟩
  · obtain ⟨x, rfl⟩ := exists_byte_of_fits h0 h1
    simp
  · obtain ⟨x, rfl⟩ := exists_u16_of_fits h0 h1
    rw [p16_word, be16_eq_div_mod]

/-! ### Unpacking one field -/

theorem u8At_of_lt {b : Bytes} {i : Nat} (h : i < b.length) : u8At b i = .ok b[i] := by
  simp only [u8At, List.getElem?_eq_getElem h]

theorem u8At_past_end {b : Bytes} {i : Nat} (h : b.length ≤ i) : u8At b i = .error (.frameDecode .short) := by
  simp only [u8At, List.getElem?_eq_none h]

theorem u16At_of_lt {b : Bytes} {i : Nat} (h : i + 1 < b.length) : u16At b i = .ok (word16 b[i] b[i + 1]) := by
  simp only [u16At, List.getElem?_eq_getElem h, List.getElem?_eq_getElem (Nat.lt_of_succ_lt h)]

theorem u16At_past_end {b : Bytes} {i : Nat} (h : b.length ≤ i + 1) : u16At b i = .error (.frameDecode .short) := by
  simp only [u16At, List.getElem?_eq_none h]
  cases b[i]? <;> rfl

/-- Settles O2: inside the string the field's bytes are there; past its end the last byte of the field is not. -/
theorem fieldsAreUnsignedBigEndian : Obligations.FieldsAreUnsignedBigEndian := fun _ _ =>
  ⟨u8At_of_lt, fun h => u8At_past_end (Nat.le_of_lt_succ h), fun h => ⟨_, u16At_of_lt h, word16_toNat _ _⟩,
    fun h => u16At_past_end (Nat.le_of_lt_succ h)⟩

/-! ### Unpacking a format -/

/-- `U8` or `U16` at offset `i`, by the field's width, gives the number `n` (R142). -/
def FieldAt (b : Bytes) (i : Nat) : FieldWidth → Nat → Prop
  | .u8, n => ∃ v : Byte, u8At b i = .ok v ∧ n = v.toNat
  | .u16, n => ∃ v : U16, u16At b i = .ok v ∧ n = v.toNat

/-- A field that lies in the string is read. -/
theorem exists_fieldAt {b : Bytes} {i : Nat} {f : FieldWidth} (h : i + fieldSize f ≤ b.length) : ∃ n, FieldAt b i f n := by
  cases f with
  | u8 => exact ⟨_, _, u8At_of_lt h, rfl⟩
  | u16 => exact ⟨_, _, u16At_of_lt h, rfl⟩

/-- A format's fields are its first field, then the rest from where that field ends. -/
theorem unpackFields_cons {b : Bytes} {lo n : Nat} {f : FieldWidth} {fs : List FieldWidth} {vs : List Nat}
    (hf : FieldAt b lo f n) (hfs : unpackFields b (lo + fieldSize f) fs = .ok vs) :
    unpackFields b lo (f :: fs) = .ok (n :: vs) := by
  cases f with
  | u8 | u16 =>
    obtain ⟨v, hv, rfl⟩ := hf
    rw [fieldSize] at hfs
    simp only [unpackFields, hv, hfs]

/-- A format that lies in the string is read, each field at the size of the fields before it. -/
theorem unpackFields_of_le {b : Bytes} (fmt : List FieldWidth) {lo : Nat} (h : lo + formatSize fmt ≤ b.length) :
    ∃ vs : List Nat, unpackFields b lo fmt = .ok vs ∧ vs.length = fmt.length ∧
      ∀ i f, fmt[i]? = some f → ∃ n, FieldAt b (lo + formatSize (fmt.take i)) f n ∧ vs[i]? = some n := by
  induction fmt generalizing lo with
  | nil => exact ⟨[], rfl, rfl, fun i f hi => by simp at hi⟩
  | cons f fs ih =>
    have size : lo + fieldSize f + formatSize fs ≤ b.length := by rwa [formatSize, ← Nat.add_assoc] at h
    obtain ⟨n, hn⟩ := exists_fieldAt (Nat.le_of_add_right_le size)
    obtain ⟨vs, hvs, hlen, hfields⟩ := ih size
    refine ⟨n :: vs, unpackFields_cons hn hvs, congrArg (· + 1) hlen, fun i g hi => ?_⟩
    cases i with
    | zero =>
      cases hi
      exact ⟨n, hn, rfl⟩
    | succ i =>
      rw [List.take_succ_cons, formatSize, ← Nat.add_assoc]
      exact hfields i g hi

theorem parseFormat_of_size_ne {b : Bytes} {lo : Nat} {fmt : List FieldWidth} (h : b.length ≠ lo + formatSize fmt) :
    parseFormat b lo fmt = .error (.frameDecode .pduSize) := if_pos (by omega)

theorem parseFormat_of_size_eq {b : Bytes} {lo : Nat} {fmt : List FieldWidth} (h : b.length = lo + formatSize fmt) :
    parseFormat b lo fmt = unpackFields b lo fmt := if_neg (by omega)

/-- Settles O3: the size check, then `unpackFields_of_le`. -/
theorem parseTakesExactlyTheFormat : Obligations.ParseTakesExactlyTheFormat := by
  refine fun b lo fmt => ⟨parseFormat_of_size_ne, fun h => ?_⟩
  obtain ⟨vs, hvs, hlen, hfields⟩ := unpackFields_of_le fmt h.ge
  refine ⟨vs, (parseFormat_of_size_eq h).trans hvs, hlen, fun i _ => ⟨fun hi => ?_, fun hi => ?_⟩⟩
  · obtain ⟨_, ⟨v, hv, rfl⟩, hvi⟩ := hfields i _ hi
    exact ⟨v, hv, hvi⟩
  · obtain ⟨_, ⟨v, hv, rfl⟩, hvi⟩ := hfields i _ hi
    exact ⟨v, hv, hvi⟩

/-! ### The PDUs of two fields -/

/-- Four bytes are two words. -/
theorem eq_be16_append_of_length {payload : Bytes} (h : payload.length = 4) : ∃ x y : U16, payload = be16 x ++ be16 y := by
  match payload, h with
  | [a1, a0, b1, b0], _ => exact ⟨word16 a1 a0, word16 b1 b0, by simp [be16]⟩

theorem parseFormat_be16_pair (b : Byte) (x y : U16) :
    parseFormat (b :: (be16 x ++ be16 y)) 1 [.u16, .u16] = .ok [x.toNat, y.toNat] := by
  rw [parseFormat_of_size_eq rfl]
  simp [unpackFields, u16At, be16]

/-- Settles O4: of four bytes both give the two words, and of any other number both raise PduSize. -/
theorem twoFieldPdusAreParsedByFormat : Obligations.TwoFieldPdusAreParsedByFormat := by
  intro k b payload
  by_cases hl : payload.length = 4
  · obtain ⟨x, y, rfl⟩ := eq_be16_append_of_length hl
    rw [parseFormat_be16_pair, decodePair_be16]
    refine ⟨fun first second h => ?_, fun e h => nomatch h⟩
    cases h
    simp
  · have size : (b :: payload).length ≠ 1 + formatSize [.u16, .u16] := by
      simp only [List.length_cons, formatSize, fieldSize]
      omega
    rw [parseFormat_of_size_ne size]
    refine ⟨fun first second h => (nomatch h), fun e h => ?_⟩
    cases h
    exact ⟨rfl, decodePair_of_length_ne k hl⟩

end Sys2Proof.Machine

/-!
PROOFS. The frame codec (spec 40_frame_codec.md R150 to R161): the header's checks, the header and frame round trips, and
the exception builder. Fields that fit their widths are words, of which Laws/Codec.lean speaks.
-/

namespace Sys2Proof.Machine

open Sys2Proof

/-! ### Headers -/

theorem checkHeader_bad_protocol {h : Header} (hp : h.pid ≠ 0) :
    checkHeader h = .error (.malformedHeader .badProtocolId) := if_pos hp

theorem checkHeader_bad_length {h : Header} (hp : h.pid = 0) (hl : h.len.toNat < 3 ∨ 256 < h.len.toNat) :
    checkHeader h = .error (.malformedHeader .badLength) := (if_neg (not_not.mpr hp)).trans (if_pos hl)

theorem checkHeader_accepts {h : Header} (hp : h.pid = 0) (h3 : 3 ≤ h.len.toNat) (h256 : h.len.toNat ≤ 256) :
    checkHeader h = .ok h := (if_neg (not_not.mpr hp)).trans (if_neg (by simp only [lenMin, lenMax]; omega))

/-- Settles O37: seven bytes are a header's fields (`decodeMBAP_headerBytes`), then the three results of its checks. -/
theorem decodeMbapChecksProtocolAndLength : Obligations.DecodeMbapChecksProtocolAndLength := by
  refine ⟨fun b => decodeMBAP_of_length_ne, fun tid pid len uid => ?_⟩
  rw [← headerBytes, decodeMBAP_headerBytes]
  exact ⟨fun hp => checkHeader_bad_protocol hp, fun hp hl => checkHeader_bad_length hp hl,
    fun hp h3 h256 => checkHeader_accepts hp h3 h256⟩

/-- Settles O38: the fields before the first that is out of width are words, and so are all four where none is. -/
theorem encodeMbapChecksWidthsOnly : Obligations.EncodeMbapChecksWidthsOnly := by
  refine fun tid pid len uid => ⟨fun ht => ?_, fun ⟨t0, t1⟩ hp => ?_, fun ⟨t0, t1⟩ ⟨p0, p1⟩ hl => ?_,
    fun ⟨t0, t1⟩ ⟨p0, p1⟩ ⟨l0, l1⟩ hu => ?_, fun ⟨t0, t1⟩ ⟨p0, p1⟩ ⟨l0, l1⟩ ⟨u0, u1⟩ => ?_⟩
  · simp only [encodeMBAP, p16_of_not_fits (show tid < 0 ∨ 65535 < tid by omega)]
    rfl
  · simp only [encodeMBAP, p16_of_fits t0 t1, p16_of_not_fits (show pid < 0 ∨ 65535 < pid by omega)]
    rfl
  · simp only [encodeMBAP, p16_of_fits t0 t1, p16_of_fits p0 p1, p16_of_not_fits (show len < 0 ∨ 65535 < len by omega)]
    rfl
  · simp only [encodeMBAP, p16_of_fits t0 t1, p16_of_fits p0 p1, p16_of_fits l0 l1,
      p8_of_not_fits (show uid < 0 ∨ 255 < uid by omega)]
    rfl
  · obtain ⟨t, rfl⟩ := exists_u16_of_fits t0 t1
    obtain ⟨p, rfl⟩ := exists_u16_of_fits p0 p1
    obtain ⟨l, rfl⟩ := exists_u16_of_fits l0 l1
    obtain ⟨u, rfl⟩ := exists_byte_of_fits u0 u1
    simp [headerBytes]

/-! ### Frames -/

theorem decodeFrame_of_short {s : Bytes} (h : s.length < 7) : decodeFrame s = .error (.frameDecode .truncated) := if_pos h

theorem decodeFrame_of_header_error {s : Bytes} {e : CodecError} (hs : 7 ≤ s.length)
    (he : decodeMBAP (s.take 7) = .error e) : decodeFrame s = .error e := by
  rw [decodeFrame, if_neg (Nat.not_lt.mpr hs)]
  simp only [he]

theorem decodeFrame_of_short_body {s : Bytes} {h : Header} (hs : 7 ≤ s.length) (hm : decodeMBAP (s.take 7) = .ok h)
    (hb : s.length < 7 + (h.len.toNat - 1)) : decodeFrame s = .error (.frameDecode .truncated) := by
  have short : (s.drop 7).length < h.len.toNat - 1 := by rw [List.length_drop]; omega
  rw [decodeFrame, if_neg (Nat.not_lt.mpr hs)]
  simp only [hm, if_pos short]

/-- A header, a PDU of the size it gives and any bytes after them are one frame and the rest (R155). -/
theorem decodeFrame_append {header pdu rest : Bytes} {h : Header} (hm : decodeMBAP header = .ok h)
    (hl : header.length = 7) (hp : pdu.length = h.len.toNat - 1) :
    decodeFrame (header ++ pdu ++ rest) = .ok (h, pdu, rest) := by
  have enough : ¬ (header ++ pdu ++ rest).length < 7 := by simp only [List.length_append]; omega
  rw [decodeFrame, if_neg enough, List.append_assoc, List.take_left' hl, List.drop_left' hl]
  simp [hm, ← hp]

/-- Settles O39: the part after the header is cut where the length field says, and `decodeFrame_append` reads it. -/
theorem decodeFrameTakesOneFrame : Obligations.DecodeFrameTakesOneFrame := by
  refine fun s => ⟨decodeFrame_of_short, fun hs => ⟨fun e => decodeFrame_of_header_error hs, fun h hm =>
    ⟨decodeFrame_of_short_body hs hm, fun hb => ?_⟩⟩⟩
  obtain ⟨-, -, len3, len256⟩ := decodeMBAP_ok hm
  have size : ((s.drop 7).take (h.len.toNat - 1)).length = h.len.toNat - 1 := by
    simp only [List.length_take, List.length_drop]
    omega
  have parts : s.take 7 ++ (s.drop 7).take (h.len.toNat - 1) ++ (s.drop 7).drop (h.len.toNat - 1) = s := by
    rw [List.append_assoc, List.take_append_drop, List.take_append_drop]
  refine ⟨_, _, ?_, parts, size, by omega, by omega⟩
  simpa only [parts] using decodeFrame_append hm (List.length_take_of_le hs) size (rest := (s.drop 7).drop (h.len.toNat - 1))

/-- Settles O40: the header of fields that fit is accepted, and `decodeFrame_append` takes the frame apart again. -/
theorem frameRoundTrip : Obligations.FrameRoundTrip := by
  refine ⟨fun tid len uid t0 t1 l3 l256 u0 u1 => ?_, fun tid uid pdu tail t0 t1 u0 u1 p2 p255 => ?_⟩
  · obtain ⟨t, rfl⟩ := exists_u16_of_fits t0 t1
    obtain ⟨l, rfl⟩ := exists_u16_of_fits (v := len) (by omega) (by omega)
    obtain ⟨u, rfl⟩ := exists_byte_of_fits u0 u1
    refine ⟨headerBytes t 0 l u, encodeMBAP_words t 0 l u, ?_⟩
    rw [decodeMBAP_headerBytes, checkHeader_accepts rfl (by exact_mod_cast l3) (by exact_mod_cast l256)]
    simp
  · obtain ⟨t, rfl⟩ := exists_u16_of_fits t0 t1
    obtain ⟨u, rfl⟩ := exists_byte_of_fits u0 u1
    have len : (BitVec.ofNat 16 (pdu.length + 1)).toNat = pdu.length + 1 :=
      (BitVec.toNat_ofNat ..).trans (Nat.mod_eq_of_lt (by omega))
    have accepted : checkHeader ⟨t, 0, BitVec.ofNat 16 (pdu.length + 1), u⟩ = .ok _ :=
      checkHeader_accepts rfl (by simp only [len]; omega) (by simp only [len]; omega)
    refine ⟨_, encodeFrame_words t u pdu (by omega), ?_⟩
    rw [decodeFrame_append ((decodeMBAP_headerBytes ..).trans accepted) rfl (by simp only [len]; omega)]
    simp

/-! ### The exception builder -/

/-- The code is looked at after the function code, and packed as it is (R160). -/
theorem buildException_of_code_error {fc exc : Int} {e : CodecError} (h0 : 0 ≤ fc) (h1 : fc ≤ 255)
    (he : p8 exc = .error e) : buildException fc exc = .error e := by
  obtain ⟨f, rfl⟩ := exists_byte_of_fits h0 h1
  have bit : withExceptionBit f.toNat = (f ||| 0x80 : Byte).toNat := by simp [withExceptionBit]
  rw [buildException, if_neg (by omega), bit, p8_byte, he]
  rfl

/-- Bit 7 alone is set (R161). -/
theorem or_exceptionBit_getLsbD (f : Byte) {k : Nat} (h : k < 7) : (f ||| 0x80).getLsbD k = f.getLsbD k := by
  have low : ∀ j < 7, (0x80 : Byte).getLsbD j = false := by decide
  rw [BitVec.getLsbD_or, low k h, Bool.or_false]

/-- Settles O41: of two bytes by `buildException_bytes`; setting bit 7 again changes nothing. -/
theorem buildExceptionSetsBitSeven : Obligations.BuildExceptionSetsBitSeven := by
  refine fun fc exc => ⟨fun hf => if_pos hf, fun f0 f1 he => buildException_of_code_error f0 f1 (p8_of_not_fits he),
    fun f0 f1 e0 e1 => ?_⟩
  obtain ⟨f, rfl⟩ := exists_byte_of_fits f0 f1
  obtain ⟨e, rfl⟩ := exists_byte_of_fits e0 e1
  have cast (x : Byte) : BitVec.ofInt 8 x.toNat = x := by simp
  rw [cast, cast, buildException_bytes, buildException_bytes, BitVec.or_assoc, BitVec.or_self]
  exact ⟨rfl, fun k => or_exceptionBit_getLsbD f, rfl⟩

end Sys2Proof.Machine

/-!
PROOFS. The request handler (spec 41_dispatch.md): what HandleRequest answers, on what its answer depends, and that a step
is the operation its action names. HandleRequest sees the parameters and the register files alone, so it may be moved to a
state that holds these among other connections, held responses and actions; ServerStep's frame is taken off that way.
-/

namespace Sys2Proof.Machine

open Sys2Proof

/-! ### An unknown function code -/

/-- The eight codes are the ones R107 lists. -/
theorem code_mem (fc : FunctionCode) : fc.code ∈ ([0x01, 0x02, 0x03, 0x04, 0x05, 0x06, 0x0F, 0x10] : Bytes) := by
  cases fc <;> decide

theorem handleRequest_unknown {b : Byte} (h : functionOfByte b = none) (payload : Bytes) (s : State) :
    handleRequest (b :: payload) s = .next (s.answerException b illegalFunction) := by
  simp only [handleRequest, decodeRequest, h]

/-- Setting bit 7 where it is set changes nothing (R161). -/
theorem or_exceptionBit_of_set {b : Byte} (h : b.getLsbD 7 = true) : b ||| 0x80 = b := by
  revert b
  decide

/-- Settles O12: the byte names no function, so the decoder rejects it before it looks at the payload. -/
theorem unknownFunctionIsIllegal : Obligations.UnknownFunctionIsIllegal := by
  intro b payload s hb
  have unknown : functionOfByte b = none := functionOfByte_eq_none fun fc e => hb (e ▸ code_mem fc)
  have answered := handleRequest_unknown unknown payload s
  refine ⟨answered, or_exceptionBit_of_set, ?_⟩
  rintro rfl
  exact answered

/-! ### Exception responses -/

/-- A response of a known function whose first byte has bit 7 set is one of the two exceptions. -/
theorem AnswerPdu.exception_of_bit {fc : FunctionCode} {r : Bytes} (h : AnswerPdu fc.code r)
    (hbit : hasExceptionBit (r.headD 0) = true) :
    ∃ code, r = exceptionPdu fc.code code ∧ (code = illegalDataAddress ∨ code = illegalDataValue) := by
  obtain h | ⟨hr, -, -⟩ := h
  · exact h
  · simp [List.headD_eq_head?_getD, hr] at hbit

/-- Every effect of a request answers with one of its PDUs. -/
theorem RequestEffect.answerPdu {fc : Byte} {s t : State} {r : Bytes} (h : RequestEffect fc s t) (ho : t.out = .pdu r) :
    AnswerPdu fc r := by
  cases h with
  | answer r' h =>
    cases ho
    exact h
  | writeCoils r' h | writeHr r' h =>
    cases ho
    exact .inr ⟨h.1, by omega, by omega⟩

/-- Settles O54: an unknown function is answered with code 01, and a known one's exceptions are 02 and 03. -/
theorem handlerExceptionsAreOneTwoOrThree : Obligations.HandlerExceptionsAreOneTwoOrThree := by
  intro b payload s t r ht ho hbit
  obtain ⟨cause, -, e⟩ | ⟨fc, -, hb, e⟩ | ⟨i, fc, u, -, -, hb, e, -, hx⟩ := handleRequest_cases (b :: payload) s <;>
    cases e.symm.trans ht
  · cases ho
  · cases ho
    cases hb
    exact ⟨_, rfl, .inl rfl⟩
  · cases hb
    obtain ⟨code, hr, hcode⟩ := (hx.answerPdu ho).exception_of_bit hbit
    exact ⟨code, hr, .inr hcode⟩

/-! ### What a request sees of the state -/

/-- The parameters and the register files of a state, among all else that another state holds. -/
def State.storeIn (s k : State) : State :=
  { k with params := s.params, coils := s.coils, di := s.di, hr := s.hr, ir := s.ir }

/-- The store and the result of a state, among all else that another state holds. -/
def State.answerIn (t k : State) : State := (t.storeIn k).give t.out

section store

variable (s k : State)

@[simp] theorem State.storeIn_params : (s.storeIn k).params = s.params := rfl
@[simp] theorem State.storeIn_bitFile (sp : BitSpace) : (s.storeIn k).bitFile sp = s.bitFile sp := by cases sp <;> rfl
@[simp] theorem State.storeIn_regFile (sp : RegSpace) : (s.storeIn k).regFile sp = s.regFile sp := by cases sp <;> rfl

@[simp] theorem State.answerIn_out : (s.answerIn k).out = s.out := rfl

/-- A state whose store is another's is that store among all it holds. -/
theorem State.eq_storeIn {s₁ s₂ : State} (hp : s₁.params = s₂.params) (hc : s₁.coils = s₂.coils) (hd : s₁.di = s₂.di)
    (hh : s₁.hr = s₂.hr) (hi : s₁.ir = s₂.ir) : s₁ = s₂.storeIn s₁ := by
  rw [State.storeIn, ← hp, ← hc, ← hd, ← hh, ← hi]

theorem handleReadBits_storeIn (fc : FunctionCode) (sp : BitSpace) (addr qty : U16) :
    handleReadBits fc sp addr qty (s.storeIn k) = mapNext (·.answerIn k) (handleReadBits fc sp addr qty s) := by
  simp only [handleReadBits, State.memReadBits, State.storeIn_params, State.storeIn_bitFile]
  split_ifs
  · rfl
  · cases memRead Config.unlistedBit sp.space (bitSize s.params sp) (s.bitFile sp) addr.toNat qty.toNat <;> rfl

theorem handleReadRegs_storeIn (fc : FunctionCode) (sp : RegSpace) (addr qty : U16) :
    handleReadRegs fc sp addr qty (s.storeIn k) = mapNext (·.answerIn k) (handleReadRegs fc sp addr qty s) := by
  simp only [handleReadRegs, State.memReadRegs, State.storeIn_params, State.storeIn_regFile]
  split_ifs
  · rfl
  · cases memRead Config.unlistedReg sp.space (regSize s.params sp) (s.regFile sp) addr.toNat qty.toNat <;> rfl

theorem finishWrite_coils_storeIn (fc : FunctionCode) (response : Bytes) (a : Int) (vals : List Bool) :
    finishWrite fc response (s.storeIn k) ((s.storeIn k).memWriteBits .coils a vals) =
      mapNext (·.answerIn k) (finishWrite fc response s (s.memWriteBits .coils a vals)) := by
  simp only [State.memWriteBits, State.storeIn_params, State.storeIn_bitFile]
  cases memWrite Config.unlistedBit BitSpace.coils.space (bitSize s.params .coils) (s.bitFile .coils) a vals <;> rfl

theorem finishWrite_hr_storeIn (fc : FunctionCode) (response : Bytes) (a : Int) (vals : List U16) :
    finishWrite fc response (s.storeIn k) ((s.storeIn k).memWriteRegs .hr a vals) =
      mapNext (·.answerIn k) (finishWrite fc response s (s.memWriteRegs .hr a vals)) := by
  simp only [State.memWriteRegs, State.storeIn_params, State.storeIn_regFile]
  cases memWrite Config.unlistedReg RegSpace.hr.space (regSize s.params .hr) (s.regFile .hr) a vals <;> rfl

/-- A request's meaning does the same to the store, and gives the same result, whatever else the state holds. -/
theorem exec_storeIn {i : Instr} (hi : i.direction = .request) :
    exec i (s.storeIn k) = mapNext (·.answerIn k) (exec i s) := by
  cases i with
  | readCoilsReq addr qty => exact handleReadBits_storeIn s k .readCoils .coils addr qty
  | readDiscreteInputsReq addr qty => exact handleReadBits_storeIn s k .readDiscreteInputs .di addr qty
  | readHoldingRegistersReq addr qty => exact handleReadRegs_storeIn s k .readHoldingRegisters .hr addr qty
  | readInputRegistersReq addr qty => exact handleReadRegs_storeIn s k .readInputRegisters .ir addr qty
  | writeSingleCoilReq addr value =>
    simp only [exec, execWriteSingleCoilReq, State.storeIn_params]
    cases coilValue s.params.wscOther value with
    | none => rfl
    | some b => exact finishWrite_coils_storeIn s k .writeSingleCoil _ addr.toNat [b]
  | writeSingleRegisterReq addr value => exact finishWrite_hr_storeIn s k .writeSingleRegister _ addr.toNat [value]
  | writeMultipleCoilsReq addr qty bc data =>
    simp only [exec, execWriteMultipleCoilsReq]
    split_ifs
    · rfl
    · exact finishWrite_coils_storeIn s k .writeMultipleCoils _ addr.toNat _
  | writeMultipleRegistersReq addr qty bc data =>
    simp only [exec, execWriteMultipleRegistersReq]
    split_ifs
    · rfl
    · exact finishWrite_hr_storeIn s k .writeMultipleRegisters _ addr.toNat _
  | _ => cases hi

theorem handleRequest_of_decode {pdu : Bytes} {i : Instr} (h : decodeRequest pdu = .ok i) :
    handleRequest pdu s = exec i s := by
  simp only [handleRequest, h]

/-- HandleRequest does the same to the store, and gives the same result, whatever else the state holds (R182). -/
theorem handleRequest_storeIn (pdu : Bytes) :
    handleRequest pdu (s.storeIn k) = mapNext (·.answerIn k) (handleRequest pdu s) := by
  cases h : decodeRequest pdu with
  | ok i => simp only [handleRequest_of_decode _ h, exec_storeIn s k (decodeRequest_direction h)]
  | error r =>
    simp only [handleRequest, h]
    cases r <;> rfl

theorem handleRequest_storeIn_next {pdu : Bytes} {t : State} (h : handleRequest pdu s = .next t) :
    handleRequest pdu (s.storeIn k) = .next (t.answerIn k) := by
  rw [handleRequest_storeIn, h]
  rfl

end store

/-- Settles O55: the first state is the second's store among all that the first holds, so it ends in the second's answer. -/
theorem handleRequestDependsOnTheStoreOnly : Obligations.HandleRequestDependsOnTheStoreOnly := by
  intro pdu s₁ s₂ hp hc hd hh hi
  obtain ⟨t, ht, -⟩ := handleRequest_next pdu s₂
  have moved : handleRequest pdu s₁ = .next (t.answerIn s₁) := by
    rw [State.eq_storeIn hp hc hd hh hi]
    exact handleRequest_storeIn_next s₂ s₁ ht
  exact ⟨_, t, moved, ht, rfl, rfl, rfl, rfl, rfl⟩

/-! ### A step and its operation -/

/-- A ServerStep on one frame is HandleRequest with the frame taken off, and its end (R175). -/
theorem serverStep_frame {s : State} {c : Nat} {received pdu tail : Bytes} {h : Header}
    (hc : Table.get? s.conns c = some received) (hf : decodeFrame received = .ok (h, pdu, tail)) :
    serverStep c s = mapNext (concludeServe c h) (handleRequest pdu (s.setReceived c tail)) := by
  simp only [serverStep, hc, hf]

/-- A frame that does not decode is fatal, and an agent that holds no response drops none. -/
theorem serverStep_frameError {s : State} {c : Nat} {received : Bytes} {e : CodecError}
    (hc : Table.get? s.conns c = some received) (hw : c ∉ s.awaiting) (hf : decodeFrame received = .error e) :
    serverStep c s = .next { s with conns := Table.erase s.conns c, out := .fatal c e } := by
  simp only [serverStep, hc, hf, State.fatalOn, State.dropConn, State.give, State.held_filter_of_not_awaiting hw]

/-- HandleRequest's outcome, carried to the state with the frame taken off, and its end are the ServerStep. -/
theorem serverStep_of_handleRequest {s u : State} {c : Nat} {received pdu tail : Bytes} {h : Header}
    (hc : Table.get? s.conns c = some received) (hf : decodeFrame received = .ok (h, pdu, tail))
    (hu : handleRequest pdu s = .next u) :
    serverStep c s = .next (concludeServe c h (u.answerIn (s.setReceived c tail))) :=
  (serverStep_frame hc hf).trans
    (congrArg (mapNext (concludeServe c h)) (handleRequest_storeIn_next s (s.setReceived c tail) hu))

/-- The step of an agent that holds no response is its ServerStep. -/
theorem step_serve {s : State} {c : Nat} {rest : List Action} (h : s.inbox = .serve c :: rest) (hw : c ∉ s.awaiting) :
    step s = serverStep c { s with inbox := rest } :=
  (step_cons h).trans (serveConn_free hw)

/-- Settles O47: `serverStep_of_handleRequest` gives the step, whose end is a response frame where HandleRequest gives a
PDU and fatal where it is fatal. -/
theorem serverStepRespondsOrCloses : Obligations.ServerStepRespondsOrCloses := by
  intro s c received rest hin hw hc
  rw [step_serve hin hw]
  refine ⟨fun e hf => serverStep_frameError (s := { s with inbox := rest }) hc hw hf, fun h pdu tail hf => ?_⟩
  obtain ⟨u, hu, -, -, -, -, -, -, -, -, ended⟩ := handleRequest_next pdu { s with inbox := rest }
  rw [serverStep_of_handleRequest (s := { s with inbox := rest }) hc hf hu]
  obtain ⟨cause, rfl⟩ | ⟨r, hr, h2, h252⟩ := ended
  · rw [concludeServe_fatal c h (e := .frameDecode cause) rfl]
    exact ⟨_, _, rfl, rfl, hu, .inl ⟨_, rfl, rfl, Table.get?_erase_same .., rfl, rfl, rfl, rfl⟩⟩
  · rw [concludeServe_pdu c h ((u.answerIn_out _).trans hr) h252]
    exact ⟨_, u, rfl, rfl, hu,
      .inr ⟨r, hr, h2, h252, rfl, Table.get?_insert_same .., rfl, rfl, rfl, rfl⟩⟩

theorem parseResponse_of_decode (s : State) {pdu : Bytes} {i : Instr} (req : SentRequest) (h : decodeResponse pdu = .ok i) :
    parseResponse req pdu s = mapNext State.forgetSent (exec i { s with sent := some req }) := by
  simp only [parseResponse, h]

/-- What is neither a frame nor a PDU is no response to hold. -/
theorem heldOf_eq_none {o : Output} (hf : ∀ d frame, o ≠ .response d frame) (hp : ∀ r, o ≠ .pdu r) : heldOf o = none := by
  cases o with
  | response d frame => exact absurd rfl (hf d frame)
  | pdu r => exact absurd rfl (hp r)
  | _ => rfl

/-- A held kind of action ends in the state of its own kind, with the response held (log entry 10). -/
theorem step_held {s t : State} {a b : Action} {rest : List Action} {c : Nat} {pdu : Bytes}
    (hab : (a = .serve c ∧ b = .serveHeld c) ∨ (a = .handleRequest pdu ∧ b = .handleRequestHeld pdu))
    (hin : s.inbox = b :: rest) (ht : step { s with inbox := a :: rest } = .next t) : step s = .next t.hold := by
  rw [step_cons (s := { s with inbox := a :: rest }) rfl] at ht
  rw [step_cons hin]
  obtain ⟨rfl, rfl⟩ | ⟨rfl, rfl⟩ := hab <;> exact congrArg holdResponse ht

/-- Settles O46: a step is its action's operation, which runs `exec` where the bytes decode; a held kind holds what the
plain kind answers (`step_held`). -/
theorem stepRunsTheDecodedInstruction : Obligations.StepRunsTheDecodedInstruction := by
  refine fun s rest i => ⟨fun c received h pdu tail hin hw hc hf hd => ?_, fun pdu hin hd => ?_,
    fun req pdu hin hd => ?_, fun c frame t hin ht ho => ?_, fun pdu r t hin ht ho => ?_,
    fun c pdu t a b hab hin ht hf hp => ?_, fun k x hin hk => ?_⟩
  · rw [step_serve hin hw, serverStep_frame (s := { s with inbox := rest }) hc hf, handleRequest_of_decode _ hd]
    rfl
  · exact (step_cons hin).trans (handleRequest_of_decode _ hd)
  · exact (step_cons hin).trans (parseResponse_of_decode _ req hd)
  · rw [step_held (pdu := []) (.inl ⟨rfl, rfl⟩) hin ht, State.hold_response (h := .response c frame) ho]
  · rw [step_held (c := 0) (.inr ⟨rfl, rfl⟩) hin ht, State.hold_response (h := .pdu r) ho]
  · rw [step_held hab hin ht, State.hold_none (heldOf_eq_none hf hp)]
  · rw [step_cons hin]
    exact congrArg Host.Outcome.next (State.handBack_some (s := { s with inbox := rest }) hk)

end Sys2Proof.Machine

/-!
PROOFS. The read functions (spec 42_read_functions.md): the completion and the two exceptions of HandleRead are laws of
`handleReadBits` and `handleReadRegs` (Laws/Exec.lean), and what a PDU of the function runs is a fact about its decoder.
The values read are given as `fileReadAll`, which is `bitAt` or `regAt` over the range by definition.
-/

namespace Sys2Proof.Machine

open Sys2Proof

/-- The PDU of a request runs that request (R170). -/
theorem handleRequest_encode {i : Instr} (hi : i.direction = .request) (s : State) :
    handleRequest (encode i) s = exec i s := by
  have decoded := decode_encode i
  rw [hi] at decoded
  exact handleRequest_of_decode s decoded

/-- A request that is no instruction for its frame alone is fatal with that cause (R178). -/
theorem handleRequest_of_frame_reject {pdu : Bytes} {cause : DecodeCause} (h : decodeRequest pdu = .error (.frame cause))
    (s : State) : handleRequest pdu s = .next (s.fatalCall cause) := by
  simp only [handleRequest, h]

/-- A function whose payload is two u16 fields takes no PDU of another size than 5 (R174, R178). -/
theorem handleRequest_pair_of_length_ne {fc : FunctionCode} {k : U16 → U16 → Instr}
    (hk : decodeRequestPayload fc = decodePair k) {payload : Bytes} (h : (fc.code :: payload).length ≠ 5) (s : State) :
    handleRequest (fc.code :: payload) s = .next (s.fatalCall .pduSize) := by
  have size : payload.length ≠ 4 := fun e => h (congrArg Nat.succ e)
  refine handleRequest_of_frame_reject ?_ s
  rw [decodeRequest_code, hk, decodePair_of_length_ne k size]

/-- Settles O13: the cases of a bit read over COILS. -/
theorem readCoilsAnswers : Obligations.ReadCoilsAnswers := fun addr qty s =>
  ⟨handleReadBits_ok (fc := .readCoils) (sp := .coils),
    handleReadBits_badQty (fc := .readCoils) (sp := .coils),
    handleReadBits_badAddr (fc := .readCoils) (sp := .coils),
    handleRequest_encode (i := .readCoilsReq addr qty) rfl s,
    fun _ hl => handleRequest_pair_of_length_ne (fc := .readCoils) rfl hl s⟩

/-- Settles O14: the cases of a bit read over DI. -/
theorem readDiscreteInputsAnswers : Obligations.ReadDiscreteInputsAnswers := fun addr qty s =>
  ⟨handleReadBits_ok (fc := .readDiscreteInputs) (sp := .di),
    handleReadBits_badQty (fc := .readDiscreteInputs) (sp := .di),
    handleReadBits_badAddr (fc := .readDiscreteInputs) (sp := .di),
    handleRequest_encode (i := .readDiscreteInputsReq addr qty) rfl s,
    fun _ hl => handleRequest_pair_of_length_ne (fc := .readDiscreteInputs) rfl hl s⟩

/-- Settles O15: the cases of a register read over HR. -/
theorem readHoldingRegistersAnswers : Obligations.ReadHoldingRegistersAnswers := fun addr qty s =>
  ⟨handleReadRegs_ok (fc := .readHoldingRegisters) (sp := .hr),
    handleReadRegs_badQty (fc := .readHoldingRegisters) (sp := .hr),
    handleReadRegs_badAddr (fc := .readHoldingRegisters) (sp := .hr),
    handleRequest_encode (i := .readHoldingRegistersReq addr qty) rfl s,
    fun _ hl => handleRequest_pair_of_length_ne (fc := .readHoldingRegisters) rfl hl s⟩

/-- Settles O16: the cases of a register read over IR. -/
theorem readInputRegistersAnswers : Obligations.ReadInputRegistersAnswers := fun addr qty s =>
  ⟨handleReadRegs_ok (fc := .readInputRegisters) (sp := .ir),
    handleReadRegs_badQty (fc := .readInputRegisters) (sp := .ir),
    handleReadRegs_badAddr (fc := .readInputRegisters) (sp := .ir),
    handleRequest_encode (i := .readInputRegistersReq addr qty) rfl s,
    fun _ hl => handleRequest_pair_of_length_ne (fc := .readInputRegisters) rfl hl s⟩

end Sys2Proof.Machine

/-!
PROOFS. The write functions (spec 43_write_functions.md): a write function ends in one atomic write or in exception 02
(Laws/Exec.lean), so each function has one equation for its completion and one for each exception. What a completed
write leaves is said once of COILS and once of HR, and a read after it is HandleRead on the state it leaves.
-/

namespace Sys2Proof.Machine

open Sys2Proof

/-! ### The ending of a write function -/

section endings

variable {fc : FunctionCode} {r : Bytes} {addr : U16} {s : State}

theorem finishWrite_coils_inBounds {vals : List Bool} (hv : vals ≠ [])
    (hb : addr.toNat + vals.length ≤ s.params.sizeCoils) :
    finishWrite fc r s (s.memWriteBits .coils addr.toNat vals) =
      .next ((s.writeBits .coils addr.toNat vals).give (.pdu r)) :=
  ((finishWrite_coils hv).resolve_right fun h => absurd hb (Nat.not_le.mpr h.1)).2

theorem finishWrite_coils_outOfBounds {vals : List Bool} (hv : vals ≠ [])
    (hb : s.params.sizeCoils < addr.toNat + vals.length) :
    finishWrite fc r s (s.memWriteBits .coils addr.toNat vals) = .next (s.answerException fc.code illegalDataAddress) :=
  ((finishWrite_coils hv).resolve_left fun h => absurd h.1 (Nat.not_le.mpr hb)).2

theorem finishWrite_hr_inBounds {vals : List U16} (hv : vals ≠ [])
    (hb : addr.toNat + vals.length ≤ s.params.sizeHr) :
    finishWrite fc r s (s.memWriteRegs .hr addr.toNat vals) =
      .next ((s.writeRegs .hr addr.toNat vals).give (.pdu r)) :=
  ((finishWrite_hr hv).resolve_right fun h => absurd hb (Nat.not_le.mpr h.1)).2

theorem finishWrite_hr_outOfBounds {vals : List U16} (hv : vals ≠ [])
    (hb : s.params.sizeHr < addr.toNat + vals.length) :
    finishWrite fc r s (s.memWriteRegs .hr addr.toNat vals) = .next (s.answerException fc.code illegalDataAddress) :=
  ((finishWrite_hr hv).resolve_left fun h => absurd h.1 (Nat.not_le.mpr hb)).2

end endings

/-- A completed write to COILS: the values inside the range, the coils outside it and every other field as before. -/
theorem State.writeBits_coils_effect (s : State) (a : Nat) (vals : List Bool) (o : Output) {t : State}
    (ht : t = (s.writeBits .coils a vals).give o) :
    (∀ k (h : k < vals.length), t.bitAt .coils (a + k) = vals[k]) ∧
      (∀ c, c < a ∨ a + vals.length ≤ c → t.bitAt .coils c = s.bitAt .coils c) ∧
      t = { s with coils := t.coils, out := t.out } := by
  subst ht
  refine ⟨fun k h => ?_, fun c h => ?_, rfl⟩
  · rw [State.give_bitAt, State.writeBits_bitAt_inside s a .coils vals h]
  · rw [State.give_bitAt, State.writeBits_bitAt_outside s a .coils vals h]

/-- A completed write to HR: the values inside the range, the registers outside it and every other field as before. -/
theorem State.writeRegs_hr_effect (s : State) (a : Nat) (vals : List U16) (o : Output) {t : State}
    (ht : t = (s.writeRegs .hr a vals).give o) :
    (∀ k (h : k < vals.length), t.regAt .hr (a + k) = vals[k]) ∧
      (∀ c, c < a ∨ a + vals.length ≤ c → t.regAt .hr c = s.regAt .hr c) ∧
      t = { s with hr := t.hr, out := t.out } := by
  subst ht
  refine ⟨fun k h => ?_, fun c h => ?_, rfl⟩
  · rw [State.give_regAt, State.writeRegs_regAt_inside s a .hr vals h]
  · rw [State.give_regAt, State.writeRegs_regAt_outside s a .hr vals h]

/-- A function with a byte count takes no PDU that ends before it (R178, R230, R240). -/
theorem handleRequest_multi_of_short {fc : FunctionCode} {k : U16 → U16 → Byte → Bytes → Instr}
    (hk : decodeRequestPayload fc = decodeMulti k) {payload : Bytes} (h : (fc.code :: payload).length < 6) (s : State) :
    handleRequest (fc.code :: payload) s = .next (s.fatalCall .pduSize) := by
  refine handleRequest_of_frame_reject ?_ s
  rw [decodeRequest_code, hk, decodeMulti_of_short k (Nat.lt_of_succ_lt_succ h)]

/-! ### WriteSingleCoil -/

/-- Settles O17: the two standard values are tested first, and any other is left to WSC_OTHER. -/
theorem coilValueMapsWireValues : Obligations.CoilValueMapsWireValues := by
  refine fun other value => ⟨fun h => if_pos h, ?_, ?_, ?_, ?_⟩
  · rintro rfl
    rfl
  all_goals
    rintro notOn notOff rfl
    rw [coilValue, if_neg notOn, if_neg notOff]

section singleCoil

variable {addr value : U16} {b : Bool} {s : State}

theorem exec_writeSingleCoil_ok (hv : coilValue s.params.wscOther value = some b)
    (hb : addr.toNat < s.params.sizeCoils) :
    exec (.writeSingleCoilReq addr value) s = .next ((s.writeBits .coils addr.toNat [b]).give
      (.pdu (encode (.writeSingleCoilReq addr value)))) := by
  simp only [exec, execWriteSingleCoilReq, hv]
  exact finishWrite_coils_inBounds (List.cons_ne_nil _ _) hb

theorem exec_writeSingleCoil_badValue (hv : coilValue s.params.wscOther value = none) :
    exec (.writeSingleCoilReq addr value) s =
      .next (s.answerException FunctionCode.writeSingleCoil.code illegalDataValue) := by
  simp only [exec, execWriteSingleCoilReq, hv]

theorem exec_writeSingleCoil_badAddr (hv : coilValue s.params.wscOther value = some b)
    (hb : s.params.sizeCoils ≤ addr.toNat) :
    exec (.writeSingleCoilReq addr value) s =
      .next (s.answerException FunctionCode.writeSingleCoil.code illegalDataAddress) := by
  simp only [exec, execWriteSingleCoilReq, hv]
  exact finishWrite_coils_outOfBounds (List.cons_ne_nil _ _) (Nat.lt_succ_of_le hb)

end singleCoil

/-- Settles O18: the range written is the one coil. -/
theorem writeSingleCoilWritesAndEchoes : Obligations.WriteSingleCoilWritesAndEchoes := by
  refine fun addr value s => ⟨fun b hv hb => ?_, exec_writeSingleCoil_badValue, fun hv hb => ?_,
    handleRequest_encode (i := .writeSingleCoilReq addr value) rfl s,
    fun _ hl => handleRequest_pair_of_length_ne (fc := .writeSingleCoil) rfl hl s⟩
  · obtain ⟨inside, outside, frame⟩ := State.writeBits_coils_effect s addr.toNat [b] _ rfl
    exact ⟨_, exec_writeSingleCoil_ok hv hb, rfl, inside 0 Nat.one_pos,
      fun a ha => outside a (Nat.lt_or_gt_of_ne ha), frame⟩
  · obtain ⟨b, hv⟩ := Option.ne_none_iff_exists'.mp hv
    exact exec_writeSingleCoil_badAddr hv hb

/-! ### WriteSingleRegister -/

section singleRegister

variable {addr value : U16} {s : State}

theorem exec_writeSingleRegister_ok (hb : addr.toNat < s.params.sizeHr) :
    exec (.writeSingleRegisterReq addr value) s = .next ((s.writeRegs .hr addr.toNat [value]).give
      (.pdu (encode (.writeSingleRegisterReq addr value)))) :=
  finishWrite_hr_inBounds (List.cons_ne_nil _ _) hb

theorem exec_writeSingleRegister_badAddr (hb : s.params.sizeHr ≤ addr.toNat) :
    exec (.writeSingleRegisterReq addr value) s =
      .next (s.answerException FunctionCode.writeSingleRegister.code illegalDataAddress) :=
  finishWrite_hr_outOfBounds (vals := [value]) (List.cons_ne_nil _ _) (Nat.lt_succ_of_le hb)

end singleRegister

/-- Settles O19: the range written is the one register. -/
theorem writeSingleRegisterWritesAndEchoes : Obligations.WriteSingleRegisterWritesAndEchoes := by
  refine fun addr value s => ⟨fun hb => ?_, exec_writeSingleRegister_badAddr,
    handleRequest_encode (i := .writeSingleRegisterReq addr value) rfl s,
    fun _ hl => handleRequest_pair_of_length_ne (fc := .writeSingleRegister) rfl hl s⟩
  obtain ⟨inside, outside, frame⟩ := State.writeRegs_hr_effect s addr.toNat [value] _ rfl
  exact ⟨_, exec_writeSingleRegister_ok hb, rfl, inside 0 Nat.one_pos,
    fun a ha => outside a (Nat.lt_or_gt_of_ne ha), frame⟩

/-! ### WriteMultipleCoils and WriteMultipleRegisters -/

/-- The operands that pass every check of a multiple write but the address (R235, R236). -/
theorem not_operandsIllegal {limit expected : Nat} {qty : U16} {bc : Byte} {data : Bytes} (h1 : 1 ≤ qty.toNat)
    (h2 : qty.toNat ≤ limit) (hbc : bc.toNat = expected) (hd : data.length = bc.toNat) :
    ¬ (QtyIllegal limit qty ∨ ByteCountIllegal expected bc data) := by
  rintro ((h | h) | h | h)
  · omega
  · omega
  · exact h hbc
  · exact h hd

section multiple

variable {addr qty : U16} {bc : Byte} {data : Bytes} {s : State}

theorem exec_writeMultipleCoils_illegal
    (h : QtyIllegal maxWriteBits qty ∨ ByteCountIllegal (packedSize qty.toNat) bc data) :
    exec (.writeMultipleCoilsReq addr qty bc data) s =
      .next (s.answerException FunctionCode.writeMultipleCoils.code illegalDataValue) :=
  if_pos h

theorem exec_writeMultipleRegisters_illegal
    (h : QtyIllegal maxWriteRegs qty ∨ ByteCountIllegal (2 * qty.toNat) bc data) :
    exec (.writeMultipleRegistersReq addr qty bc data) s =
      .next (s.answerException FunctionCode.writeMultipleRegisters.code illegalDataValue) :=
  if_pos h

variable (h1 : 1 ≤ qty.toNat) (hd : data.length = bc.toNat)

section coils

variable (h2 : qty.toNat ≤ maxWriteBits) (hbc : bc.toNat = packedSize qty.toNat)
include h1 h2 hbc hd

theorem exec_writeMultipleCoils_ok (hb : addr.toNat + qty.toNat ≤ s.params.sizeCoils) :
    exec (.writeMultipleCoilsReq addr qty bc data) s =
      .next ((s.writeBits .coils addr.toNat (unpackBits data qty.toNat)).give
        (.pdu (pairPdu .writeMultipleCoils addr qty))) :=
  (if_neg (not_operandsIllegal h1 h2 hbc hd)).trans
    (finishWrite_coils_inBounds (unpackBits_ne_nil h1) (by rwa [unpackBits_length]))

theorem exec_writeMultipleCoils_badAddr (hb : s.params.sizeCoils < addr.toNat + qty.toNat) :
    exec (.writeMultipleCoilsReq addr qty bc data) s =
      .next (s.answerException FunctionCode.writeMultipleCoils.code illegalDataAddress) :=
  (if_neg (not_operandsIllegal h1 h2 hbc hd)).trans
    (finishWrite_coils_outOfBounds (unpackBits_ne_nil h1) (by rwa [unpackBits_length]))

end coils

section registers

variable (h2 : qty.toNat ≤ maxWriteRegs) (hbc : bc.toNat = 2 * qty.toNat)
include h1 h2 hbc hd

theorem exec_writeMultipleRegisters_ok (hb : addr.toNat + qty.toNat ≤ s.params.sizeHr) :
    exec (.writeMultipleRegistersReq addr qty bc data) s =
      .next ((s.writeRegs .hr addr.toNat (unpackRegs data qty.toNat)).give
        (.pdu (pairPdu .writeMultipleRegisters addr qty))) :=
  (if_neg (not_operandsIllegal h1 h2 hbc hd)).trans
    (finishWrite_hr_inBounds (unpackRegs_ne_nil h1) (by rwa [unpackRegs_length]))

theorem exec_writeMultipleRegisters_badAddr (hb : s.params.sizeHr < addr.toNat + qty.toNat) :
    exec (.writeMultipleRegistersReq addr qty bc data) s =
      .next (s.answerException FunctionCode.writeMultipleRegisters.code illegalDataAddress) :=
  (if_neg (not_operandsIllegal h1 h2 hbc hd)).trans
    (finishWrite_hr_outOfBounds (unpackRegs_ne_nil h1) (by rwa [unpackRegs_length]))

end registers

end multiple

/-- Settles O20: the range written holds the bits that the data bytes unpack to. -/
theorem writeMultipleCoilsWritesTheRange : Obligations.WriteMultipleCoilsWritesTheRange := by
  refine fun addr qty bc data s => ⟨fun h1 h2 hbc hd hb => ?_,
    fun h => exec_writeMultipleCoils_illegal (or_assoc.mpr h),
    fun h1 h2 hbc hd hb => exec_writeMultipleCoils_badAddr h1 hd h2 hbc hb,
    handleRequest_encode (i := .writeMultipleCoilsReq addr qty bc data) rfl s,
    fun _ hl => handleRequest_multi_of_short (fc := .writeMultipleCoils) rfl hl s⟩
  obtain ⟨inside, outside, frame⟩ := State.writeBits_coils_effect s addr.toNat (unpackBits data qty.toNat) _ rfl
  rw [unpackBits_length] at outside
  refine ⟨_, exec_writeMultipleCoils_ok h1 hd h2 hbc hb, rfl, fun k hk => ?_, outside, frame⟩
  rw [inside k (by rwa [unpackBits_length]), unpackBits_getElem]

/-- Settles O21: the range written holds the words that the data bytes unpack to. -/
theorem writeMultipleRegistersWritesTheRange : Obligations.WriteMultipleRegistersWritesTheRange := by
  refine fun addr qty bc data s => ⟨fun h1 h2 hbc hd hb => ?_,
    fun h => exec_writeMultipleRegisters_illegal (or_assoc.mpr h),
    fun h1 h2 hbc hd hb => exec_writeMultipleRegisters_badAddr h1 hd h2 hbc hb,
    handleRequest_encode (i := .writeMultipleRegistersReq addr qty bc data) rfl s,
    fun _ hl => handleRequest_multi_of_short (fc := .writeMultipleRegisters) rfl hl s⟩
  obtain ⟨inside, outside, frame⟩ := State.writeRegs_hr_effect s addr.toNat (unpackRegs data qty.toNat) _ rfl
  rw [unpackRegs_length] at outside
  refine ⟨_, exec_writeMultipleRegisters_ok h1 hd h2 hbc hb, rfl, fun k hk => ?_, outside, frame⟩
  rw [inside k (by rwa [unpackRegs_length]), unpackRegs_getElem, word16_toNat]

/-! ### A write function, then a read function -/

/-- A bit read over the range just written answers with the values written. -/
theorem handleReadBits_writeBits {fc : FunctionCode} {sp : BitSpace} {addr qty : U16} {vals : List Bool} (s : State)
    (o : Output) (hl : vals.length = qty.toNat) (h1 : 1 ≤ qty.toNat) (h2 : qty.toNat ≤ maxReadBits)
    (hb : addr.toNat + qty.toNat ≤ bitSize s.params sp) :
    ∃ u, handleReadBits fc sp addr qty ((s.writeBits sp addr.toNat vals).give o) = .next u ∧
      u.out = .pdu (fc.code :: BitVec.ofNat 8 (packedSize qty.toNat) :: packBits vals) := by
  refine ⟨_, handleReadBits_ok h1 h2 (by simpa [State.writeBits] using hb), ?_⟩
  rw [State.give_out, State.give_bitFile, State.writeBits, State.setBitFile_bitFile, ← hl, fileReadAll_fileWriteAll]

/-- A register read over the range just written answers with the values written. -/
theorem handleReadRegs_writeRegs {fc : FunctionCode} {sp : RegSpace} {addr qty : U16} {vals : List U16} (s : State)
    (o : Output) (hl : vals.length = qty.toNat) (h1 : 1 ≤ qty.toNat) (h2 : qty.toNat ≤ maxReadRegs)
    (hb : addr.toNat + qty.toNat ≤ regSize s.params sp) :
    ∃ u, handleReadRegs fc sp addr qty ((s.writeRegs sp addr.toNat vals).give o) = .next u ∧
      u.out = .pdu (fc.code :: BitVec.ofNat 8 (2 * qty.toNat) :: packRegs vals) := by
  refine ⟨_, handleReadRegs_ok h1 h2 (by simpa [State.writeRegs] using hb), ?_⟩
  rw [State.give_out, State.give_regFile, State.writeRegs, State.setRegFile_regFile, ← hl, fileReadAll_fileWriteAll]

/-- One coil packs into bit 0 of one byte. -/
theorem packBits_singleton (b : Bool) : packBits [b] = [if b then 0x01 else 0x00] := by
  cases b <;> decide

/-- Settles O22: each read is over the range its write wrote, and a write limit is below the read limit. -/
theorem writeThenReadReturnsTheWrittenValues : Obligations.WriteThenReadReturnsTheWrittenValues := by
  refine fun addr s => ⟨fun value b hv hb => ?_, fun value hb => ?_, fun qty bc data h1 h2 hbc hd hb => ?_,
    fun qty bc data h1 h2 hbc hd hb => ?_⟩
  · obtain ⟨u, hu, ho⟩ := handleReadBits_writeBits (fc := .readCoils) (sp := .coils) (qty := 1) (vals := [b]) s
      (.pdu (encode (.writeSingleCoilReq addr value))) rfl (by decide) (by decide) hb
    exact ⟨_, u, exec_writeSingleCoil_ok hv hb, hu, by rw [ho, packBits_singleton]; rfl⟩
  · obtain ⟨u, hu, ho⟩ := handleReadRegs_writeRegs (fc := .readHoldingRegisters) (sp := .hr) (qty := 1)
      (vals := [value]) s (.pdu (encode (.writeSingleRegisterReq addr value))) rfl (by decide) (by decide) hb
    exact ⟨_, u, exec_writeSingleRegister_ok hb, hu, ho⟩
  · obtain ⟨u, hu, ho⟩ := handleReadBits_writeBits (fc := .readCoils) (sp := .coils) s
      (.pdu (pairPdu .writeMultipleCoils addr qty)) (unpackBits_length data qty.toNat) h1 (h2.trans (by decide)) hb
    refine ⟨_, u, exec_writeMultipleCoils_ok h1 hd h2 hbc hb, hu, ?_⟩
    rw [ho, packedSize, ← hbc, BitVec.ofNat_toNat, BitVec.setWidth_eq]
    rfl
  · obtain ⟨u, hu, ho⟩ := handleReadRegs_writeRegs (fc := .readHoldingRegisters) (sp := .hr) s
      (.pdu (pairPdu .writeMultipleRegisters addr qty)) (unpackRegs_length data qty.toNat) h1 (h2.trans (by decide)) hb
    refine ⟨_, u, exec_writeMultipleRegisters_ok h1 hd h2 hbc hb, hu, ?_⟩
    rw [ho, packRegs_unpackRegs (hd.trans hbc), ← hbc, BitVec.ofNat_toNat, BitVec.setWidth_eq]
    rfl

end Sys2Proof.Machine

/-!
PROOFS. The request builders (spec 44_request_builders.md): every builder is CheckRange followed by packing, so the range
check, the packing of two fields and the packing of a register list are shown once. A built PDU is the encoding of an
instruction with legal operands, and what such an instruction answers is known from the read and the write functions.
-/

namespace Sys2Proof.Machine

open Sys2Proof

/-! ### CheckRange -/

section checkRange

variable {addr n nmax : Int}

theorem checkRange_address (ha : addr < 0 ∨ 65535 < addr) : checkRange addr n nmax = .error (.validation .address) :=
  if_pos ha

theorem checkRange_count (h0 : 0 ≤ addr) (h1 : addr ≤ 65535) (hn : n < 1 ∨ nmax < n) :
    checkRange addr n nmax = .error (.validation .count) :=
  (if_neg (not_or.mpr ⟨h0.not_gt, h1.not_gt⟩)).trans (if_pos hn)

theorem checkRange_past_count (h0 : 0 ≤ addr) (h1 : addr ≤ 65535) (hn : 1 ≤ n) (hm : n ≤ nmax) :
    checkRange addr n nmax = if 65536 < addr + n then .error (.validation .span) else .ok () :=
  (if_neg (not_or.mpr ⟨h0.not_gt, h1.not_gt⟩)).trans (if_neg (not_or.mpr ⟨hn.not_gt, hm.not_gt⟩))

/-- Settles O31: the three checks in their order, each past the ones before it. -/
theorem checkRangeOrdersItsErrors : Obligations.CheckRangeOrdersItsErrors := fun _ _ _ =>
  ⟨checkRange_address, checkRange_count,
    fun h0 h1 hn hm hs => (checkRange_past_count h0 h1 hn hm).trans (if_pos hs),
    fun h0 h1 hn hm hs => (checkRange_past_count h0 h1 hn hm).trans (if_neg hs.not_gt)⟩

/-- The address and the count of a range that passes. -/
theorem checkRange_ok (h : checkRange addr n nmax = .ok ()) : (0 ≤ addr ∧ addr ≤ 65535) ∧ 1 ≤ n ∧ n ≤ nmax := by
  by_cases ha : addr < 0 ∨ 65535 < addr
  · cases (checkRange_address ha).symm.trans h
  by_cases hn : n < 1 ∨ nmax < n
  · cases (checkRange_count (by omega) (by omega) hn).symm.trans h
  omega

variable {pack : Unit → Except CodecError Bytes} {pdu : Bytes}

/-- A builder's first error is CheckRange's (R261). -/
theorem checkRange_bind_error {e : CodecError} (h : checkRange addr n nmax = .error e) :
    (checkRange addr n nmax >>= pack) = .error e := by
  rw [h]
  rfl

theorem checkRange_bind_pass (h : checkRange addr n nmax = .ok ()) : (checkRange addr n nmax >>= pack) = pack () := by
  rw [h]
  rfl

/-- A builder that returns a PDU has passed CheckRange and has packed it. -/
theorem checkRange_bind_ok (h : (checkRange addr n nmax >>= pack) = .ok pdu) :
    checkRange addr n nmax = .ok () ∧ pack () = .ok pdu := by
  cases hc : checkRange addr n nmax with
  | error e => cases (checkRange_bind_error hc).symm.trans h
  | ok u => exact ⟨rfl, (checkRange_bind_pass hc).symm.trans h⟩

end checkRange

/-! ### Packing two fields -/

section pairs

variable {fc : FunctionCode} {first second : Int}

theorem p16_ofInt {v : Int} (h : 0 ≤ v ∧ v ≤ 65535) : p16 v = .ok (be16 (BitVec.ofInt 16 v)) := by
  obtain ⟨x, rfl⟩ := exists_u16_of_fits h.1 h.2
  simp

theorem toNat_ofInt_of_fits {v : Int} (h : 0 ≤ v ∧ v ≤ 65535) : ((BitVec.ofInt 16 v).toNat : Int) = v := by
  obtain ⟨x, rfl⟩ := exists_u16_of_fits h.1 h.2
  simp

theorem packPair_of_fits (ha : 0 ≤ first ∧ first ≤ 65535) (hb : 0 ≤ second ∧ second ≤ 65535) :
    packPair fc first second = .ok (pairPdu fc (BitVec.ofInt 16 first) (BitVec.ofInt 16 second)) := by
  simp only [packPair, p8_byte, p16_ofInt ha, p16_ofInt hb]
  rfl

theorem packPair_of_second_not_fits (ha : 0 ≤ first ∧ first ≤ 65535) (hb : second < 0 ∨ 65535 < second) :
    packPair fc first second = .error (.frameEncode second 16) := by
  simp only [packPair, p8_byte, p16_ofInt ha, p16_of_not_fits hb]
  rfl

/-- Two fields that were packed are words, where the first is known to fit. -/
theorem packPair_ok {pdu : Bytes} (ha : 0 ≤ first ∧ first ≤ 65535) (h : packPair fc first second = .ok pdu) :
    pdu = pairPdu fc (BitVec.ofInt 16 first) (BitVec.ofInt 16 second) := by
  by_cases hb : second < 0 ∨ 65535 < second
  · cases (packPair_of_second_not_fits ha hb).symm.trans h
  · cases (packPair_of_fits ha (by omega)).symm.trans h
    rfl

end pairs

/-- A builder of an address and a quantity is CheckRange, then two words. -/
theorem checkedPair_eq (fc : FunctionCode) (addr qty : Int) {limit : Int} (hl : limit ≤ 65535) :
    (∀ e, checkRange addr qty limit = .error e →
      (checkRange addr qty limit >>= fun _ => packPair fc addr qty) = .error e) ∧
    (checkRange addr qty limit = .ok () → (checkRange addr qty limit >>= fun _ => packPair fc addr qty) =
      .ok (pairPdu fc (BitVec.ofInt 16 addr) (BitVec.ofInt 16 qty))) := by
  refine ⟨fun e => checkRange_bind_error, fun h => (checkRange_bind_pass h).trans ?_⟩
  obtain ⟨ha, h1, hm⟩ := checkRange_ok h
  exact packPair_of_fits ha (by omega)

/-- Settles O32: the four builders differ in the function code and the limit alone. -/
theorem readBuildersPackTheRequest : Obligations.ReadBuildersPackTheRequest := by
  rintro build limit request addr qty (⟨rfl, rfl, rfl⟩ | ⟨rfl, rfl, rfl⟩ | ⟨rfl, rfl, rfl⟩ | ⟨rfl, rfl, rfl⟩)
  · exact checkedPair_eq .readCoils addr qty (by decide)
  · exact checkedPair_eq .readDiscreteInputs addr qty (by decide)
  · exact checkedPair_eq .readHoldingRegisters addr qty (by decide)
  · exact checkedPair_eq .readInputRegisters addr qty (by decide)

/-- Settles O33: the value is packed as it stands (`coilWireValue`), or is the one field that does not fit. -/
theorem singleWriteBuildersPackTheRequest : Obligations.SingleWriteBuildersPackTheRequest := by
  refine fun addr v => ⟨fun e h => ⟨fun value => checkRange_bind_error h, checkRange_bind_error h⟩, fun h => ?_⟩
  obtain ⟨ha, -⟩ := checkRange_ok h
  exact ⟨(checkRange_bind_pass h).trans (packPair_of_fits ha (by decide)),
    (checkRange_bind_pass h).trans (packPair_of_fits ha (by decide)),
    fun h0 h1 => ⟨(checkRange_bind_pass h).trans (packPair_of_fits ha ⟨h0, h1⟩),
      (checkRange_bind_pass h).trans (packPair_of_fits ha ⟨h0, h1⟩)⟩,
    fun hv => ⟨(checkRange_bind_pass h).trans (packPair_of_second_not_fits ha hv),
      (checkRange_bind_pass h).trans (packPair_of_second_not_fits ha hv)⟩⟩

/-! ### Packing a list -/

theorem p8_natCast {n : Nat} (h : n ≤ 255) : p8 n = .ok [BitVec.ofNat 8 n] := by
  rw [p8_of_fits (by omega) (by omega), Int.toNat_natCast]

theorem p16All_of_fits {values : List Int} (h : ∀ v ∈ values, 0 ≤ v ∧ v ≤ 65535) :
    p16All values = .ok (packRegs (values.map (BitVec.ofInt 16))) := by
  induction values with
  | nil => rfl
  | cons v vs ih =>
    obtain ⟨hv, hvs⟩ := List.forall_mem_cons.mp h
    simp only [p16All, p16_ofInt hv, ih hvs, List.map_cons, packRegs]

/-- The values before the first that does not fit are packed, and it stops the packing (R268). -/
theorem p16All_first_not_fits {before after : List Int} {v : Int} (hb : ∀ w ∈ before, 0 ≤ w ∧ w ≤ 65535)
    (hv : v < 0 ∨ 65535 < v) : p16All (before ++ v :: after) = .error (.frameEncode v 16) := by
  induction before with
  | nil => simp only [List.nil_append, p16All, p16_of_not_fits hv]
  | cons w ws ih =>
    obtain ⟨hw, hws⟩ := List.forall_mem_cons.mp hb
    simp only [List.cons_append, p16All, p16_ofInt hw, ih hws]

/-- Values that were packed take two bytes each. -/
theorem p16All_length {values : List Int} {data : Bytes} (h : p16All values = .ok data) :
    data.length = 2 * values.length := by
  induction values generalizing data with
  | nil =>
    cases h
    rfl
  | cons v vs ih =>
    by_cases hv : v < 0 ∨ 65535 < v
    · simp only [p16All, p16_of_not_fits hv] at h
      cases h
    · simp only [p16All, p16_ofInt (v := v) (by omega)] at h
      cases hvs : p16All vs with
      | error e =>
        rw [hvs] at h
        cases h
      | ok bs =>
        rw [hvs] at h
        cases h
        rw [List.length_append, be16_length, ih hvs, List.length_cons]
        omega

/-- The head of a multiple write whose range passes, its count being a list's length. -/
theorem packPair_of_checkRange {fc : FunctionCode} {addr limit : Int} {n : Nat} (h : checkRange addr n limit = .ok ())
    (hl : limit ≤ 65535) :
    packPair fc addr n = .ok (pairPdu fc (BitVec.ofInt 16 addr) (BitVec.ofNat 16 n)) := by
  obtain ⟨ha, h1, hm⟩ := checkRange_ok h
  rw [packPair_of_fits ha (by omega), BitVec.ofInt_natCast]

/-- A coil list whose range passes is packed. -/
theorem buildWriteMultipleCoils_of_checkRange {addr : Int} {bits : List Bool}
    (h : checkRange addr bits.length 1968 = .ok ()) :
    buildWriteMultipleCoils addr bits = .ok (encode (.writeMultipleCoilsReq (BitVec.ofInt 16 addr)
      (BitVec.ofNat 16 bits.length) (BitVec.ofNat 8 (packedSize bits.length)) (packBits bits))) := by
  obtain ⟨-, -, hm⟩ := checkRange_ok h
  have bc : p8 (packedSize bits.length) = _ := p8_natCast (by rw [packedSize]; omega)
  refine (checkRange_bind_pass h).trans ?_
  simp only [packPair_of_checkRange h (by decide), bc]
  rfl

/-- A register list whose range passes is packed where each of its values is. -/
theorem buildWriteMultipleRegisters_of_checkRange {addr : Int} {values : List Int}
    (h : checkRange addr values.length 123 = .ok ()) :
    buildWriteMultipleRegisters addr values = (p16All values).map fun data =>
      encode (.writeMultipleRegistersReq (BitVec.ofInt 16 addr) (BitVec.ofNat 16 values.length)
        (BitVec.ofNat 8 (2 * values.length)) data) := by
  obtain ⟨-, -, hm⟩ := checkRange_ok h
  have bc : p8 (2 * values.length) = _ := p8_natCast (n := 2 * values.length) (by omega)
  refine (checkRange_bind_pass h).trans ?_
  simp only [packPair_of_checkRange h (by decide), bc]
  cases p16All values <;> rfl

/-- Settles O34: past CheckRange the coil list is packed, and the register list ends as `p16All` does. -/
theorem multipleWriteBuildersPackTheRequest : Obligations.MultipleWriteBuildersPackTheRequest := by
  refine fun addr bits values => ⟨fun e => checkRange_bind_error, buildWriteMultipleCoils_of_checkRange,
    fun e => checkRange_bind_error, fun h => ⟨fun fits => ?_, ?_⟩⟩
  · rw [buildWriteMultipleRegisters_of_checkRange h, p16All_of_fits fits]
    rfl
  · rintro before after v rfl hb hv
    rw [buildWriteMultipleRegisters_of_checkRange h, p16All_first_not_fits hb hv]
    rfl

/-! ### What a builder returns -/

/-- The instructions that builders encode, each with what the caller keeps of it: legal quantities, and for the multiple
writes a byte count that agrees with the quantity and the data (R270). -/
inductive BuiltRequest : SentRequest → Instr → Prop where
  | readCoils (addr qty : U16) (h1 : 1 ≤ qty.toNat) (h2 : qty.toNat ≤ maxReadBits) :
      BuiltRequest ⟨.readCoils, addr, qty, 0⟩ (.readCoilsReq addr qty)
  | readDiscreteInputs (addr qty : U16) (h1 : 1 ≤ qty.toNat) (h2 : qty.toNat ≤ maxReadBits) :
      BuiltRequest ⟨.readDiscreteInputs, addr, qty, 0⟩ (.readDiscreteInputsReq addr qty)
  | readHoldingRegisters (addr qty : U16) (h1 : 1 ≤ qty.toNat) (h2 : qty.toNat ≤ maxReadRegs) :
      BuiltRequest ⟨.readHoldingRegisters, addr, qty, 0⟩ (.readHoldingRegistersReq addr qty)
  | readInputRegisters (addr qty : U16) (h1 : 1 ≤ qty.toNat) (h2 : qty.toNat ≤ maxReadRegs) :
      BuiltRequest ⟨.readInputRegisters, addr, qty, 0⟩ (.readInputRegistersReq addr qty)
  | writeSingleCoil (addr value : U16) : BuiltRequest ⟨.writeSingleCoil, addr, 1, value⟩ (.writeSingleCoilReq addr value)
  | writeSingleRegister (addr value : U16) :
      BuiltRequest ⟨.writeSingleRegister, addr, 1, value⟩ (.writeSingleRegisterReq addr value)
  | writeMultipleCoils (addr qty : U16) (bc : Byte) (data : Bytes) (h1 : 1 ≤ qty.toNat) (h2 : qty.toNat ≤ maxWriteBits)
      (hbc : bc.toNat = packedSize qty.toNat) (hd : data.length = bc.toNat) :
      BuiltRequest ⟨.writeMultipleCoils, addr, qty, 0⟩ (.writeMultipleCoilsReq addr qty bc data)
  | writeMultipleRegisters (addr qty : U16) (bc : Byte) (data : Bytes) (h1 : 1 ≤ qty.toNat)
      (h2 : qty.toNat ≤ maxWriteRegs) (hbc : bc.toNat = 2 * qty.toNat) (hd : data.length = bc.toNat) :
      BuiltRequest ⟨.writeMultipleRegisters, addr, qty, 0⟩ (.writeMultipleRegistersReq addr qty bc data)

/-- What a builder of an address and one more field has returned. -/
theorem checkedPair_ok {fc : FunctionCode} {addr n nmax second : Int} {pdu : Bytes}
    (h : (checkRange addr n nmax >>= fun _ => packPair fc addr second) = .ok pdu) :
    pdu = pairPdu fc (BitVec.ofInt 16 addr) (BitVec.ofInt 16 second) ∧ 1 ≤ n ∧ n ≤ nmax := by
  obtain ⟨hc, hp⟩ := checkRange_bind_ok h
  obtain ⟨ha, hn⟩ := checkRange_ok hc
  exact ⟨packPair_ok ha hp, hn⟩

/-- A read builder's quantity is a legal word. -/
theorem legal_quantity {qty : Int} {limit : Nat} (h : 1 ≤ qty ∧ qty ≤ limit) (hl : limit ≤ 65535) :
    1 ≤ (BitVec.ofInt 16 qty).toNat ∧ (BitVec.ofInt 16 qty).toNat ≤ limit := by
  have := toNat_ofInt_of_fits (v := qty) (by omega)
  omega

/-- A list's length that passes CheckRange is its own word, and legal. -/
theorem legal_count {addr : Int} {n limit : Nat} (h : checkRange addr n limit = .ok ()) (hl : limit ≤ 65535) :
    (BitVec.ofNat 16 n).toNat = n ∧ 1 ≤ n ∧ n ≤ limit := by
  obtain ⟨-, h1, hm⟩ := checkRange_ok h
  exact ⟨Nat.mod_eq_of_lt (by omega), by omega, by omega⟩

/-- Every PDU that a builder returns encodes a request with legal operands. -/
theorem buildRequest_ok {call : BuildCall} {pdu : Bytes} (h : buildRequest call = .ok pdu) :
    ∃ i, BuiltRequest (sentRequest call) i ∧ pdu = encode i := by
  cases call with
  | readCoils addr qty =>
    obtain ⟨e, hq⟩ := checkedPair_ok h
    obtain ⟨h1, h2⟩ := legal_quantity hq (by decide)
    exact ⟨_, .readCoils _ _ h1 h2, e⟩
  | readDiscreteInputs addr qty =>
    obtain ⟨e, hq⟩ := checkedPair_ok h
    obtain ⟨h1, h2⟩ := legal_quantity hq (by decide)
    exact ⟨_, .readDiscreteInputs _ _ h1 h2, e⟩
  | readHoldingRegisters addr qty =>
    obtain ⟨e, hq⟩ := checkedPair_ok h
    obtain ⟨h1, h2⟩ := legal_quantity hq (by decide)
    exact ⟨_, .readHoldingRegisters _ _ h1 h2, e⟩
  | readInputRegisters addr qty =>
    obtain ⟨e, hq⟩ := checkedPair_ok h
    obtain ⟨h1, h2⟩ := legal_quantity hq (by decide)
    exact ⟨_, .readInputRegisters _ _ h1 h2, e⟩
  | writeSingleCoil addr value => exact ⟨_, .writeSingleCoil _ _, (checkedPair_ok h).1⟩
  | writeSingleRegister addr value => exact ⟨_, .writeSingleRegister _ _, (checkedPair_ok h).1⟩
  | writeMultipleCoils addr bits =>
    obtain ⟨hc, -⟩ := checkRange_bind_ok h
    obtain ⟨hq, h1, h2⟩ := legal_count (limit := 1968) hc (by decide)
    cases (buildWriteMultipleCoils_of_checkRange hc).symm.trans h
    have hbc : (BitVec.ofNat 8 (packedSize bits.length)).toNat = packedSize bits.length :=
      Nat.mod_eq_of_lt (by rw [packedSize]; omega)
    exact ⟨_, .writeMultipleCoils _ _ _ _ (by rwa [hq]) (by rwa [hq]) (by rw [hbc, hq])
      (by rw [hbc, packBits_length]), rfl⟩
  | writeMultipleRegisters addr values =>
    obtain ⟨hc, -⟩ := checkRange_bind_ok h
    obtain ⟨hq, h1, h2⟩ := legal_count (limit := 123) hc (by decide)
    have built := (buildWriteMultipleRegisters_of_checkRange hc).symm.trans h
    cases hd : p16All values with
    | error e =>
      rw [hd] at built
      cases built
    | ok data =>
      rw [hd] at built
      cases built
      have hbc : (BitVec.ofNat 8 (2 * values.length)).toNat = 2 * values.length := Nat.mod_eq_of_lt (by omega)
      exact ⟨_, .writeMultipleRegisters _ _ _ _ (by rwa [hq]) (by rwa [hq]) (by rw [hbc, hq])
        (by rw [hbc, p16All_length hd]), rfl⟩

/-! ### What the handler answers -/

theorem BuiltRequest.direction {req : SentRequest} {i : Instr} (h : BuiltRequest req i) : i.direction = .request := by
  cases h <;> rfl

/-- A built PDU fits a frame: both multiple writes carry at most 246 data bytes (R103). -/
theorem BuiltRequest.wellFormed {req : SentRequest} {i : Instr} (h : BuiltRequest req i) : i.WellFormed := by
  cases h with
  | writeMultipleCoils addr qty bc data h1 h2 hbc hd =>
    have limit : qty.toNat ≤ 1968 := h2
    exact decide_eq_true (by rw [multiDataFits, hd, hbc, packedSize]; omega)
  | writeMultipleRegisters addr qty bc data h1 h2 hbc hd =>
    have limit : qty.toNat ≤ 123 := h2
    exact decide_eq_true (by rw [multiDataFits, hd, hbc]; omega)
  | _ => rfl

/-- The size of the space that a function addresses. -/
def functionSpaceSize (p : Params) : FunctionCode → Nat
  | .readCoils => p.sizeCoils
  | .writeSingleCoil => p.sizeCoils
  | .writeMultipleCoils => p.sizeCoils
  | .readDiscreteInputs => p.sizeDi
  | .readHoldingRegisters => p.sizeHr
  | .writeSingleRegister => p.sizeHr
  | .writeMultipleRegisters => p.sizeHr
  | .readInputRegisters => p.sizeIr

/-- CoilValue rejects a value only under REJECT_03, and only one that is not standard (R221). -/
theorem coilValue_eq_none {other : WscOther} {value : U16} (h : coilValue other value = none) :
    other = .reject03 ∧ value ≠ 0xFF00 ∧ value ≠ 0x0000 := by
  unfold coilValue at h
  split_ifs at h with notOn notOff
  cases other with
  | reject03 => exact ⟨rfl, notOn, notOff⟩
  | asTrue => cases h
  | asFalse => cases h

/-- A built request is answered by its function's response; or with 02, its range being past the space's size; or with 03,
WSC_OTHER rejecting its coil value. -/
theorem BuiltRequest.exec_cases {req : SentRequest} {i : Instr} (h : BuiltRequest req i) (s : State) :
    (∃ t tail, exec i s = .next t ∧ t.out = .pdu (req.fc.code :: tail)) ∨
    (functionSpaceSize s.params req.fc < req.addr.toNat + req.qty.toNat ∧
      exec i s = .next (s.answerException req.fc.code illegalDataAddress)) ∨
    (req.fc = .writeSingleCoil ∧ coilValue s.params.wscOther req.wireValue = none ∧
      exec i s = .next (s.answerException req.fc.code illegalDataValue)) := by
  rcases Nat.lt_or_ge (functionSpaceSize s.params req.fc) (req.addr.toNat + req.qty.toNat) with hb | hb
  case inr =>
    cases h with
    | readCoils addr qty h1 h2 | readDiscreteInputs addr qty h1 h2 =>
      exact .inl ⟨_, _, handleReadBits_ok h1 h2 hb, rfl⟩
    | readHoldingRegisters addr qty h1 h2 | readInputRegisters addr qty h1 h2 =>
      exact .inl ⟨_, _, handleReadRegs_ok h1 h2 hb, rfl⟩
    | writeSingleCoil addr value =>
      cases hv : coilValue s.params.wscOther value with
      | none => exact .inr (.inr ⟨rfl, rfl, exec_writeSingleCoil_badValue hv⟩)
      | some b => exact .inl ⟨_, _, exec_writeSingleCoil_ok hv hb, rfl⟩
    | writeSingleRegister addr value => exact .inl ⟨_, _, exec_writeSingleRegister_ok hb, rfl⟩
    | writeMultipleCoils addr qty bc data h1 h2 hbc hd =>
      exact .inl ⟨_, _, exec_writeMultipleCoils_ok h1 hd h2 hbc hb, rfl⟩
    | writeMultipleRegisters addr qty bc data h1 h2 hbc hd =>
      exact .inl ⟨_, _, exec_writeMultipleRegisters_ok h1 hd h2 hbc hb, rfl⟩
  case inl =>
    cases h with
    | readCoils addr qty h1 h2 | readDiscreteInputs addr qty h1 h2 =>
      exact .inr (.inl ⟨hb, handleReadBits_badAddr h1 h2 hb⟩)
    | readHoldingRegisters addr qty h1 h2 | readInputRegisters addr qty h1 h2 =>
      exact .inr (.inl ⟨hb, handleReadRegs_badAddr h1 h2 hb⟩)
    | writeSingleCoil addr value =>
      cases hv : coilValue s.params.wscOther value with
      | none => exact .inr (.inr ⟨rfl, rfl, exec_writeSingleCoil_badValue hv⟩)
      | some b => exact .inr (.inl ⟨hb, exec_writeSingleCoil_badAddr hv (Nat.le_of_lt_succ hb)⟩)
    | writeSingleRegister addr value =>
      exact .inr (.inl ⟨hb, exec_writeSingleRegister_badAddr (Nat.le_of_lt_succ hb)⟩)
    | writeMultipleCoils addr qty bc data h1 h2 hbc hd =>
      exact .inr (.inl ⟨hb, exec_writeMultipleCoils_badAddr h1 hd h2 hbc hb⟩)
    | writeMultipleRegisters addr qty bc data h1 h2 hbc hd =>
      exact .inr (.inl ⟨hb, exec_writeMultipleRegisters_badAddr h1 hd h2 hbc hb⟩)

/-- Settles O35: a built PDU encodes a `BuiltRequest`, and the three ends of one are `BuiltRequest.exec_cases`. -/
theorem builtRequestsAreAccepted : Obligations.BuiltRequestsAreAccepted := by
  intro call pdu s h
  obtain ⟨i, built, rfl⟩ := buildRequest_ok h
  have decoded : decodeRequest (encode i) = .ok i := by
    have := decode_encode i
    rwa [built.direction] at this
  have run := handleRequest_of_decode s decoded
  refine ⟨⟨i, decoded, built.wellFormed, run⟩, ?_⟩
  rw [run]
  obtain ⟨t, tail, e, ho⟩ | ⟨hb, e⟩ | ⟨hf, hv, e⟩ := built.exec_cases s
  · refine ⟨t, _, e, ho, fun bit => ?_⟩
    cases (hasExceptionBit_code _).symm.trans bit
  · refine ⟨_, _, e, rfl, fun _ => .inl ⟨rfl, ?_⟩⟩
    revert hb
    cases (sentRequest call).fc <;> exact id
  · refine ⟨_, _, e, rfl, fun _ => .inr ⟨?_, ?_⟩⟩
    · rw [hf]
      rfl
    · obtain ⟨hr, notOn, notOff⟩ := coilValue_eq_none hv
      exact ⟨hr, hf, notOn, notOff⟩

end Sys2Proof.Machine

/-!
PROOFS. The response parsers (spec 45_response_parsers.md). A normal response is `parseAgainst` with its function and that
function's parser, so what ParseResponse gives is the parser's value where the PDU decodes and one frame error where it does
not. A whole exchange is the handler's response, known byte for byte, given to that parser.
-/

namespace Sys2Proof.Machine

open Sys2Proof

/-! ### The parsers on a decoded response -/

/-- Every normal response is parsed against the sent request, under the function that its first byte names. -/
theorem exec_normal_response {i : Instr} (hi : i.direction = .response) (normal : ∀ f c, i ≠ .exceptionRsp f c) :
    ∃ (fc : FunctionCode) (parse : SentRequest → Output),
      (encode i).head? = some fc.code ∧ ∀ s, exec i s = parseAgainst fc parse s := by
  cases i with
  | readCoilsRsp bc data => exact ⟨.readCoils, _, rfl, fun _ => rfl⟩
  | readDiscreteInputsRsp bc data => exact ⟨.readDiscreteInputs, _, rfl, fun _ => rfl⟩
  | readHoldingRegistersRsp bc data => exact ⟨.readHoldingRegisters, _, rfl, fun _ => rfl⟩
  | readInputRegistersRsp bc data => exact ⟨.readInputRegisters, _, rfl, fun _ => rfl⟩
  | writeSingleCoilRsp addr value => exact ⟨.writeSingleCoil, _, rfl, fun _ => rfl⟩
  | writeSingleRegisterRsp addr value => exact ⟨.writeSingleRegister, _, rfl, fun _ => rfl⟩
  | writeMultipleCoilsRsp addr qty => exact ⟨.writeMultipleCoils, _, rfl, fun _ => rfl⟩
  | writeMultipleRegistersRsp addr qty => exact ⟨.writeMultipleRegisters, _, rfl, fun _ => rfl⟩
  | exceptionRsp f c => exact absurd rfl (normal f c)
  | _ => cases hi

section sent

variable {fc : FunctionCode} {parse : SentRequest → Output} {s : State} {req : SentRequest}

theorem parseAgainst_own (hf : req.fc = fc) (hs : s.sent = some req) :
    parseAgainst fc parse s = .next (s.give (parse req)) := by
  rw [parseAgainst_some hs, if_pos hf.symm]

theorem parseAgainst_other (hf : fc ≠ req.fc) (hs : s.sent = some req) :
    parseAgainst fc parse s = .next (s.give (.error (.frameDecode .fcMismatch))) := by
  rw [parseAgainst_some hs, if_neg hf]

/-- A normal response of another function than the request's is an FcMismatch (R291). -/
theorem exec_response_of_other {i : Instr} (hi : i.direction = .response) (normal : ∀ f c, i ≠ .exceptionRsp f c)
    (hs : s.sent = some req) (hne : (encode i).head? ≠ some req.fc.code) :
    exec i s = .next (s.give (.error (.frameDecode .fcMismatch))) := by
  obtain ⟨fc, parse, head, run⟩ := exec_normal_response hi normal
  rw [run, parseAgainst_other (fun e => hne (e ▸ head)) hs]

end sent

/-- Settles O29: a normal response is `parseAgainst`, which asks for the request and then compares its function. -/
theorem responseWithoutItsRequestIsNotParsed : Obligations.ResponseWithoutItsRequestIsNotParsed := by
  refine fun i s hi normal => ⟨fun hs => ?_, fun req hs hne => exec_response_of_other hi normal hs hne⟩
  obtain ⟨fc, parse, -, run⟩ := exec_normal_response hi normal
  rw [run, parseAgainst_none hs]

section counted

variable {bc : Byte} {data : Bytes} {expected : Nat} {values : Output}

theorem parseCounted_values (hl : data.length = bc.toNat) (hq : bc.toNat = expected) :
    parseCounted bc data expected values = values := by
  rw [parseCounted, if_neg (not_not.mpr hl), if_neg (not_not.mpr hq)]

theorem parseCounted_pduSize (hl : data.length ≠ bc.toNat) :
    parseCounted bc data expected values = .error (.frameDecode .pduSize) :=
  if_pos hl

theorem parseCounted_byteCount (hl : data.length = bc.toNat) (hq : bc.toNat ≠ expected) :
    parseCounted bc data expected values = .error (.frameDecode .byteCount) := by
  rw [parseCounted, if_neg (not_not.mpr hl), if_pos hq]

/-- The three ends of a read response: its values, PduSize and ByteCount (R301, R302). -/
theorem counted_outcomes {r : StepResult} {s : State} (run : r = .next (s.give (parseCounted bc data expected values))) :
    (data.length = bc.toNat → bc.toNat = expected → r = .next (s.give values)) ∧
    (data.length ≠ bc.toNat → r = .next (s.give (.error (.frameDecode .pduSize)))) ∧
    (data.length = bc.toNat → bc.toNat ≠ expected → r = .next (s.give (.error (.frameDecode .byteCount)))) :=
  ⟨fun hl hq => by rw [run, parseCounted_values hl hq], fun hl => by rw [run, parseCounted_pduSize hl],
    fun hl hq => by rw [run, parseCounted_byteCount hl hq]⟩

end counted

section echo

variable {first second sentFirst sentSecond : U16}

theorem parseEcho_same (hf : first = sentFirst) (hs : second = sentSecond) :
    parseEcho first second sentFirst sentSecond = .fields first second :=
  if_neg (not_or.mpr ⟨not_not.mpr hf, not_not.mpr hs⟩)

theorem parseEcho_mismatch (h : first ≠ sentFirst ∨ second ≠ sentSecond) :
    parseEcho first second sentFirst sentSecond = .error (.networkReceive .echoMismatch) :=
  if_pos h

/-- The two ends of a write response: its fields and EchoMismatch (R303, R304). -/
theorem echo_outcomes {r : StepResult} {s : State}
    (run : r = .next (s.give (parseEcho first second sentFirst sentSecond))) :
    (first = sentFirst → second = sentSecond → r = .next (s.give (.fields first second))) ∧
    (first ≠ sentFirst ∨ second ≠ sentSecond → r = .next (s.give (.error (.networkReceive .echoMismatch)))) :=
  ⟨fun hf hs => by rw [run, parseEcho_same hf hs], fun differ => by rw [run, parseEcho_mismatch differ]⟩

end echo

/-! ### ParseResponse -/

section parse

variable {req : SentRequest} {f : Byte} {payload : Bytes}

/-- A payload of the request's own function reaches that function's parser (R291). -/
theorem parseResponse_own {fc : FunctionCode} {i : Instr} {parse : SentRequest → Output} (hf : req.fc = fc)
    (hd : decodeResponsePayload fc payload = .ok i) (run : ∀ s, exec i s = parseAgainst fc parse s) (s : State) :
    parseResponse req (req.fc.code :: payload) s = .next { s with out := parse req, sent := none } := by
  have decoded : decodeResponse (req.fc.code :: payload) = .ok i := by rw [decodeResponse_code, hf, hd]
  rw [parseResponse_of_decode s req decoded, run, parseAgainst_own hf rfl]
  rfl

/-- Two fields under the request's own function code reach that function's parser. -/
theorem parseResponse_ownPair {fc : FunctionCode} {k : U16 → U16 → Instr} {first second : U16}
    {parse : SentRequest → Output} (hf : req.fc = fc) (hk : decodeResponsePayload fc = decodePair k)
    (run : ∀ s, exec (k first second) s = parseAgainst fc parse s) (s : State) :
    parseResponse req (pairPdu req.fc first second) s = .next { s with out := parse req, sent := none } :=
  parseResponse_own hf (by rw [hk, decodePair_be16]) run s

/-- A PDU with bit 7 set, or of the request's own function, that is no response for its frame alone keeps that cause. -/
theorem parseResponse_of_frame_reject {cause : DecodeCause}
    (h : decodeResponse (f :: payload) = .error (.frame cause)) (hf : hasExceptionBit f = true ∨ f = req.fc.code)
    (s : State) :
    parseResponse req (f :: payload) s = .next (s.give (.error (.frameDecode cause))) := by
  simp only [parseResponse, h, responseReject, if_pos hf]

/-- A response whose payload has not its function's layout is a PduSize error (R301 to R304). -/
theorem parseResponse_pduSize (h : decodeResponsePayload req.fc payload = .error (.frame .pduSize)) (s : State) :
    parseResponse req (req.fc.code :: payload) s = .next (s.give (.error (.frameDecode .pduSize))) :=
  parseResponse_of_frame_reject ((decodeResponse_code _ _).trans h) (.inr rfl) s

/-- Neither single nor multiple writes have a response of another size than 5 (R303, R304). -/
theorem parseResponse_pair_of_length_ne {fc : FunctionCode} {k : U16 → U16 → Instr} (hf : req.fc = fc)
    (hk : decodeResponsePayload fc = decodePair k) (h : (req.fc.code :: payload).length ≠ 5) (s : State) :
    parseResponse req (req.fc.code :: payload) s = .next (s.give (.error (.frameDecode .pduSize))) := by
  have size : payload.length ≠ 4 := fun e => h (congrArg Nat.succ e)
  refine parseResponse_pduSize ?_ s
  rw [hf, hk, decodePair_of_length_ne k size]

/-- Two bytes, bit 7 of the first set: the second is the code, whatever the request and the low bits (R296). -/
theorem parseResponse_exception (hf : hasExceptionBit f = true) (code : Byte) (s : State) :
    parseResponse req [f, code] s = .next { s with out := .error (.modbusException code), sent := none } := by
  have decoded : decodeResponse [f, code] = .ok (.exceptionRsp (f.extractLsb' 0 7) code) := if_pos hf
  rw [parseResponse_of_decode s req decoded]
  rfl

theorem decodeException_of_length_ne (b : Byte) (h : payload.length ≠ 1) :
    decodeException b payload = .error (.frame .exceptionSize) := by
  match payload, h with
  | [], _ => rfl
  | [_], h => exact absurd rfl h
  | _ :: _ :: _, _ => rfl

/-- An exception PDU of another size than 2 (R296). -/
theorem parseResponse_exceptionSize (hf : hasExceptionBit f = true) (h : (f :: payload).length ≠ 2) (s : State) :
    parseResponse req (f :: payload) s = .next (s.give (.error (.frameDecode .exceptionSize))) := by
  have size : payload.length ≠ 1 := fun e => h (congrArg Nat.succ e)
  exact parseResponse_of_frame_reject ((if_pos hf).trans (decodeException_of_length_ne f size)) (.inl hf) s

theorem responseReject_of_other (hb : hasExceptionBit f = false) (hf : f ≠ req.fc.code) (r : DecodeReject) :
    responseReject req (f :: payload) r = .fcMismatch := by
  cases r with
  | unknownFunction fc => rfl
  | frame cause => exact if_neg (by simp [hb, hf])

/-- What decodes from a first byte without bit 7 is a normal response. -/
theorem decodeResponse_normal {i : Instr} (hb : hasExceptionBit f = false) (h : decodeResponse (f :: payload) = .ok i)
    (function : BitVec 7) (code : Byte) : i ≠ .exceptionRsp function code := by
  rintro rfl
  cases encode_of_decodeResponse h
  cases (hasExceptionBit_exceptionByte function).symm.trans hb

/-- A first byte of another function, bit 7 clear, is an FcMismatch whether or not the PDU decodes (R291, R331). -/
theorem parseResponse_of_other (hb : hasExceptionBit f = false) (hf : f ≠ req.fc.code) (s : State) :
    ∃ held, parseResponse req (f :: payload) s =
      .next { s with out := .error (.frameDecode .fcMismatch), sent := held } := by
  cases h : decodeResponse (f :: payload) with
  | error r =>
    refine ⟨s.sent, ?_⟩
    simp only [parseResponse, h, responseReject_of_other hb hf]
    rfl
  | ok i =>
    have head : (encode i).head? ≠ some req.fc.code := by
      rw [encode_of_decodeResponse h]
      exact fun e => hf (Option.some.inj e)
    refine ⟨none, ?_⟩
    rw [parseResponse_of_decode s req h,
      exec_response_of_other (decodeResponse_direction h) (decodeResponse_normal hb h) rfl head]
    rfl

variable (s : State)

theorem parseResponse_readBits (bc : Byte) (data : Bytes) (h : req.fc = .readCoils ∨ req.fc = .readDiscreteInputs) :
    parseResponse req (req.fc.code :: bc :: data) s = .next { s with out := parseReadBits bc data req, sent := none } := by
  obtain h | h := h <;> exact parseResponse_own h rfl (fun _ => rfl) s

theorem parseResponse_readRegs (bc : Byte) (data : Bytes)
    (h : req.fc = .readHoldingRegisters ∨ req.fc = .readInputRegisters) :
    parseResponse req (req.fc.code :: bc :: data) s = .next { s with out := parseReadRegs bc data req, sent := none } := by
  obtain h | h := h <;> exact parseResponse_own h rfl (fun _ => rfl) s

theorem parseResponse_writeSingle (first second : U16)
    (h : req.fc = .writeSingleCoil ∨ req.fc = .writeSingleRegister) :
    parseResponse req (pairPdu req.fc first second) s =
      .next { s with out := parseWriteSingle first second req, sent := none } := by
  obtain h | h := h <;> exact parseResponse_ownPair h rfl (fun _ => rfl) s

theorem parseResponse_writeMultiple (first second : U16)
    (h : req.fc = .writeMultipleCoils ∨ req.fc = .writeMultipleRegisters) :
    parseResponse req (pairPdu req.fc first second) s =
      .next { s with out := parseWriteMultiple first second req, sent := none } := by
  obtain h | h := h <;> exact parseResponse_ownPair h rfl (fun _ => rfl) s

end parse

/-- Settles O28: one lemma for each way through ParseResponse, each naming the next state. -/
theorem parseResponseSelectsTheParser : Obligations.ParseResponseSelectsTheParser := by
  refine fun req s => ⟨rfl, fun f payload hb hf => ?_, fun f code hb => ?_, fun bc data => ⟨fun h => ?_, fun h => ?_⟩,
    fun first second => ⟨fun h => ?_, fun h => ?_⟩⟩
  · obtain ⟨held, parsed⟩ := parseResponse_of_other (payload := payload) (bne_eq_false_iff_eq.mpr hb) hf s
    exact ⟨_, parsed, rfl, rfl⟩
  · exact ⟨_, parseResponse_exception (bne_iff_ne.mpr hb) code s, rfl, rfl⟩
  · exact ⟨_, parseResponse_readBits s bc data h, rfl, rfl⟩
  · exact ⟨_, parseResponse_readRegs s bc data h, rfl, rfl⟩
  · exact ⟨_, parseResponse_writeSingle s first second h, rfl, rfl⟩
  · exact ⟨_, parseResponse_writeMultiple s first second h, rfl, rfl⟩

/-- Settles O27: the exception byte has bit 7 set, whatever the low seven. -/
theorem parseExceptionReportsTheCode : Obligations.ParseExceptionReportsTheCode := fun function code _ s =>
  have bit := hasExceptionBit_exceptionByte function
  ⟨rfl, parseResponse_exception bit code s, fun _ size => parseResponse_exceptionSize bit size s⟩

/-! ### The four parsers -/

/-- Settles O23: the three ends of `parseCounted`, and a payload with no byte count. -/
theorem parseReadBitsReturnsTheValues : Obligations.ParseReadBitsReturnsTheValues := by
  intro bc data req i s hi hs
  have run : exec i s = .next (s.give (parseReadBits bc data req)) := by
    obtain ⟨rfl, hf⟩ | ⟨rfl, hf⟩ := hi <;> exact parseAgainst_own hf hs
  have short : decodeResponsePayload req.fc [] = .error (.frame .pduSize) := by
    obtain ⟨-, hf⟩ | ⟨-, hf⟩ := hi <;> rw [hf] <;> rfl
  obtain ⟨values, size, count⟩ := counted_outcomes run
  exact ⟨values, size, count, parseResponse_pduSize short s⟩

/-- Settles O24: the three ends of `parseCounted`, and a payload with no byte count. -/
theorem parseReadRegsReturnsTheValues : Obligations.ParseReadRegsReturnsTheValues := by
  intro bc data req i s hi hs
  have run : exec i s = .next (s.give (parseReadRegs bc data req)) := by
    obtain ⟨rfl, hf⟩ | ⟨rfl, hf⟩ := hi <;> exact parseAgainst_own hf hs
  have short : decodeResponsePayload req.fc [] = .error (.frame .pduSize) := by
    obtain ⟨-, hf⟩ | ⟨-, hf⟩ := hi <;> rw [hf] <;> rfl
  obtain ⟨values, size, count⟩ := counted_outcomes run
  exact ⟨values, size, count, parseResponse_pduSize short s⟩

/-- Settles O25: the two ends of `parseEcho`, and a payload that is not two fields. -/
theorem parseWriteSingleChecksTheEcho : Obligations.ParseWriteSingleChecksTheEcho := by
  intro first second req i s hi hs
  have run : exec i s = .next (s.give (parseWriteSingle first second req)) := by
    obtain ⟨rfl, hf⟩ | ⟨rfl, hf⟩ := hi <;> exact parseAgainst_own hf hs
  obtain ⟨fields, mismatch⟩ := echo_outcomes run
  refine ⟨fields, mismatch, fun payload size => ?_⟩
  obtain ⟨-, hf⟩ | ⟨-, hf⟩ := hi <;> exact parseResponse_pair_of_length_ne hf rfl size s

/-- Settles O26: the two ends of `parseEcho`, and a payload that is not two fields. -/
theorem parseWriteMultipleChecksTheEcho : Obligations.ParseWriteMultipleChecksTheEcho := by
  intro first second req i s hi hs
  have run : exec i s = .next (s.give (parseWriteMultiple first second req)) := by
    obtain ⟨rfl, hf⟩ | ⟨rfl, hf⟩ := hi <;> exact parseAgainst_own hf hs
  obtain ⟨fields, mismatch⟩ := echo_outcomes run
  refine ⟨fields, mismatch, fun payload size => ?_⟩
  obtain ⟨-, hf⟩ | ⟨-, hf⟩ := hi <;> exact parseResponse_pair_of_length_ne hf rfl size s

/-! ### ReceiveResponse -/

/-- Settles O30: ReceiveResponse's two checks, in their order. -/
theorem receiveResponseChecksTheHeader : Obligations.ReceiveResponseChecksTheHeader := by
  refine fun bytes sentTid cfgUid => ⟨fun e hd => ?_, fun h pdu rest hd => ?_⟩
  · simp only [receiveResponse, hd]
  · simp only [receiveResponse, hd]
    refine ⟨fun tid => if_pos tid, fun tid uid => ?_, fun tid uid => ?_⟩
    · rw [if_neg (not_not.mpr tid), if_pos uid]
    · rw [if_neg (not_not.mpr tid), if_neg (not_not.mpr uid)]

/-! ### A whole exchange: the response -/

/-- The response PDU of a completed bit read of a file (R116). -/
def bitsPdu (req : SentRequest) (file : Table Bool) : Bytes :=
  req.fc.code :: BitVec.ofNat 8 (packedSize req.qty.toNat) ::
    packBits (fileReadAll Config.unlistedBit file req.addr.toNat req.qty.toNat)

/-- The response PDU of a completed register read of a file (R117). -/
def regsPdu (req : SentRequest) (file : Table U16) : Bytes :=
  req.fc.code :: BitVec.ofNat 8 (2 * req.qty.toNat) ::
    packRegs (fileReadAll Config.unlistedReg file req.addr.toNat req.qty.toNat)

/-- The response PDU of a request that the handler, in state `s`, completes (R116 to R119). -/
def responsePdu (req : SentRequest) (s : State) : Bytes :=
  match req.fc with
  | .readCoils => bitsPdu req s.coils
  | .readDiscreteInputs => bitsPdu req s.di
  | .readHoldingRegisters => regsPdu req s.hr
  | .readInputRegisters => regsPdu req s.ir
  | .writeSingleCoil | .writeSingleRegister => pairPdu req.fc req.addr req.wireValue
  | .writeMultipleCoils | .writeMultipleRegisters => pairPdu req.fc req.addr req.qty

theorem hasExceptionBit_responsePdu (req : SentRequest) (s : State) :
    hasExceptionBit ((responsePdu req s).headD 0) = false := by
  have head : (responsePdu req s).headD 0 = req.fc.code := by
    unfold responsePdu
    split <;> rfl
  rw [head, hasExceptionBit_code]

theorem hasExceptionBit_setExceptionBit (b : Byte) : hasExceptionBit (setExceptionBit b) = true := by
  revert b
  decide

section completed

variable {fc : FunctionCode} {addr qty : U16} {tail r : Bytes} {s t : State}

/-- An exception is not a response of its function. -/
theorem answerException_not_normal {code : Byte} : (s.answerException fc.code code).out ≠ .pdu (fc.code :: tail) := by
  intro e
  have byte : setExceptionBit fc.code = fc.code := (List.cons.inj (Output.pdu.inj e)).1
  have bit := hasExceptionBit_setExceptionBit fc.code
  rw [byte, hasExceptionBit_code] at bit
  cases bit

theorem handleReadBits_completed {sp : BitSpace} (h1 : 1 ≤ qty.toNat) (h2 : qty.toNat ≤ maxReadBits)
    (e : handleReadBits fc sp addr qty s = .next t) (ho : t.out = .pdu (fc.code :: tail)) :
    t.out = .pdu (bitsPdu ⟨fc, addr, qty, 0⟩ (s.bitFile sp)) := by
  rcases Nat.lt_or_ge (bitSize s.params sp) (addr.toNat + qty.toNat) with hb | hb
  · cases (handleReadBits_badAddr h1 h2 hb).symm.trans e
    exact absurd ho answerException_not_normal
  · cases (handleReadBits_ok h1 h2 hb).symm.trans e
    rfl

theorem handleReadRegs_completed {sp : RegSpace} (h1 : 1 ≤ qty.toNat) (h2 : qty.toNat ≤ maxReadRegs)
    (e : handleReadRegs fc sp addr qty s = .next t) (ho : t.out = .pdu (fc.code :: tail)) :
    t.out = .pdu (regsPdu ⟨fc, addr, qty, 0⟩ (s.regFile sp)) := by
  rcases Nat.lt_or_ge (regSize s.params sp) (addr.toNat + qty.toNat) with hb | hb
  · cases (handleReadRegs_badAddr h1 h2 hb).symm.trans e
    exact absurd ho answerException_not_normal
  · cases (handleReadRegs_ok h1 h2 hb).symm.trans e
    rfl

theorem finishWrite_completed {access : Access State} (e : finishWrite fc r s access = .next t)
    (ho : t.out = .pdu (fc.code :: tail)) : t.out = .pdu r := by
  cases access with
  | done u =>
    cases e
    rfl
  | addressError space a n =>
    cases e
    exact absurd ho answerException_not_normal
  | refuse => cases e

end completed

/-- What answers a built request with its own function code is `responsePdu`, in full. -/
theorem BuiltRequest.completed {req : SentRequest} {i : Instr} (h : BuiltRequest req i) {s t : State} {tail : Bytes}
    (e : exec i s = .next t) (ho : t.out = .pdu (req.fc.code :: tail)) : t.out = .pdu (responsePdu req s) := by
  cases h with
  | readCoils addr qty h1 h2 => exact handleReadBits_completed (fc := .readCoils) (sp := .coils) h1 h2 e ho
  | readDiscreteInputs addr qty h1 h2 => exact handleReadBits_completed (fc := .readDiscreteInputs) (sp := .di) h1 h2 e ho
  | readHoldingRegisters addr qty h1 h2 =>
    exact handleReadRegs_completed (fc := .readHoldingRegisters) (sp := .hr) h1 h2 e ho
  | readInputRegisters addr qty h1 h2 =>
    exact handleReadRegs_completed (fc := .readInputRegisters) (sp := .ir) h1 h2 e ho
  | writeSingleCoil addr value =>
    cases hv : coilValue s.params.wscOther value with
    | none =>
      cases (exec_writeSingleCoil_badValue hv).symm.trans e
      exact absurd ho answerException_not_normal
    | some b =>
      simp only [exec, execWriteSingleCoilReq, hv] at e
      exact finishWrite_completed e ho
  | writeSingleRegister addr value => exact finishWrite_completed e ho
  | writeMultipleCoils addr qty bc data h1 h2 hbc hd =>
    exact finishWrite_completed ((if_neg (not_operandsIllegal h1 h2 hbc hd)).symm.trans e) ho
  | writeMultipleRegisters addr qty bc data h1 h2 hbc hd =>
    exact finishWrite_completed ((if_neg (not_operandsIllegal h1 h2 hbc hd)).symm.trans e) ho

/-- A built request is answered by its exception PDU or by its full response. -/
theorem BuiltRequest.answered {req : SentRequest} {i : Instr} (h : BuiltRequest req i) (s : State) :
    ∃ t r, exec i s = .next t ∧ t.out = .pdu r ∧
      ((∃ code, r = exceptionPdu req.fc.code code) ∨ r = responsePdu req s) := by
  obtain ⟨t, tail, e, ho⟩ | ⟨-, e⟩ | ⟨-, -, e⟩ := h.exec_cases s
  · exact ⟨t, _, e, h.completed e ho, .inr rfl⟩
  · exact ⟨_, _, e, rfl, .inl ⟨_, rfl⟩⟩
  · exact ⟨_, _, e, rfl, .inl ⟨_, rfl⟩⟩

/-! ### A whole exchange: the parser -/

/-- What the caller is given for a completed request: a read's values as they were in `s`, a write's two fields. -/
def exchangeOutput (req : SentRequest) (s : State) : Output :=
  match req.fc with
  | .readCoils => .bits (fileReadAll Config.unlistedBit s.coils req.addr.toNat req.qty.toNat)
  | .readDiscreteInputs => .bits (fileReadAll Config.unlistedBit s.di req.addr.toNat req.qty.toNat)
  | .readHoldingRegisters => .regs (fileReadAll Config.unlistedReg s.hr req.addr.toNat req.qty.toNat)
  | .readInputRegisters => .regs (fileReadAll Config.unlistedReg s.ir req.addr.toNat req.qty.toNat)
  | .writeSingleCoil | .writeSingleRegister => .fields req.addr req.wireValue
  | .writeMultipleCoils | .writeMultipleRegisters => .fields req.addr req.qty

section roundTrip

variable {req : SentRequest} (t : State)

/-- Bits that were packed for the quantity asked for are parsed back (R301). -/
theorem parseReadBits_packBits {vals : List Bool} (hl : vals.length = req.qty.toNat) (hq : req.qty.toNat ≤ maxReadBits) :
    parseReadBits (BitVec.ofNat 8 (packedSize req.qty.toNat)) (packBits vals) req = .bits vals := by
  have limit : req.qty.toNat ≤ 2000 := hq
  have count : (BitVec.ofNat 8 (packedSize req.qty.toNat)).toNat = packedSize req.qty.toNat :=
    Nat.mod_eq_of_lt (by rw [packedSize]; omega)
  rw [parseReadBits, parseCounted_values (by rw [packBits_length, hl, count]) count, ← hl, unpackBits_packBits]

/-- Registers that were packed for the quantity asked for are parsed back (R302). -/
theorem parseReadRegs_packRegs {vals : List U16} (hl : vals.length = req.qty.toNat) (hq : req.qty.toNat ≤ maxReadRegs) :
    parseReadRegs (BitVec.ofNat 8 (2 * req.qty.toNat)) (packRegs vals) req = .regs vals := by
  have limit : req.qty.toNat ≤ 125 := hq
  have count : (BitVec.ofNat 8 (2 * req.qty.toNat)).toNat = 2 * req.qty.toNat := Nat.mod_eq_of_lt (by omega)
  rw [parseReadRegs, parseCounted_values (by rw [packRegs_length, hl, count]) count, ← hl, unpackRegs_packRegs]

theorem parseResponse_bitsPdu (hf : req.fc = .readCoils ∨ req.fc = .readDiscreteInputs)
    (hq : req.qty.toNat ≤ maxReadBits) (file : Table Bool) :
    parseResponse req (bitsPdu req file) t =
      .next { t with out := .bits (fileReadAll Config.unlistedBit file req.addr.toNat req.qty.toNat), sent := none } := by
  rw [bitsPdu, parseResponse_readBits t _ _ hf, parseReadBits_packBits (fileReadAll_length ..) hq]

theorem parseResponse_regsPdu (hf : req.fc = .readHoldingRegisters ∨ req.fc = .readInputRegisters)
    (hq : req.qty.toNat ≤ maxReadRegs) (file : Table U16) :
    parseResponse req (regsPdu req file) t =
      .next { t with out := .regs (fileReadAll Config.unlistedReg file req.addr.toNat req.qty.toNat), sent := none } := by
  rw [regsPdu, parseResponse_readRegs t _ _ hf, parseReadRegs_packRegs (fileReadAll_length ..) hq]

theorem parseResponse_singleEcho (hf : req.fc = .writeSingleCoil ∨ req.fc = .writeSingleRegister) :
    parseResponse req (pairPdu req.fc req.addr req.wireValue) t =
      .next { t with out := .fields req.addr req.wireValue, sent := none } := by
  rw [parseResponse_writeSingle t _ _ hf, parseWriteSingle, parseEcho_same rfl rfl]

theorem parseResponse_multipleEcho (hf : req.fc = .writeMultipleCoils ∨ req.fc = .writeMultipleRegisters) :
    parseResponse req (pairPdu req.fc req.addr req.qty) t =
      .next { t with out := .fields req.addr req.qty, sent := none } := by
  rw [parseResponse_writeMultiple t _ _ hf, parseWriteMultiple, parseEcho_same rfl rfl]

end roundTrip

/-- The full response of a built request is parsed to the values read or the fields sent, in any state. -/
theorem BuiltRequest.parseResponse_responsePdu {req : SentRequest} {i : Instr} (h : BuiltRequest req i) (s t : State) :
    parseResponse req (responsePdu req s) t = .next { t with out := exchangeOutput req s, sent := none } := by
  cases h with
  | readCoils addr qty h1 h2 => exact parseResponse_bitsPdu t (.inl rfl) h2 s.coils
  | readDiscreteInputs addr qty h1 h2 => exact parseResponse_bitsPdu t (.inr rfl) h2 s.di
  | readHoldingRegisters addr qty h1 h2 => exact parseResponse_regsPdu t (.inl rfl) h2 s.hr
  | readInputRegisters addr qty h1 h2 => exact parseResponse_regsPdu t (.inr rfl) h2 s.ir
  | writeSingleCoil addr value => exact parseResponse_singleEcho t (.inl rfl)
  | writeSingleRegister addr value => exact parseResponse_singleEcho t (.inr rfl)
  | writeMultipleCoils addr qty bc data => exact parseResponse_multipleEcho t (.inl rfl)
  | writeMultipleRegisters addr qty bc data => exact parseResponse_multipleEcho t (.inr rfl)

/-- Settles O36: the two answers of a built request (`BuiltRequest.answered`), each as its parser reads it. -/
theorem wholeExchangeRoundTrip : Obligations.WholeExchangeRoundTrip := by
  intro call pdu s h
  obtain ⟨i, built, rfl⟩ := buildRequest_ok h
  rw [handleRequest_encode built.direction]
  obtain ⟨t, r, e, ho, ⟨code, rfl⟩ | rfl⟩ := built.answered s
  · exact ⟨t, _, _, e, ho, parseResponse_exception (hasExceptionBit_setExceptionBit _) code t, .inl ⟨code, rfl, rfl⟩⟩
  · refine ⟨t, _, _, e, ho, built.parseResponse_responsePdu s t, .inr ⟨hasExceptionBit_responsePdu _ s, ?_⟩⟩
    unfold exchangeOutput
    cases (sentRequest call).fc <;> rfl

end Sys2Proof.Machine

/-!
PROOFS. Faults and isolation (spec 60_exceptions.md R330, R340, R351): the order in which a frame's faults end a ServerStep,
what a step that writes can hand back, and what one agent's turn leaves of the other connections.
-/

namespace Sys2Proof.Machine

open Sys2Proof

/-! ### The faults of a frame -/

section frameFaults

variable {tid pid len : U16} {uid : Byte} {body : Bytes}

/-- The fault of a header is the frame's, whatever follows it (R155). -/
theorem decodeFrame_headerBytes_error {e : CodecError} (h : checkHeader ⟨tid, pid, len, uid⟩ = .error e) :
    decodeFrame (headerBytes tid pid len uid ++ body) = .error e := by
  refine decodeFrame_of_header_error (by simp) ?_
  rw [List.take_left' (headerBytes_length ..), decodeMBAP_headerBytes, h]

/-- An accepted header before fewer bytes than it gives (R155). -/
theorem decodeFrame_headerBytes_short (h : checkHeader ⟨tid, pid, len, uid⟩ = .ok ⟨tid, pid, len, uid⟩)
    (short : body.length < len.toNat - 1) :
    decodeFrame (headerBytes tid pid len uid ++ body) = .error (.frameDecode .truncated) := by
  refine decodeFrame_of_short_body (h := ⟨tid, pid, len, uid⟩) (by simp) ?_ (by simpa using short)
  rw [List.take_left' (headerBytes_length ..), decodeMBAP_headerBytes, h]

/-- An accepted header cuts the bytes after it where its length field says (R155). -/
theorem decodeFrame_headerBytes_ok (h : checkHeader ⟨tid, pid, len, uid⟩ = .ok ⟨tid, pid, len, uid⟩)
    (enough : len.toNat - 1 ≤ body.length) :
    decodeFrame (headerBytes tid pid len uid ++ body) =
      .ok (⟨tid, pid, len, uid⟩, body.take (len.toNat - 1), body.drop (len.toNat - 1)) := by
  have cut := decodeFrame_append (rest := body.drop (len.toNat - 1)) ((decodeMBAP_headerBytes tid pid len uid).trans h)
    rfl (List.length_take_of_le enough)
  rwa [List.append_assoc, List.take_append_drop] at cut

end frameFaults

/-- A frame around a PDU that is no request for its size alone is fatal, and an agent that holds no response drops none
(R178, R341). -/
theorem serverStep_pduError {s : State} {c : Nat} {received pdu tail : Bytes} {h : Header} {cause : DecodeCause}
    (hc : Table.get? s.conns c = some received) (hw : c ∉ s.awaiting) (hf : decodeFrame received = .ok (h, pdu, tail))
    (hd : decodeRequest pdu = .error (.frame cause)) :
    serverStep c s = .next { s with
      conns := Table.erase (Table.insert s.conns c tail) c, out := .fatal c (.frameDecode cause) } := by
  rw [serverStep_frame hc hf, handleRequest_of_frame_reject hd, mapNext, concludeServe_fatal c h rfl]
  simp only [State.fatalOn, State.dropConn, State.give, State.fatalCall, State.setReceived,
    State.held_filter_of_not_awaiting hw]

/-- Settles O48: items 1 to 4 are errors of `decodeFrame`, in the order of its checks; at item 6 the frame decodes and its
PDU does not. -/
theorem frameFaultsAreReportedInOrder : Obligations.FrameFaultsAreReportedInOrder := by
  intro s c received rest hin hw hc
  rw [step_serve hin hw]
  have ends : ∀ {e}, decodeFrame received = .error e → serverStep c { s with inbox := rest } =
      .next { s with inbox := rest, conns := Table.erase s.conns c, out := .fatal c e } :=
    serverStep_frameError (s := { s with inbox := rest }) hc hw
  refine ⟨fun hs => ends (decodeFrame_of_short hs), fun tid pid len uid body hr => ?_⟩
  rw [← headerBytes] at hr
  subst hr
  refine ⟨fun hp => ends (decodeFrame_headerBytes_error (checkHeader_bad_protocol hp)),
    fun hp hl => ends (decodeFrame_headerBytes_error (checkHeader_bad_length hp hl)),
    fun hp h3 h256 hb => ends (decodeFrame_headerBytes_short (checkHeader_accepts hp h3 h256) hb),
    fun hp h3 h256 hb cause hd => ?_⟩
  have whole := decodeFrame_headerBytes_ok (uid := uid) (tid := tid) (checkHeader_accepts hp h3 h256) hb
  exact ⟨_, serverStep_pduError (s := { s with inbox := rest }) hc hw whole hd, rfl, Table.get?_erase_same .., rfl⟩

/-! ### What an operation that writes hands back -/

/-- The four register files of two states are the same. -/
def SameFiles (s t : State) : Prop := t.coils = s.coils ∧ t.di = s.di ∧ t.hr = s.hr ∧ t.ir = s.ir

/-- What an operation that has written can hand back: the device side's ok, the five bytes of a write function's response
(R118, R119), these in a frame, or nothing, where the response is held (R366). -/
inductive WriteResult : Output → Prop where
  | ok : WriteResult .ok
  | pdu {r : Bytes} (h : r.length = 5) : WriteResult (.pdu r)
  | response {c : Nat} {frame : Bytes} (h : frame.length = 12) : WriteResult (.response c frame)
  | held : WriteResult .none

/-- An outcome's next state, if it is one, has the files as before or the result of a write. -/
def WritesOnSuccess (s : State) (r : StepResult) : Prop := ∀ t, r = .next t → SameFiles s t ∨ WriteResult t.out

theorem WritesOnSuccess.same {s t : State} (h : SameFiles s t) : WritesOnSuccess s (.next t) := fun _ e => by
  cases e
  exact .inl h

theorem WritesOnSuccess.wrote {s t : State} (h : WriteResult t.out) : WritesOnSuccess s (.next t) := fun _ e => by
  cases e
  exact .inr h

theorem WritesOnSuccess.refused {s : State} (r : Refusal) : WritesOnSuccess s (.refused r) := fun _ e => nomatch e

/-- A result alone. -/
theorem WritesOnSuccess.give (s : State) (o : Output) : WritesOnSuccess s (.next (s.give o)) :=
  .same ⟨rfl, rfl, rfl, rfl⟩

/-- A request's meaning that writes answers with five bytes. -/
theorem RequestEffect.sameFiles_or_pdu {fc : Byte} {s t : State} (h : RequestEffect fc s t) :
    SameFiles s t ∨ ∃ r, t.out = .pdu r ∧ r.length = 5 := by
  cases h with
  | answer r => exact .inl ⟨rfl, rfl, rfl, rfl⟩
  | writeCoils r h | writeHr r h => exact .inr ⟨r, rfl, h.2⟩

/-- HandleRequest writes only where it answers with five bytes: never where it is fatal or answers an exception (R340). -/
theorem handleRequest_sameFiles_or_pdu {pdu : Bytes} {s t : State} (h : handleRequest pdu s = .next t) :
    SameFiles s t ∨ ∃ r, t.out = .pdu r ∧ r.length = 5 := by
  obtain ⟨cause, -, e⟩ | ⟨fc, -, -, e⟩ | ⟨i, fc, u, -, -, -, e, -, hx⟩ := handleRequest_cases pdu s <;>
    cases e.symm.trans h
  · exact .inl ⟨rfl, rfl, rfl, rfl⟩
  · exact .inl ⟨rfl, rfl, rfl, rfl⟩
  · exact hx.sameFiles_or_pdu

theorem handleRequest_writesOnSuccess (pdu : Bytes) (s : State) : WritesOnSuccess s (handleRequest pdu s) := fun _ h =>
  (handleRequest_sameFiles_or_pdu h).imp_right fun ⟨_, ho, h5⟩ => ho ▸ .pdu h5

theorem serverStep_writesOnSuccess (c : Nat) (s : State) : WritesOnSuccess s (serverStep c s) := by
  obtain ⟨-, e⟩ | ⟨_, _, -, -, e⟩ | ⟨_, _, _, _, _, -, -, -, e⟩ | ⟨_, _, pdu, rest, t, r, -, -, ht, ho, -, -, e⟩ :=
    serverStep_cases c s <;> rw [e]
  · exact .give s _
  · exact .same ⟨rfl, rfl, rfl, rfl⟩
  · exact .same ⟨rfl, rfl, rfl, rfl⟩
  · obtain same | ⟨r', ho', h5⟩ := handleRequest_sameFiles_or_pdu ht
    · exact .same same
    · cases ho.symm.trans ho'
      exact .wrote (.response (by simp [h5]))

theorem serveConn_writesOnSuccess (c : Nat) (s : State) : WritesOnSuccess s (serveConn c s) := by
  by_cases h : c ∈ s.awaiting
  · exact serveConn_busy h ▸ .give s _
  · exact serveConn_free h ▸ serverStep_writesOnSuccess c s

theorem holdResponse_writesOnSuccess {s : State} {r : StepResult} (h : WritesOnSuccess s r) :
    WritesOnSuccess s (holdResponse r) := by
  cases r with
  | next t =>
    obtain ⟨-, e⟩ | ⟨x, -, e⟩ := t.hold_cases <;> rw [holdResponse_next, e]
    · exact h
    · exact .wrote .held
  | fault r => nomatch r
  | refused r => exact .refused r

theorem finishRead_writesOnSuccess {β : Type} (f : β → Output) (s : State) (r : Access β) :
    WritesOnSuccess s (finishRead f s r) := by
  cases r with
  | done vals => exact .give s _
  | addressError space addr count => exact .give s _
  | refuse => exact .refused _

theorem finishStore_writesOnSuccess (s : State) (r : Access State) : WritesOnSuccess s (finishStore s r) := by
  cases r with
  | done t => exact .wrote .ok
  | addressError space addr count => exact .give s _
  | refuse => exact .refused _

theorem acceptConn_writesOnSuccess (c : Nat) (s : State) : WritesOnSuccess s (acceptConn c s) := by
  unfold acceptConn
  split_ifs
  · exact .refused _
  · exact .same ⟨rfl, rfl, rfl, rfl⟩
  · exact .refused _

theorem deliverBytes_sameFiles (c : Nat) (bytes : Bytes) (s : State) : SameFiles s (deliverBytes c bytes s) := by
  unfold deliverBytes
  split <;> exact ⟨rfl, rfl, rfl, rfl⟩

theorem parseResponse_writesOnSuccess (req : SentRequest) (pdu : Bytes) (s : State) :
    WritesOnSuccess s (parseResponse req pdu s) := by
  obtain ⟨t, e, ht, -⟩ := parseResponse_next req pdu s
  rw [e, ht]
  exact .same ⟨rfl, rfl, rfl, rfl⟩

theorem perform_writesOnSuccess (a : Action) (s : State) : WritesOnSuccess s (perform a s) := by
  cases a with
  | accept c => exact acceptConn_writesOnSuccess c s
  | close c => exact .same ⟨rfl, rfl, rfl, rfl⟩
  | deliver c bytes => exact .same (deliverBytes_sameFiles c bytes s)
  | serve c => exact serveConn_writesOnSuccess c s
  | serveHeld c => exact holdResponse_writesOnSuccess (serveConn_writesOnSuccess c s)
  | handleRequest pdu => exact handleRequest_writesOnSuccess pdu s
  | handleRequestHeld pdu => exact holdResponse_writesOnSuccess (handleRequest_writesOnSuccess pdu s)
  | handBack k => exact .same ⟨s.handBack_coils k, s.handBack_di k, s.handBack_hr k, s.handBack_ir k⟩
  | readBits sp addr count => exact finishRead_writesOnSuccess .bits s _
  | readRegs sp addr count => exact finishRead_writesOnSuccess .regs s _
  | writeBits sp addr vals => exact finishStore_writesOnSuccess s _
  | writeRegs sp addr vals => exact finishStore_writesOnSuccess s _
  | build call => exact .give s _
  | buildFrame tid uid pdu => exact .give s _
  | receive bytes sentTid cfgUid => exact .give s _
  | parse req pdu => exact parseResponse_writesOnSuccess req pdu s
  | codec call => exact .give s _

/-- Every step has the files as before or the result of a write. -/
theorem step_sameFiles_or_writeResult {s t : State} {a : Action} {rest : List Action} (h : s.inbox = a :: rest)
    (ht : step s = .next t) : SameFiles s t ∨ WriteResult t.out :=
  perform_writesOnSuccess a { s with inbox := rest } t ((step_cons h).symm.trans ht)

/-- Settles O53: no result of a write (`WriteResult`) is an error or fatal, and none has the two bytes of an exception PDU. -/
theorem errorsWriteNothing : Obligations.ErrorsWriteNothing := by
  intro s t a rest h ht ended
  obtain same | wrote := step_sameFiles_or_writeResult h ht
  · exact same
  · exfalso
    obtain ⟨e, ho⟩ | ⟨e, ho⟩ | ⟨c, e, ho⟩ | ⟨f, e, ho, -⟩ | ⟨c, header, f, e, ho, h7, -⟩ := ended <;>
      rw [ho] at wrote
    · cases wrote
    · cases wrote
    · cases wrote
    · cases wrote with
      | pdu h5 => simp at h5
    · cases wrote with
      | response h12 => simp [h7] at h12

/-! ### The other connections -/

/-- What a turn of a connection's agent leaves of the other connections: their bytes and the responses their agents hold.
A response frame that it ends in is its own. -/
structure TurnOf (c : Nat) (s t : State) : Prop where
  bytes : ∀ d, d ≠ c → Table.get? t.conns d = Table.get? s.conns d
  held : ∀ d, d ≠ c → t.held.filter (fun x => x.conn? == some d) = s.held.filter (fun x => x.conn? == some d)
  own : ∀ d frame, t.out = .response d frame → d = c

section turns

variable {c : Nat} {s t : State}

/-- A turn that hands back nothing. -/
theorem turnOf_none (c : Nat) (s : State) : TurnOf c s (s.give .none) := ⟨fun _ _ => rfl, fun _ _ => rfl, nofun⟩

/-- The responses of the other agents outlast the end of a connection. -/
theorem dropConn_held_other {d : Nat} (h : d ≠ c) :
    (s.dropConn c).held.filter (fun x => x.conn? == some d) = s.held.filter (fun x => x.conn? == some d) := by
  rw [State.dropConn_held, List.filter_filter]
  refine List.filter_congr fun x _ => ?_
  by_cases hx : x.conn? = some d <;> simp [hx, h]

/-- A fatal end closes its own connection: what was kept of the others stays (R176). -/
theorem turnOf_fatalOn (hb : ∀ d, d ≠ c → Table.get? t.conns d = Table.get? s.conns d) (hh : t.held = s.held)
    (e : CodecError) : TurnOf c s (t.fatalOn c e) where
  bytes d hd := (Table.get?_erase_other t.conns hd).trans (hb d hd)
  held _ hd := hh ▸ dropConn_held_other (s := t) hd
  own := nofun

theorem serverStep_turnOf (h : serverStep c s = .next t) : TurnOf c s t := by
  have taken : ∀ (rest : Bytes) (d : Nat), d ≠ c → Table.get? (s.setReceived c rest).conns d = Table.get? s.conns d :=
    fun rest d => Table.get?_insert_other s.conns rest
  obtain ⟨-, e⟩ | ⟨_, err, -, -, e⟩ | ⟨_, _, _, rest, cause, -, -, -, e⟩ |
    ⟨_, _, pdu, rest, u, _, -, -, hu, -, -, -, e⟩ := serverStep_cases c s <;> cases e.symm.trans h
  · exact turnOf_none c s
  · exact turnOf_fatalOn (fun _ _ => rfl) rfl err
  · exact turnOf_fatalOn (taken rest) rfl (.frameDecode cause)
  · obtain ⟨u', e', -, -, -, hconns, hheld, -⟩ := handleRequest_next pdu (s.setReceived c rest)
    cases e'.symm.trans hu
    refine ⟨fun d hd => hconns ▸ taken rest d hd, fun d _ => congrArg (List.filter _) hheld, fun d frame ho => ?_⟩
    cases ho
    rfl

theorem serveConn_turnOf (h : serveConn c s = .next t) : TurnOf c s t := by
  by_cases hw : c ∈ s.awaiting
  · cases (serveConn_busy hw).symm.trans h
    exact turnOf_none c s
  · exact serverStep_turnOf ((serveConn_free hw).symm.trans h)

/-- The response that a turn holds is its own agent's. -/
theorem TurnOf.hold (h : TurnOf c s t) : TurnOf c s t.hold := by
  obtain ⟨-, e⟩ | ⟨x, ho, e⟩ := t.hold_cases <;> rw [e]
  · exact h
  · refine ⟨h.bytes, fun d hd => ?_, nofun⟩
    have notTheirs : x.conn? ≠ some d := by
      cases x with
      | pdu p => exact nofun
      | response b frame =>
        cases h.own b frame ho
        exact fun e => hd (Option.some.inj e).symm
    simpa [List.filter_append, notTheirs] using h.held d hd

end turns

/-- Settles O49: a turn keeps the other connections (`serveConn_turnOf`, `TurnOf.hold`), and a fatal end is no result of
a write. -/
theorem otherConnectionsAreNotAffected : Obligations.OtherConnectionsAreNotAffected := by
  intro s t c d rest hin ht hd
  have turn : TurnOf c { s with inbox := rest } t := by
    obtain h | h := hin <;> rw [step_cons h] at ht
    · exact serveConn_turnOf ht
    · obtain ⟨u, hu⟩ := serveConn_next c { s with inbox := rest }
      cases (congrArg holdResponse hu).symm.trans ht
      exact (serveConn_turnOf hu).hold
  have files : SameFiles s t ∨ WriteResult t.out :=
    hin.elim (step_sameFiles_or_writeResult · ht) (step_sameFiles_or_writeResult · ht)
  refine ⟨turn.bytes d hd, turn.held d hd, fun e ho => files.resolve_right fun wrote => ?_⟩
  rw [ho] at wrote
  cases wrote

end Sys2Proof.Machine

/-!
PROOFS. Termination and connections (spec 70_reset_and_hazards.md R362, R369): each action has a next state but for the
refusals named here, and what opening, feeding, closing and a turn passed over do to a connection.
-/

namespace Sys2Proof.Machine

open Sys2Proof

/-! ### Opening a connection -/

/-- A connection is opened where its id is free and a further agent may exist (R350, R362). -/
theorem acceptConn_opens {c : Nat} {s : State} (hc : Table.get? s.conns c = none) (hf : AgentFree s) :
    acceptConn c s = .next ((s.setReceived c []).give .none) := by
  simp [acceptConn, hc, if_pos hf]

theorem acceptConn_inUse {c : Nat} {s : State} (hc : Table.get? s.conns c ≠ none) :
    acceptConn c s = .refused .connectionInUse := by
  simp only [acceptConn, if_pos (Option.isSome_iff_ne_none.mpr hc)]

theorem acceptConn_atLimit {c : Nat} {s : State} (hc : Table.get? s.conns c = none) (hf : ¬ AgentFree s) :
    acceptConn c s = .refused .agentLimit := by
  simp [acceptConn, hc, if_neg hf]

/-- Where no further agent may exist, a bound is set and reached. -/
theorem exists_limit_of_not_agentFree {s : State} (h : ¬ AgentFree s) :
    ∃ n, s.params.nAgents = some n ∧ n ≤ s.conns.length := by
  simpa [AgentFree] using h

/-! ### Every action ends, or is refused by name -/

/-- A device access of no entry (R70, R80). -/
inductive EmptyAccess : Action → Prop where
  | readBits (sp : BitSpace) (a : Int) {n : Int} (h : n < 1) : EmptyAccess (.readBits sp a n)
  | readRegs (sp : RegSpace) (a : Int) {n : Int} (h : n < 1) : EmptyAccess (.readRegs sp a n)
  | writeBits (sp : BitSpace) (a : Int) : EmptyAccess (.writeBits sp a [])
  | writeRegs (sp : RegSpace) (a : Int) : EmptyAccess (.writeRegs sp a [])

/-- What an action can end in: a next state, or a refusal by name of an access of no entry or of an accept beyond its
bounds (log entry 7). -/
inductive EndsByName (s : State) : Action → StepResult → Prop where
  | next {a : Action} (t : State) : EndsByName s a (.next t)
  | emptyAccess {a : Action} (h : EmptyAccess a) : EndsByName s a (.refused .emptyAccess)
  | connectionInUse {c : Nat} (h : Table.get? s.conns c ≠ none) :
      EndsByName s (.accept c) (.refused .connectionInUse)
  | agentLimit (c : Nat) {n : Nat} (hn : s.params.nAgents = some n) (h : n ≤ s.conns.length) :
      EndsByName s (.accept c) (.refused .agentLimit)

theorem acceptConn_endsByName (c : Nat) (s : State) : EndsByName s (.accept c) (acceptConn c s) := by
  by_cases hc : Table.get? s.conns c = none
  · by_cases hf : AgentFree s
    · exact acceptConn_opens hc hf ▸ .next _
    · obtain ⟨n, hn, h⟩ := exists_limit_of_not_agentFree hf
      exact acceptConn_atLimit hc hf ▸ .agentLimit c hn h
  · exact acceptConn_inUse hc ▸ .connectionInUse hc

/-- A MemRead is refused for a count below 1 alone. -/
theorem finishRead_endsByName {α : Type} {f : List α → Output} {unlisted : α} {space : Space} {size : Nat} {t : Table α}
    {i n : Int} {s : State} {a : Action} (h : n < 1 → EmptyAccess a) :
    EndsByName s a (finishRead f s (memRead unlisted space size t i n)) := by
  by_cases hn : n < 1
  · exact finishRead_empty hn ▸ .emptyAccess (h hn)
  · by_cases hb : InBounds size i n
    · exact finishRead_inBounds hb ▸ .next _
    · rw [memRead_outOfBounds unlisted (not_lt.mp hn) hb]
      exact .next _

theorem storeBits_endsByName (sp : BitSpace) (i : Int) (vals : List Bool) (s : State) :
    EndsByName s (.writeBits sp i vals) (finishStore s (s.memWriteBits sp i vals)) := by
  obtain ⟨rfl, e⟩ | ⟨-, -, e⟩ | ⟨-, e⟩ := memWriteBits_cases s sp i vals <;> rw [e]
  · exact .emptyAccess (.writeBits sp i)
  · exact .next _
  · exact .next _

theorem storeRegs_endsByName (sp : RegSpace) (i : Int) (vals : List U16) (s : State) :
    EndsByName s (.writeRegs sp i vals) (finishStore s (s.memWriteRegs sp i vals)) := by
  obtain ⟨rfl, e⟩ | ⟨-, -, e⟩ | ⟨-, e⟩ := memWriteRegs_cases s sp i vals <;> rw [e]
  · exact .emptyAccess (.writeRegs sp i)
  · exact .next _
  · exact .next _

theorem EndsByName.of_next {s : State} {a : Action} {r : StepResult} (h : ∃ t, r = .next t) : EndsByName s a r := by
  obtain ⟨t, rfl⟩ := h
  exact .next t

theorem holdResponse_exists_next {r : StepResult} (h : ∃ t, r = .next t) : ∃ t, holdResponse r = .next t := by
  obtain ⟨t, rfl⟩ := h
  exact ⟨_, holdResponse_next⟩

theorem handleRequest_exists_next (pdu : Bytes) (s : State) : ∃ t, handleRequest pdu s = .next t :=
  (handleRequest_next pdu s).imp fun _ => And.left

/-- Every action has a next state but for the named refusals (R369). -/
theorem perform_endsByName (a : Action) (s : State) : EndsByName s a (perform a s) := by
  cases a with
  | accept c => exact acceptConn_endsByName c s
  | close c => exact .next _
  | deliver c bytes => exact .next _
  | serve c => exact .of_next (serveConn_next c s)
  | serveHeld c => exact .of_next (holdResponse_exists_next (serveConn_next c s))
  | handleRequest pdu => exact .of_next (handleRequest_exists_next pdu s)
  | handleRequestHeld pdu => exact .of_next (holdResponse_exists_next (handleRequest_exists_next pdu s))
  | handBack k => exact .next _
  | readBits sp i n => exact finishRead_endsByName (.readBits sp i)
  | readRegs sp i n => exact finishRead_endsByName (.readRegs sp i)
  | writeBits sp i vals => exact storeBits_endsByName sp i vals s
  | writeRegs sp i vals => exact storeRegs_endsByName sp i vals s
  | build call => exact .next _
  | buildFrame tid uid pdu => exact .next _
  | receive bytes sentTid cfgUid => exact .next _
  | parse req pdu => exact .of_next ((parseResponse_next req pdu s).imp fun _ => And.left)
  | codec call => exact .next _

/-- Settles O60: with no action the state stands, and an action ends in one of the ways of `EndsByName`. -/
theorem stepRefusesOnlyByName : Obligations.StepRefusesOnlyByName := by
  intro s
  cases hin : s.inbox with
  | nil => exact .inl ⟨s, step_nil hin⟩
  | cons a rest =>
    have ends := perform_endsByName a { s with inbox := rest }
    rw [← step_cons hin] at ends
    generalize step s = r at ends ⊢
    cases ends with
    | next t => exact .inl ⟨t, rfl⟩
    | emptyAccess h =>
      refine .inr (.inl ⟨rfl, rest, ?_⟩)
      cases h with
      | readBits sp i h => exact .inl ⟨sp, i, _, rfl, h⟩
      | readRegs sp i h => exact .inr (.inl ⟨sp, i, _, rfl, h⟩)
      | writeBits sp i => exact .inr (.inr (.inl ⟨sp, i, rfl⟩))
      | writeRegs sp i => exact .inr (.inr (.inr ⟨sp, i, rfl⟩))
    | connectionInUse h => exact .inr (.inr ⟨_, rest, rfl, .inl ⟨rfl, h⟩⟩)
    | agentLimit c hn h => exact .inr (.inr ⟨c, rest, rfl, .inr ⟨rfl, _, hn, h⟩⟩)

/-! ### Feeding and closing a connection, and what is passed over -/

theorem perform_deliver_open {c : Nat} {s : State} {received : Bytes} (bytes : Bytes)
    (hc : Table.get? s.conns c = some received) :
    perform (.deliver c bytes) s = .next ((s.setReceived c (received ++ bytes)).give .none) := by
  simp only [perform, deliverBytes, hc]

/-- Bytes for a connection that is not open are passed over (log entry 11). -/
theorem perform_deliver_notOpen {c : Nat} {s : State} (bytes : Bytes) (hc : Table.get? s.conns c = none) :
    perform (.deliver c bytes) s = .next (s.give .none) := by
  simp only [perform, deliverBytes, hc]

/-- A connection that is not open, and whose agent holds nothing, has nothing to lose by its end. -/
theorem perform_close_notOpen {c : Nat} {s : State} (hc : Table.get? s.conns c = none) (hw : c ∉ s.awaiting) :
    perform (.close c) s = .next (s.give .none) := by
  simp only [perform, closeConn, State.dropConn, Table.erase_of_get?_none hc, State.held_filter_of_not_awaiting hw]

/-- Handing back at a place where nothing is held is passed over (log entry 19). -/
theorem perform_handBack_notHeld {k : Nat} {s : State} (hk : s.held.length ≤ k) :
    perform (.handBack k) s = .next (s.give .none) := by
  simp only [perform, State.handBack_none (List.getElem?_eq_none hk)]

/-- A turn on a connection that is not open is passed over, whether its agent waits or not (log entry 11). -/
theorem serveConn_notOpen {c : Nat} {s : State} (hc : Table.get? s.conns c = none) :
    serveConn c s = .next (s.give .none) := by
  by_cases hw : c ∈ s.awaiting
  · exact serveConn_busy hw
  · rw [serveConn_free hw, serverStep, hc]

/-- A turn that is passed over has no effect: it gives no response that could be held. -/
theorem step_passedTurn {s : State} {c : Nat} {rest : List Action}
    (hin : s.inbox = .serve c :: rest ∨ s.inbox = .serveHeld c :: rest)
    (h : serveConn c { s with inbox := rest } = .next (State.give { s with inbox := rest } .none)) :
    step s = .next { s with inbox := rest, out := .none } := by
  obtain hin | hin := hin <;> rw [step_cons hin]
  · exact h
  · exact congrArg holdResponse h

/-- Settles O50: each clause is what its action does in the case named (`acceptConn_opens`, `perform_deliver_open`), or that
the action is passed over there (`perform_deliver_notOpen`,
`perform_close_notOpen`, `perform_handBack_notHeld`, `step_passedTurn`). -/
theorem connectionsOpenFillAndClose : Obligations.ConnectionsOpenFillAndClose := by
  refine fun s c bytes rest => ⟨fun hin hc hf => ?_, fun hin => ?_, fun received hin hc => ?_, fun hin hc => ?_,
    fun hin hc hw => ?_, fun hin hw => ?_, fun k hin hk => ?_⟩
  · exact (step_cons hin).trans (acceptConn_opens hc hf)
  · exact step_cons hin
  · exact (step_cons hin).trans (perform_deliver_open bytes hc)
  · obtain hin | hin := hin
    · exact (step_cons hin).trans (perform_deliver_notOpen bytes hc)
    · exact step_passedTurn hin (serveConn_notOpen hc)
  · exact (step_cons hin).trans (perform_close_notOpen hc hw)
  · exact step_passedTurn hin (serveConn_busy hw)
  · exact (step_cons hin).trans (perform_handBack_notHeld hk)

end Sys2Proof.Machine
